-- ==== Sys2Proof/Word.lean ====
section
/-! DEFINITION. The word types of the machine (`00_scope.md` R8, R10): 32-bit words and addresses,
8-bit bytes, 16-bit immediates, and the 5-bit register index as a number below 32. -/

namespace Sys2Proof

/-- A word32: register contents, addresses, instruction words (R8, R10). -/
abbrev Word := BitVec 32

/-- A byte of memory (R8). -/
abbrev Byte := BitVec 8

/-- A 16-bit immediate or halfword. -/
abbrev Half := BitVec 16

/-- A general register index, 0 to 31 (`10_state.md` R21). -/
abbrev Reg := Fin 32

end Sys2Proof
end

