-- ==== Sys2Proof/Syntax.lean ====
section
/-! DEFINITION. The instructions: one constructor for each row of `spec/opcode_table.json`. A
constructor's arguments are the row's fields, in the table's order. Fields an instruction ignores
(`30_encoding.md` R101) are not part of it. -/

namespace Sys2Proof

inductive Instr where
  -- jumps and branches (`41_jumps_branches.md`)
  | j (target26 : BitVec 26)
  | jal (target26 : BitVec 26)
  | beq (rs rt : Reg) (imm16 : Half)
  | bne (rs rt : Reg) (imm16 : Half)
  | blez (rs : Reg) (imm16 : Half)
  | bgtz (rs : Reg) (imm16 : Half)
  -- ALU-immediate (`44_alu_immediate.md`)
  | addi (rs rt : Reg) (imm16 : Half)
  | addiu (rs rt : Reg) (imm16 : Half)
  | slti (rs rt : Reg) (imm16 : Half)
  | sltiu (rs rt : Reg) (imm16 : Half)
  | andi (rs rt : Reg) (imm16 : Half)
  | ori (rs rt : Reg) (imm16 : Half)
  | xori (rs rt : Reg) (imm16 : Half)
  | lui (rt : Reg) (imm16 : Half)
  -- loads (`42_loads.md`)
  | lb (rs rt : Reg) (imm16 : Half)
  | lh (rs rt : Reg) (imm16 : Half)
  | lwl (rs rt : Reg) (imm16 : Half)
  | lw (rs rt : Reg) (imm16 : Half)
  | lbu (rs rt : Reg) (imm16 : Half)
  | lhu (rs rt : Reg) (imm16 : Half)
  | lwr (rs rt : Reg) (imm16 : Half)
  -- stores (`43_stores.md`)
  | sb (rs rt : Reg) (imm16 : Half)
  | sh (rs rt : Reg) (imm16 : Half)
  | swl (rs rt : Reg) (imm16 : Half)
  | sw (rs rt : Reg) (imm16 : Half)
  | swr (rs rt : Reg) (imm16 : Half)
  -- register jumps and bcond branches (`41_jumps_branches.md`)
  | jr (rs : Reg)
  | jalr (rs rd : Reg)
  | bltz (rs : Reg) (imm16 : Half)
  | bgez (rs : Reg) (imm16 : Half)
  | bltzal (rs : Reg) (imm16 : Half)
  | bgezal (rs : Reg) (imm16 : Half)
  -- the SPECIAL_ALU option (`45_special_alu_option.md`)
  | sll (rt rd : Reg) (shamt : BitVec 5)
  | srl (rt rd : Reg) (shamt : BitVec 5)
  | sra (rt rd : Reg) (shamt : BitVec 5)
  | sllv (rs rt rd : Reg)
  | srlv (rs rt rd : Reg)
  | srav (rs rt rd : Reg)
  | add (rs rt rd : Reg)
  | addu (rs rt rd : Reg)
  | sub (rs rt rd : Reg)
  | subu (rs rt rd : Reg)
  | and (rs rt rd : Reg)
  | or (rs rt rd : Reg)
  | xor (rs rt rd : Reg)
  | nor (rs rt rd : Reg)
  | slt (rs rt rd : Reg)
  | sltu (rs rt rd : Reg)
deriving DecidableEq, Repr

end Sys2Proof
end

