-- ==== Sys2Proof/WellFormed.lean ====
section
/-! DEFINITION. Which instructions exist on a machine. Every field of `Instr` has exactly the width
of its encoding field (`30_encoding.md` R91), so no operand can be out of range; the one check is
that the instruction's table entry is populated (R96, R107). -/

namespace Sys2Proof

/-- The sixteen rows populated only when `SPECIAL_ALU = true` (`30_encoding.md` R107). -/
def Instr.isOption : Instr → Bool
  | .sll _ _ _ | .srl _ _ _ | .sra _ _ _ | .sllv _ _ _ | .srlv _ _ _ | .srav _ _ _ => true
  | .add _ _ _ | .addu _ _ _ | .sub _ _ _ | .subu _ _ _ => true
  | .and _ _ _ | .or _ _ _ | .xor _ _ _ | .nor _ _ _ | .slt _ _ _ | .sltu _ _ _ => true
  | .j _ | .jal _ | .beq _ _ _ | .bne _ _ _ | .blez _ _ | .bgtz _ _ => false
  | .jr _ | .jalr _ _ | .bltz _ _ | .bgez _ _ | .bltzal _ _ | .bgezal _ _ => false
  | .addi _ _ _ | .addiu _ _ _ | .slti _ _ _ | .sltiu _ _ _ => false
  | .andi _ _ _ | .ori _ _ _ | .xori _ _ _ | .lui _ _ => false
  | .lb _ _ _ | .lh _ _ _ | .lwl _ _ _ | .lw _ _ _ | .lbu _ _ _ | .lhu _ _ _ | .lwr _ _ _ => false
  | .sb _ _ _ | .sh _ _ _ | .swl _ _ _ | .sw _ _ _ | .swr _ _ _ => false

/-- `i` is populated on a machine whose `SPECIAL_ALU` is `specialAlu` (R96, R107). -/
def Instr.wellFormed (specialAlu : Bool) (i : Instr) : Bool :=
  !i.isOption || specialAlu

end Sys2Proof
end

