-- ==== Sys2Proof/Decode.lean ====
section
/-! DEFINITION. Fields, decoder, encoder and opcode rows (`30_encoding.md`). The decoder follows the
primary table and the two secondary decodes (R94, R95, R97 to R99, R107); the encoder and
`opcodeRows` follow the canonical encodings (R108). -/

namespace Sys2Proof

/-! ### Fields (R91, `00_scope.md` R15) -/

/-- A 5-bit field as a register index. -/
def regOf (b : BitVec 5) : Reg := b.toFin

/-- A register index as its 5-bit field. -/
def regBits (r : Reg) : BitVec 5 := BitVec.ofFin r

/-- `op = w[31:26]`. -/
def opField (w : Word) : BitVec 6 := w.extractLsb' 26 6
/-- `w[25:21]`, the bits of `rs`. -/
def rsBits (w : Word) : BitVec 5 := w.extractLsb' 21 5
/-- `w[20:16]`, the bits of `rt`; the condition code when `op` = 1 (R95). -/
def rtBits (w : Word) : BitVec 5 := w.extractLsb' 16 5
/-- `w[15:11]`, the bits of `rd`. -/
def rdBits (w : Word) : BitVec 5 := w.extractLsb' 11 5
/-- `shamt = w[10:6]`. -/
def shamtField (w : Word) : BitVec 5 := w.extractLsb' 6 5
/-- `funct = w[5:0]`. -/
def functField (w : Word) : BitVec 6 := w.extractLsb' 0 6
/-- `imm16 = w[15:0]`. -/
def immField (w : Word) : Half := w.extractLsb' 0 16
/-- `target26 = w[25:0]`. -/
def targetField (w : Word) : BitVec 26 := w.extractLsb' 0 26
/-- The register `rs` names. -/
def rsField (w : Word) : Reg := regOf (rsBits w)
/-- The register `rt` names. -/
def rtField (w : Word) : Reg := regOf (rtBits w)
/-- The register `rd` names. -/
def rdField (w : Word) : Reg := regOf (rdBits w)

/-! ### Decode (R94, R95, R97 to R100, R104, R107) -/

/-- Why a word is no populated instruction (R100), by the table entry that is unpopulated. -/
inductive DecodeError where
  /-- The primary entry of `op` is unpopulated (R97). -/
  | primary (op : BitVec 6)
  /-- `op` = 0 and the secondary entry of `funct` is unpopulated under either setting (R98). -/
  | special (funct : BitVec 6)
  /-- `op` = 0 and `funct` is populated only when `SPECIAL_ALU = true` (R98, R107). -/
  | optionOff (funct : BitVec 6)
  /-- `op` = 1 and `rt` is none of the four condition codes (R99). -/
  | bcond (rt : BitVec 5)
  /-- Fewer than four bytes were given (R90: an instruction is one 32-bit word). -/
  | truncated
deriving DecidableEq, Repr

/-- The I-format operands `rs`, `rt`, `imm16`. -/
def iFormat (c : Reg → Reg → Half → Instr) (w : Word) : Except DecodeError Instr :=
  .ok (c (rsField w) (rtField w) (immField w))

/-- The operands `rs`, `imm16`; `rt` is ignored or is the condition code (R101). -/
def rsFormat (c : Reg → Half → Instr) (w : Word) : Except DecodeError Instr :=
  .ok (c (rsField w) (immField w))

/-- An option entry with the operands `rs`, `rt`, `rd`; `shamt` is ignored (R101, R107). -/
def rFormat (specialAlu : Bool) (c : Reg → Reg → Reg → Instr) (w : Word) : Except DecodeError Instr :=
  if specialAlu then .ok (c (rsField w) (rtField w) (rdField w)) else .error (.optionOff (functField w))

/-- An option entry with the operands `rt`, `rd`, `shamt`; `rs` is ignored (R101, R107). -/
def shiftFormat (specialAlu : Bool) (c : Reg → Reg → BitVec 5 → Instr) (w : Word) :
    Except DecodeError Instr :=
  if specialAlu then .ok (c (rtField w) (rdField w) (shamtField w))
  else .error (.optionOff (functField w))

/-- The secondary table, indexed by `funct` (R98, R107). -/
def decodeSpecial (specialAlu : Bool) (w : Word) : Except DecodeError Instr :=
  match functField w with
  | 0x08#6 => .ok (.jr (rsField w))
  | 0x09#6 => .ok (.jalr (rsField w) (rdField w))
  | 0x00#6 => shiftFormat specialAlu .sll w
  | 0x02#6 => shiftFormat specialAlu .srl w
  | 0x03#6 => shiftFormat specialAlu .sra w
  | 0x04#6 => rFormat specialAlu .sllv w
  | 0x06#6 => rFormat specialAlu .srlv w
  | 0x07#6 => rFormat specialAlu .srav w
  | 0x20#6 => rFormat specialAlu .add w
  | 0x21#6 => rFormat specialAlu .addu w
  | 0x22#6 => rFormat specialAlu .sub w
  | 0x23#6 => rFormat specialAlu .subu w
  | 0x24#6 => rFormat specialAlu .and w
  | 0x25#6 => rFormat specialAlu .or w
  | 0x26#6 => rFormat specialAlu .xor w
  | 0x27#6 => rFormat specialAlu .nor w
  | 0x2A#6 => rFormat specialAlu .slt w
  | 0x2B#6 => rFormat specialAlu .sltu w
  | f => .error (.special f)

/-- The bcond sub-decode, indexed by `rt` (R99). -/
def decodeBcond (w : Word) : Except DecodeError Instr :=
  match rtBits w with
  | 0x00#5 => rsFormat .bltz w
  | 0x01#5 => rsFormat .bgez w
  | 0x10#5 => rsFormat .bltzal w
  | 0x11#5 => rsFormat .bgezal w
  | c => .error (.bcond c)

/-- The primary table, indexed by `op` (R97). Total, and a function of the word and `SPECIAL_ALU`
alone (R104). -/
def decode (specialAlu : Bool) (w : Word) : Except DecodeError Instr :=
  match opField w with
  | 0x00#6 => decodeSpecial specialAlu w
  | 0x01#6 => decodeBcond w
  | 0x02#6 => .ok (.j (targetField w))
  | 0x03#6 => .ok (.jal (targetField w))
  | 0x04#6 => iFormat .beq w
  | 0x05#6 => iFormat .bne w
  | 0x06#6 => rsFormat .blez w
  | 0x07#6 => rsFormat .bgtz w
  | 0x08#6 => iFormat .addi w
  | 0x09#6 => iFormat .addiu w
  | 0x0A#6 => iFormat .slti w
  | 0x0B#6 => iFormat .sltiu w
  | 0x0C#6 => iFormat .andi w
  | 0x0D#6 => iFormat .ori w
  | 0x0E#6 => iFormat .xori w
  | 0x0F#6 => .ok (.lui (rtField w) (immField w))
  | 0x20#6 => iFormat .lb w
  | 0x21#6 => iFormat .lh w
  | 0x22#6 => iFormat .lwl w
  | 0x23#6 => iFormat .lw w
  | 0x24#6 => iFormat .lbu w
  | 0x25#6 => iFormat .lhu w
  | 0x26#6 => iFormat .lwr w
  | 0x28#6 => iFormat .sb w
  | 0x29#6 => iFormat .sh w
  | 0x2A#6 => iFormat .swl w
  | 0x2B#6 => iFormat .sw w
  | 0x2E#6 => iFormat .swr w
  | o => .error (.primary o)

/-- Four bytes as a word, the first least significant (R90). -/
def wordOfBytes (b0 b1 b2 b3 : Byte) : Word := b3 ++ b2 ++ b1 ++ b0

/-- Byte `k` of a word, 0 the least significant. -/
def byteOf (w : Word) (k : Nat) : Byte := w.extractLsb' (8 * k) 8

/-- Decode the instruction at the front of some bytes, answering the bytes that follow it. Total on
any bytes (R90, R104). -/
def decodeBytes (specialAlu : Bool) : List Byte → Except DecodeError (Instr × List Byte)
  | b0 :: b1 :: b2 :: b3 :: rest =>
    match decode specialAlu (wordOfBytes b0 b1 b2 b3) with
    | .ok i => .ok (i, rest)
    | .error e => .error e
  | _ => .error .truncated

/-! ### Encode (R91, R108) -/

/-- The J format: `op`, `target26`. -/
def encJ (op : BitVec 6) (target26 : BitVec 26) : Word := op ++ target26

/-- The I format: `op`, `rs`, `rt`, `imm16`. -/
def encI (op : BitVec 6) (rs rt : BitVec 5) (imm16 : Half) : Word := op ++ (rs ++ (rt ++ imm16))

/-- The R format with `op` = 0: `rs`, `rt`, `rd`, `shamt`, `funct`. -/
def encR (rs rt rd shamt : BitVec 5) (funct : BitVec 6) : Word :=
  0#6 ++ (rs ++ (rt ++ (rd ++ (shamt ++ funct))))

/-- The canonical word of an instruction: the row's match value with its fields, every ignored field
zero (R101, R108). -/
def encode : Instr → Word
  | .j t => encJ 0x02#6 t
  | .jal t => encJ 0x03#6 t
  | .beq rs rt imm => encI 0x04#6 (regBits rs) (regBits rt) imm
  | .bne rs rt imm => encI 0x05#6 (regBits rs) (regBits rt) imm
  | .blez rs imm => encI 0x06#6 (regBits rs) 0#5 imm
  | .bgtz rs imm => encI 0x07#6 (regBits rs) 0#5 imm
  | .addi rs rt imm => encI 0x08#6 (regBits rs) (regBits rt) imm
  | .addiu rs rt imm => encI 0x09#6 (regBits rs) (regBits rt) imm
  | .slti rs rt imm => encI 0x0A#6 (regBits rs) (regBits rt) imm
  | .sltiu rs rt imm => encI 0x0B#6 (regBits rs) (regBits rt) imm
  | .andi rs rt imm => encI 0x0C#6 (regBits rs) (regBits rt) imm
  | .ori rs rt imm => encI 0x0D#6 (regBits rs) (regBits rt) imm
  | .xori rs rt imm => encI 0x0E#6 (regBits rs) (regBits rt) imm
  | .lui rt imm => encI 0x0F#6 0#5 (regBits rt) imm
  | .lb rs rt imm => encI 0x20#6 (regBits rs) (regBits rt) imm
  | .lh rs rt imm => encI 0x21#6 (regBits rs) (regBits rt) imm
  | .lwl rs rt imm => encI 0x22#6 (regBits rs) (regBits rt) imm
  | .lw rs rt imm => encI 0x23#6 (regBits rs) (regBits rt) imm
  | .lbu rs rt imm => encI 0x24#6 (regBits rs) (regBits rt) imm
  | .lhu rs rt imm => encI 0x25#6 (regBits rs) (regBits rt) imm
  | .lwr rs rt imm => encI 0x26#6 (regBits rs) (regBits rt) imm
  | .sb rs rt imm => encI 0x28#6 (regBits rs) (regBits rt) imm
  | .sh rs rt imm => encI 0x29#6 (regBits rs) (regBits rt) imm
  | .swl rs rt imm => encI 0x2A#6 (regBits rs) (regBits rt) imm
  | .sw rs rt imm => encI 0x2B#6 (regBits rs) (regBits rt) imm
  | .swr rs rt imm => encI 0x2E#6 (regBits rs) (regBits rt) imm
  | .jr rs => encR (regBits rs) 0#5 0#5 0#5 0x08#6
  | .jalr rs rd => encR (regBits rs) 0#5 (regBits rd) 0#5 0x09#6
  | .bltz rs imm => encI 0x01#6 (regBits rs) 0x00#5 imm
  | .bgez rs imm => encI 0x01#6 (regBits rs) 0x01#5 imm
  | .bltzal rs imm => encI 0x01#6 (regBits rs) 0x10#5 imm
  | .bgezal rs imm => encI 0x01#6 (regBits rs) 0x11#5 imm
  | .sll rt rd sh => encR 0#5 (regBits rt) (regBits rd) sh 0x00#6
  | .srl rt rd sh => encR 0#5 (regBits rt) (regBits rd) sh 0x02#6
  | .sra rt rd sh => encR 0#5 (regBits rt) (regBits rd) sh 0x03#6
  | .sllv rs rt rd => encR (regBits rs) (regBits rt) (regBits rd) 0#5 0x04#6
  | .srlv rs rt rd => encR (regBits rs) (regBits rt) (regBits rd) 0#5 0x06#6
  | .srav rs rt rd => encR (regBits rs) (regBits rt) (regBits rd) 0#5 0x07#6
  | .add rs rt rd => encR (regBits rs) (regBits rt) (regBits rd) 0#5 0x20#6
  | .addu rs rt rd => encR (regBits rs) (regBits rt) (regBits rd) 0#5 0x21#6
  | .sub rs rt rd => encR (regBits rs) (regBits rt) (regBits rd) 0#5 0x22#6
  | .subu rs rt rd => encR (regBits rs) (regBits rt) (regBits rd) 0#5 0x23#6
  | .and rs rt rd => encR (regBits rs) (regBits rt) (regBits rd) 0#5 0x24#6
  | .or rs rt rd => encR (regBits rs) (regBits rt) (regBits rd) 0#5 0x25#6
  | .xor rs rt rd => encR (regBits rs) (regBits rt) (regBits rd) 0#5 0x26#6
  | .nor rs rt rd => encR (regBits rs) (regBits rt) (regBits rd) 0#5 0x27#6
  | .slt rs rt rd => encR (regBits rs) (regBits rt) (regBits rd) 0#5 0x2A#6
  | .sltu rs rt rd => encR (regBits rs) (regBits rt) (regBits rd) 0#5 0x2B#6

/-! ### The opcode rows (R108) -/

/-- The mnemonic of an instruction, as the opcode table spells it. -/
def Instr.mnemonic : Instr → String
  | .j _ => "j" | .jal _ => "jal" | .jr _ => "jr" | .jalr _ _ => "jalr"
  | .beq _ _ _ => "beq" | .bne _ _ _ => "bne" | .blez _ _ => "blez" | .bgtz _ _ => "bgtz"
  | .bltz _ _ => "bltz" | .bgez _ _ => "bgez" | .bltzal _ _ => "bltzal" | .bgezal _ _ => "bgezal"
  | .addi _ _ _ => "addi" | .addiu _ _ _ => "addiu" | .slti _ _ _ => "slti"
  | .sltiu _ _ _ => "sltiu" | .andi _ _ _ => "andi" | .ori _ _ _ => "ori"
  | .xori _ _ _ => "xori" | .lui _ _ => "lui"
  | .lb _ _ _ => "lb" | .lh _ _ _ => "lh" | .lwl _ _ _ => "lwl" | .lw _ _ _ => "lw"
  | .lbu _ _ _ => "lbu" | .lhu _ _ _ => "lhu" | .lwr _ _ _ => "lwr"
  | .sb _ _ _ => "sb" | .sh _ _ _ => "sh" | .swl _ _ _ => "swl" | .sw _ _ _ => "sw"
  | .swr _ _ _ => "swr"
  | .sll _ _ _ => "sll" | .srl _ _ _ => "srl" | .sra _ _ _ => "sra"
  | .sllv _ _ _ => "sllv" | .srlv _ _ _ => "srlv" | .srav _ _ _ => "srav"
  | .add _ _ _ => "add" | .addu _ _ _ => "addu" | .sub _ _ _ => "sub" | .subu _ _ _ => "subu"
  | .and _ _ _ => "and" | .or _ _ _ => "or" | .xor _ _ _ => "xor" | .nor _ _ _ => "nor"
  | .slt _ _ _ => "slt" | .sltu _ _ _ => "sltu"

/-- One row of the canonical encodings: a word `w` is the row's instruction when
`w & mask = pattern` (R108); an option row is populated only when `SPECIAL_ALU = true` (R107). -/
structure OpcodeRow where
  mnemonic : String
  pattern  : Word
  mask     : Word
  isOption : Bool
deriving DecidableEq, Repr

/-- The I-format and J-format rows, the special rows and the bcond rows of the default set (R108). -/
def defaultRows : List OpcodeRow :=
  [⟨"j", 0x08000000, 0xFC000000, false⟩, ⟨"jal", 0x0C000000, 0xFC000000, false⟩,
   ⟨"beq", 0x10000000, 0xFC000000, false⟩, ⟨"bne", 0x14000000, 0xFC000000, false⟩,
   ⟨"blez", 0x18000000, 0xFC000000, false⟩, ⟨"bgtz", 0x1C000000, 0xFC000000, false⟩,
   ⟨"addi", 0x20000000, 0xFC000000, false⟩, ⟨"addiu", 0x24000000, 0xFC000000, false⟩,
   ⟨"slti", 0x28000000, 0xFC000000, false⟩, ⟨"sltiu", 0x2C000000, 0xFC000000, false⟩,
   ⟨"andi", 0x30000000, 0xFC000000, false⟩, ⟨"ori", 0x34000000, 0xFC000000, false⟩,
   ⟨"xori", 0x38000000, 0xFC000000, false⟩, ⟨"lui", 0x3C000000, 0xFC000000, false⟩] ++
  [⟨"lb", 0x80000000, 0xFC000000, false⟩, ⟨"lh", 0x84000000, 0xFC000000, false⟩,
   ⟨"lwl", 0x88000000, 0xFC000000, false⟩, ⟨"lw", 0x8C000000, 0xFC000000, false⟩,
   ⟨"lbu", 0x90000000, 0xFC000000, false⟩, ⟨"lhu", 0x94000000, 0xFC000000, false⟩,
   ⟨"lwr", 0x98000000, 0xFC000000, false⟩, ⟨"sb", 0xA0000000, 0xFC000000, false⟩,
   ⟨"sh", 0xA4000000, 0xFC000000, false⟩, ⟨"swl", 0xA8000000, 0xFC000000, false⟩,
   ⟨"sw", 0xAC000000, 0xFC000000, false⟩, ⟨"swr", 0xB8000000, 0xFC000000, false⟩] ++
  [⟨"jr", 0x00000008, 0xFC00003F, false⟩, ⟨"jalr", 0x00000009, 0xFC00003F, false⟩,
   ⟨"bltz", 0x04000000, 0xFC1F0000, false⟩, ⟨"bgez", 0x04010000, 0xFC1F0000, false⟩,
   ⟨"bltzal", 0x04100000, 0xFC1F0000, false⟩, ⟨"bgezal", 0x04110000, 0xFC1F0000, false⟩]

/-- The option rows (R107, R108). -/
def optionRows : List OpcodeRow :=
  [⟨"sll", 0x00000000, 0xFC00003F, true⟩, ⟨"srl", 0x00000002, 0xFC00003F, true⟩,
   ⟨"sra", 0x00000003, 0xFC00003F, true⟩, ⟨"sllv", 0x00000004, 0xFC00003F, true⟩,
   ⟨"srlv", 0x00000006, 0xFC00003F, true⟩, ⟨"srav", 0x00000007, 0xFC00003F, true⟩,
   ⟨"add", 0x00000020, 0xFC00003F, true⟩, ⟨"addu", 0x00000021, 0xFC00003F, true⟩,
   ⟨"sub", 0x00000022, 0xFC00003F, true⟩, ⟨"subu", 0x00000023, 0xFC00003F, true⟩,
   ⟨"and", 0x00000024, 0xFC00003F, true⟩, ⟨"or", 0x00000025, 0xFC00003F, true⟩,
   ⟨"xor", 0x00000026, 0xFC00003F, true⟩, ⟨"nor", 0x00000027, 0xFC00003F, true⟩,
   ⟨"slt", 0x0000002A, 0xFC00003F, true⟩, ⟨"sltu", 0x0000002B, 0xFC00003F, true⟩]

/-- All 48 rows. -/
def opcodeRows : List OpcodeRow := defaultRows ++ optionRows

/-- The word `w` is the instruction of row `r` (R108). -/
def OpcodeRow.selects (r : OpcodeRow) (w : Word) : Bool := w &&& r.mask == r.pattern

/-! ### The twelve jumps and branches (`41_jumps_branches.md`) -/

/-- One of the twelve jump and branch instructions (`40_execution_cycle.md` R128). -/
def Instr.isTransfer : Instr → Bool
  | .j _ | .jal _ | .jr _ | .jalr _ _ | .beq _ _ _ | .bne _ _ _ => true
  | .blez _ _ | .bgtz _ _ | .bltz _ _ | .bgez _ _ | .bltzal _ _ | .bgezal _ _ => true
  | .addi _ _ _ | .addiu _ _ _ | .slti _ _ _ | .sltiu _ _ _ => false
  | .andi _ _ _ | .ori _ _ _ | .xori _ _ _ | .lui _ _ => false
  | .lb _ _ _ | .lh _ _ _ | .lwl _ _ _ | .lw _ _ _ | .lbu _ _ _ | .lhu _ _ _ | .lwr _ _ _ => false
  | .sb _ _ _ | .sh _ _ _ | .swl _ _ _ | .sw _ _ _ | .swr _ _ _ => false
  | .sll _ _ _ | .srl _ _ _ | .sra _ _ _ | .sllv _ _ _ | .srlv _ _ _ | .srav _ _ _ => false
  | .add _ _ _ | .addu _ _ _ | .sub _ _ _ | .subu _ _ _ => false
  | .and _ _ _ | .or _ _ _ | .xor _ _ _ | .nor _ _ _ | .slt _ _ _ | .sltu _ _ _ => false

/-! ### Used fields (R101, R108) -/

/-- The bits of a word that `op` and the fields `rs`, `rt`, `imm16` cover. -/
def maskOpRsRtImm : Word := 0xFFFFFFFF#32
/-- The bits of a word that `op`, `rs` and `imm16` cover. -/
def maskOpRsImm : Word := 0xFFE0FFFF#32
/-- The bits of a word that `op`, `rt` and `imm16` cover. -/
def maskOpRtImm : Word := 0xFC1FFFFF#32
/-- The bits of a word that `op`, `rt`, `rd`, `shamt` and `funct` cover. -/
def maskShift : Word := 0xFC1FFFFF#32
/-- The bits of a word that `op`, `rs`, `rt`, `rd` and `funct` cover. -/
def maskThreeReg : Word := 0xFFFFF83F#32

/-- The bits of its word an instruction depends on: the bits that select it and the fields it names
(the `mask` and `fields used` columns of R108). The other bits are ignored (R101). -/
def Instr.usedBits : Instr → Word
  | .j _ | .jal _ => 0xFFFFFFFF#32
  | .jr _ => 0xFFE0003F#32
  | .jalr _ _ => 0xFFE0F83F#32
  | .blez _ _ | .bgtz _ _ => maskOpRsImm
  | .lui _ _ => maskOpRtImm
  | .beq _ _ _ | .bne _ _ _ => maskOpRsRtImm
  | .bltz _ _ | .bgez _ _ | .bltzal _ _ | .bgezal _ _ => maskOpRsRtImm
  | .addi _ _ _ | .addiu _ _ _ | .slti _ _ _ | .sltiu _ _ _ => maskOpRsRtImm
  | .andi _ _ _ | .ori _ _ _ | .xori _ _ _ => maskOpRsRtImm
  | .lb _ _ _ | .lh _ _ _ | .lwl _ _ _ | .lw _ _ _ => maskOpRsRtImm
  | .lbu _ _ _ | .lhu _ _ _ | .lwr _ _ _ => maskOpRsRtImm
  | .sb _ _ _ | .sh _ _ _ | .swl _ _ _ | .sw _ _ _ | .swr _ _ _ => maskOpRsRtImm
  | .sll _ _ _ | .srl _ _ _ | .sra _ _ _ => maskShift
  | .sllv _ _ _ | .srlv _ _ _ | .srav _ _ _ => maskThreeReg
  | .add _ _ _ | .addu _ _ _ | .sub _ _ _ | .subu _ _ _ => maskThreeReg
  | .and _ _ _ | .or _ _ _ | .xor _ _ _ | .nor _ _ _ | .slt _ _ _ | .sltu _ _ _ => maskThreeReg

/-! ### The host's view of the opcode table -/

/-- The word the opcode table's numbering gives: bit 0 is the least significant bit of the word, and
the bits from `nbits` up are zero. -/
def tableWord (nbits w : Nat) : Word := BitVec.ofNat 32 (w % 2 ^ nbits)

/-- The instruction the decoder reads from a row's word, laid out little-endian. `SPECIAL_ALU` is
taken as true, because the table lists the option's rows too (log entry 4). -/
def decodeTableWord (nbits w : Nat) : Option Instr :=
  let v := tableWord nbits w
  match decodeBytes true [byteOf v 0, byteOf v 1, byteOf v 2, byteOf v 3] with
  | .ok (i, _) => some i
  | .error _ => none

end Sys2Proof
end

