-- ==== Sys2Proof/Config.lean ====
section
/-! DEFINITION. What is fixed for one machine: the names of the bus regions, the reset vector, the
open parameters the spec's model takes as arguments (`00_scope.md` R9), and the two free values. -/

namespace Sys2Proof

/-- The five regions of the Address Bus (`20_memory.md` R51). Their bases, sizes and access are in
`Sys2Proof/Machine/Bus.lean`. -/
inductive Region where
  | mainRam
  | expansion1
  | scratchpad
  | ioPorts
  | biosRom
deriving DecidableEq, Repr

/-- The hardware reset vector (`10_state.md` R27, `70_reset_and_hazards.md` R290). -/
def Config.resetVector : Word := 0xBFC00000#32

/-- The open parameters that are data: `RESET_GPR`, `RESET_HI`, `RESET_LO`, `SPECIAL_ALU`
(`00_scope.md` R9). `resetGpr` has an entry for register 0 that nothing reads. The parameter `BIOS`
is the content of the ROM region in memory; the parameter `CYCLES` is `Config.cycles`. -/
structure Params where
  resetGpr   : Vector Word 32
  resetHi    : Word
  resetLo    : Word
  specialAlu : Bool
deriving DecidableEq, Repr

/-- The values `State.reset` takes: registers 0, and `SPECIAL_ALU = false`, the spec's default.
DESIGN CHOICE (log entries 2, 3), unsafe: the spec leaves the register values open. -/
def Params.default : Params :=
  { resetGpr := Vector.replicate 32 0#32, resetHi := 0#32, resetLo := 0#32, specialAlu := false }

/-- FREE VALUE (log entry 7), safe: the open parameter `CYCLES`, the declared cycle cost of each
instruction by its mnemonic (`70_reset_and_hazards.md` R309). No state depends on it. -/
opaque Config.cycles : String → Nat

/-- FREE VALUE (log entry 9): what the inspection port returns for a register index above 31
(`60_exceptions.md` R281, `93_implementation_defined.md` U4). -/
opaque Config.outOfRangeRead : Nat → Word

end Sys2Proof
end

