-- ==== Sys2Proof/Machine/State.lean ====
section
/-! DEFINITION. The state of the block (`10_state.md` R20 to R36), how a step can stop, and the state
after reset. -/

namespace Sys2Proof.Machine

/-- The contents of the bus regions: (address, byte) pairs in the canonical form `Memory.wf` of
`Sys2Proof/Machine/Bus.lean`. The key is the full address, so one list holds the five regions
(log entry 13). -/
abbrev Memory := List Host.Cell

/-- The two causes of a halt (`60_exceptions.md` R261). -/
inductive HaltCause where
  | undefinedInstruction
  | integerOverflow
deriving DecidableEq, Repr

/-- The halted condition: `running`, or `halted(cause, w)` (`10_state.md` R34). -/
inductive RunState where
  | running
  | halted (cause : HaltCause) (word : Word)
deriving DecidableEq, Repr

/-- A pending `(register_index, value)` pair produced by a load (`10_state.md` R33). -/
structure PendingLoad where
  reg : Reg
  val : Word
deriving DecidableEq, Repr

/-- A diagnostic event (`20_memory.md` R56, R59). A write to the BIOS ROM emits the same event as a
write to an unmapped address (R58). -/
inductive Diag where
  | unmappedRead (addr : Word)
  | unmappedWrite (addr : Word) (byte : Byte)
  | biosRejected (size : Nat)
deriving DecidableEq, Repr

/-- The state. `regs` to `mem` are the spec's (R20); `params` holds the open parameters, which no step
writes (`00_scope.md` R9); `iw`, `transfer` and `diags` are the model's own (log entries 8, 11). -/
structure State where
  /-- `x[0..31]`; read and written through `State.x` and `State.setX` (R21, R22). -/
  regs     : Vector Word 32
  /-- Unused by every instruction (R25). -/
  hi       : Word
  /-- Unused by every instruction (R25). -/
  lo       : Word
  /-- The program counter (R27). -/
  pc       : Word
  /-- The primed delay-slot word (R32). -/
  ds       : Word
  /-- The pending load (R33). -/
  pend     : Option PendingLoad
  /-- The halted condition (R34). -/
  halted   : RunState
  /-- The region contents (`20_memory.md` R51, R55, R56). -/
  mem      : Memory
  /-- The word under execution, `w` of the instruction cycle (`40_execution_cycle.md` R123). -/
  iw       : Word
  /-- The target of a `Transfer(t)` the executing instruction has asked for (`00_scope.md` R14);
  `none` between steps. -/
  transfer : Option Word
  /-- The diagnostic events emitted so far, oldest first: an output (`20_memory.md` R59). -/
  diags    : List Diag
  /-- The open parameters (`00_scope.md` R9). -/
  params   : Params
deriving DecidableEq, Repr

/-- Reasons a step stops with a fault. There are none: every condition the spec calls a fault is the
halted state, a next state in which `halted` records the cause (R262; log entry 1), and no memory
access can fail (`20_memory.md` R57, R58). -/
inductive Fault where
deriving DecidableEq, Repr

/-- Reasons a step is refused. -/
inductive Refusal where
  /-- An arm of `exec` without a meaning. No arm is left so. Safe. -/
  | notModelled (mnemonic : String)
  /-- Raised by the instruction cycle of a delay slot whose word is a jump or branch: UNPREDICTABLE(U1),
  which a model refuses (`40_execution_cycle.md` R128). `word` is the slot's word. Safe. -/
  | transferInDelaySlot (word : Word)
deriving DecidableEq, Repr

/-- What a meaning, a cycle and a step answer. -/
abbrev Result := Host.Outcome State Fault Refusal

/-- The registers after a reset: 0 in register 0, `RESET_GPR` elsewhere (`10_state.md` R24). -/
def resetRegs (p : Params) : Vector Word 32 := p.resetGpr.set 0 0#32

/-- The state at construction under given parameters, with nothing in memory (`10_state.md` R36,
`20_memory.md` R55). -/
def State.resetWith (p : Params) : State :=
  { regs := resetRegs p, hi := p.resetHi, lo := p.resetLo, pc := Config.resetVector, ds := 0#32
    pend := none, halted := .running, mem := [], iw := 0#32, transfer := none, diags := [], params := p }

/-- The machine right after construction and reset (`10_state.md` R36, `70_reset_and_hazards.md` R290)
under the parameters `Params.default`; no BIOS image is loaded (log entries 2 to 5). -/
def State.reset : State := State.resetWith Params.default

end Sys2Proof.Machine
end

