-- ==== Sys2Proof/Machine/Bus.lean ====
section
/-! DEFINITION. The Address Bus (`20_memory.md`): regions and routing, the canonical form of memory,
the two byte primitives, and the little-endian composition of wider accesses. -/

namespace Sys2Proof.Machine

/-! ### Regions and routing (R51 to R53) -/

/-- The first address of a region (R51, R56). -/
def regionBase : Region → Nat
  | .mainRam => 0xA0000000
  | .expansion1 => 0xBF000000
  | .scratchpad => 0xBF800000
  | .ioPorts => 0xBF801000
  | .biosRom => 0xBFC00000

/-- The size of a region in bytes (R51). -/
def regionSize : Region → Nat
  | .mainRam => 0x200000
  | .expansion1 => 0x800000
  | .scratchpad => 0x1000
  | .ioPorts => 0x2000
  | .biosRom => 0x80000

/-- Whether a region can be written by an instruction (R51, R58). -/
def regionWritable : Region → Bool
  | .mainRam | .expansion1 | .scratchpad | .ioPorts => true
  | .biosRom => false

/-- `base <= a < base + size` (R52). -/
def regionContains (r : Region) (a : Nat) : Bool :=
  decide (regionBase r ≤ a) && decide (a < regionBase r + regionSize r)

/-- The regions in decode order, the narrower ones first (R52). -/
def decodeOrder : List Region := [.scratchpad, .ioPorts, .expansion1, .mainRam, .biosRom]

/-- The region an address, given as a number, falls in. -/
def regionAt (a : Nat) : Option Region := decodeOrder.find? (fun r => regionContains r a)

/-- `Route(a)`: the region and the offset in it, or `none` for an unmapped address (R52). -/
def route (a : Word) : Option (Region × Nat) :=
  (regionAt a.toNat).map (fun r => (r, a.toNat - regionBase r))

/-- `a` is in one of the five regions. -/
def mapped (a : Word) : Bool := (route a).isSome

/-- `a` is in one of the four read/write regions. -/
def writable (a : Word) : Bool :=
  match route a with
  | some (r, _) => regionWritable r
  | none => false

/-- The sentinel an unmapped byte reads as (R57). -/
def sentinel : Byte := 0xFF#8

/-! ### Memory as a canonical list -/

/-- What a byte of a region that the list does not hold reads as: zero, the content at bus
construction (R55) and of an unloaded ROM (R56). -/
def Memory.unlisted : Byte := 0x00#8

/-- The content at a key. -/
def Memory.get : Memory → Nat → Byte
  | [], _ => Memory.unlisted
  | (k, v) :: m, a => if k = a then v else Memory.get m a

/-- Put a cell in a rising list, replacing the one at its key. -/
def Memory.insert : Memory → Nat → Byte → Memory
  | [], a, b => [(a, b)]
  | (k, v) :: m, a, b =>
    if a < k then (a, b) :: (k, v) :: m
    else if a = k then (a, b) :: m
    else (k, v) :: Memory.insert m a b

/-- Take the cells of a key out. -/
def Memory.erase (m : Memory) (a : Nat) : Memory := m.filter (fun c => c.1 ≠ a)

/-- Set the content at a key, keeping the canonical form. -/
def Memory.set (m : Memory) (a : Nat) (b : Byte) : Memory :=
  if b = Memory.unlisted then Memory.erase m a else Memory.insert m a b

/-- The keys rise strictly and are all above `lo` (exclusive, when given). -/
def Memory.risingFrom : Option Nat → Memory → Bool
  | _, [] => true
  | lo, (k, _) :: m =>
    (match lo with
      | none => true
      | some l => decide (l < k)) && Memory.risingFrom (some k) m

/-- A cell the canonical form may hold: at an address of a region, with a content other than what an
unlisted byte reads as. -/
def Memory.cellOk (c : Host.Cell) : Bool :=
  decide (c.1 < 2 ^ 32) && (regionAt c.1).isSome && decide (c.2 ≠ Memory.unlisted)

/-- The canonical form: keys strictly rising, every cell in a region and listed for a reason, so that
equal memories are equal lists. -/
def Memory.wf (m : Memory) : Bool := Memory.risingFrom none m && m.all Memory.cellOk

/-! ### The byte primitives (R57 to R59) -/

/-- `read_u8` (R57). -/
def readU8 (m : Memory) (a : Word) : Byte :=
  if mapped a then Memory.get m a.toNat else sentinel

/-- `write_u8` (R58): a write to an unmapped address or to the BIOS ROM is discarded. -/
def writeU8 (m : Memory) (a : Word) (b : Byte) : Memory :=
  if writable a then Memory.set m a.toNat b else m

/-- Set a byte of any region, the ROM included: how the host fills the ROM before the first step
(R56). -/
def loadU8 (m : Memory) (a : Word) (b : Byte) : Memory :=
  if mapped a then Memory.set m a.toNat b else m

/-- The diagnostic a byte read emits (R57, R59). -/
def readDiag (a : Word) : List Diag := if mapped a then [] else [.unmappedRead a]

/-- The diagnostic a byte write emits (R58, R59). -/
def writeDiag (a : Word) (b : Byte) : List Diag := if writable a then [] else [.unmappedWrite a b]

/-! ### Wider accesses (R60 to R62, R65) -/

/-- `MemRead(a, n)` on region contents: the byte at the lowest address is least significant, each
byte is routed on its own, and addresses wrap (R61, R65). -/
def readLE (m : Memory) : Word → Nat → Word
  | _, 0 => 0#32
  | a, n + 1 => (readU8 m a).setWidth 32 ||| (readLE m (a + 1#32) n <<< 8)

/-- `MemWrite(a, n, v)` on region contents: the low byte at the lowest address, lowest address first
(R62). -/
def writeLE (m : Memory) : Word → Nat → Word → Memory
  | _, 0, _ => m
  | a, n + 1, v => writeLE (writeU8 m a (v.setWidth 8)) (a + 1#32) n (v >>> 8)

/-- The diagnostics of `MemRead(a, n)`, in order (R59, R61). -/
def readDiags : Word → Nat → List Diag
  | _, 0 => []
  | a, n + 1 => readDiag a ++ readDiags (a + 1#32) n

/-- The diagnostics of `MemWrite(a, n, v)`, in order (R59, R62). -/
def writeDiags : Word → Nat → Word → List Diag
  | _, 0, _ => []
  | a, n + 1, v => writeDiag a (v.setWidth 8) ++ writeDiags (a + 1#32) n (v >>> 8)

end Sys2Proof.Machine
end

