-- ==== Sys2Proof/Machine/Operands.lean ====
section
/-! DEFINITION. Operands: the extension of immediates and loaded values (`00_scope.md` R11,
`30_encoding.md` R93), register reads, addresses, targets, and the byte-lane tables of the unaligned
loads and stores. -/

namespace Sys2Proof.Machine

/-! ### Extension (R11, R93) -/

/-- `sext_8`. -/
def sext8 (v : Byte) : Word := v.signExtend 32
/-- `sext_16`. -/
def sext16 (v : Half) : Word := v.signExtend 32
/-- `zext_8`. -/
def zext8 (v : Byte) : Word := v.setWidth 32
/-- `zext_16`. -/
def zext16 (v : Half) : Word := v.setWidth 32

/-! ### Registers (`10_state.md` R21, R22; `00_scope.md` R12) -/

/-- `x[i]`: the register file's content, which does not include a load in flight
(`40_execution_cycle.md` R123). `x[0]` reads 0. -/
def State.x (s : State) (i : Reg) : Word := if i = 0 then 0#32 else s.regs.get i

/-- The current contents of `rt` for the merge of `lwl` and `lwr`: the value of a load into `rt` in
flight, else the register file's (`42_loads.md` R176). -/
def State.mergeOperand (s : State) (rt : Reg) : Word :=
  match s.pend with
  | some p => if rt ≠ 0 ∧ p.reg = rt then p.val else s.x rt
  | none => s.x rt

/-! ### Addresses and targets -/

/-- `EA = x[rs] + sext_16(imm16)` modulo 2^32 (`20_memory.md` R68). -/
def State.ea (s : State) (rs : Reg) (imm16 : Half) : Word := s.x rs + sext16 imm16

/-- The aligned word that contains an address: `EA & 0xFFFFFFFC` (`42_loads.md` R176). -/
def alignWord (a : Word) : Word := a &&& 0xFFFFFFFC#32

/-- `EA[1:0]`. -/
def lane (a : Word) : BitVec 2 := a.extractLsb' 0 2

/-- `link = pc + 4` with `pc` = A + 4, the address after the delay slot (`41_jumps_branches.md` R140). -/
def State.link (s : State) : Word := s.pc + 4#32

/-- `btarget = pc + (sext_16(imm16) << 2)` (R140). -/
def State.btarget (s : State) (imm16 : Half) : Word := s.pc + (sext16 imm16 <<< 2)

/-- `jtarget = (pc & 0xF0000000) | (target26 << 2)` (R140). -/
def State.jtarget (s : State) (target26 : BitVec 26) : Word :=
  (s.pc &&& 0xF0000000#32) ||| (target26.setWidth 32 <<< 2)

/-! ### Byte lanes (`42_loads.md` R176, R177; `43_stores.md` R194, R195) -/

/-- The merge of `lwl`: `cur` the register's bytes, `w` the aligned word (R176). -/
def lwlMerge (n : BitVec 2) (cur w : Word) : Word :=
  if n = 0#2 then (cur &&& 0x00FFFFFF#32) ||| (w <<< 24)
  else if n = 1#2 then (cur &&& 0x0000FFFF#32) ||| (w <<< 16)
  else if n = 2#2 then (cur &&& 0x000000FF#32) ||| (w <<< 8)
  else w

/-- The merge of `lwr` (R177). -/
def lwrMerge (n : BitVec 2) (cur w : Word) : Word :=
  if n = 0#2 then w
  else if n = 1#2 then (cur &&& 0xFF000000#32) ||| (w >>> 8)
  else if n = 2#2 then (cur &&& 0xFFFF0000#32) ||| (w >>> 16)
  else (cur &&& 0xFFFFFF00#32) ||| (w >>> 24)

/-- The merge of `swl`: `m` the aligned word, `r` the register (R194). -/
def swlMerge (n : BitVec 2) (m r : Word) : Word :=
  if n = 0#2 then (m &&& 0xFFFFFF00#32) ||| (r >>> 24)
  else if n = 1#2 then (m &&& 0xFFFF0000#32) ||| (r >>> 16)
  else if n = 2#2 then (m &&& 0xFF000000#32) ||| (r >>> 8)
  else r

/-- The merge of `swr` (R195). -/
def swrMerge (n : BitVec 2) (m r : Word) : Word :=
  if n = 0#2 then r
  else if n = 1#2 then (m &&& 0x000000FF#32) ||| (r <<< 8)
  else if n = 2#2 then (m &&& 0x0000FFFF#32) ||| (r <<< 16)
  else (m &&& 0x00FFFFFF#32) ||| (r <<< 24)

/-- A shift amount held in a register: `x[rs][4:0]` (`45_special_alu_option.md` R234). -/
def shiftAmount (v : Word) : Nat := (v.setWidth 5).toNat

end Sys2Proof.Machine
end

