-- ==== Sys2Proof/Machine/Flags.lean ====
section
/-! DEFINITION. The conditions instructions test. The hardware has no status flags (`10_state.md`
R29): a comparison writes 0 or 1 to a register, a branch tests registers directly, and signed overflow
halts. -/

namespace Sys2Proof.Machine

/-- Signed overflow of `a + b`: `a[31] = b[31] and s[31] != a[31]` (`44_alu_immediate.md` R211). -/
def addOverflows (a b : Word) : Bool := a.msb == b.msb && (a + b).msb != a.msb

/-- Signed overflow of `a - b`: `a[31] != b[31] and d[31] != a[31]` (`45_special_alu_option.md` R239). -/
def subOverflows (a b : Word) : Bool := a.msb != b.msb && (a - b).msb != a.msb

/-- 1 for true, 0 for false (`44_alu_immediate.md` R213, R214). -/
def boolWord (c : Bool) : Word := if c then 1#32 else 0#32

/-- `a <s b` (`00_scope.md` R10). -/
def lessSigned (a b : Word) : Bool := decide (a.toInt < b.toInt)

/-- `a <u b` (`00_scope.md` R10). -/
def lessUnsigned (a b : Word) : Bool := decide (a.toNat < b.toNat)

end Sys2Proof.Machine
end

