-- ==== Sys2Proof/Machine/Ops.lean ====
section
/-! DEFINITION. The shared operations on the state: writing a register, landing a load, reading and
writing memory, entering the halted state and leaving it by reset, and the ways an instruction cycle
ends (`40_execution_cycle.md` R123, R125, R132). -/

namespace Sys2Proof.Machine

/-- `x[i] <- v`: a write to register 0 is discarded (`10_state.md` R22). -/
def State.setX (s : State) (i : Reg) (v : Word) : State :=
  if i = 0 then s else { s with regs := s.regs.set i.val v i.isLt }

/-- `pend <- p` (`00_scope.md` R12). -/
def State.setPend (s : State) (p : Option PendingLoad) : State := { s with pend := p }

/-- `halted <- h` (`00_scope.md` R12, R14). -/
def State.setHalted (s : State) (h : RunState) : State := { s with halted := h }

/-- `pc <- t` (`00_scope.md` R12). -/
def State.setPc (s : State) (t : Word) : State := { s with pc := t }

/-- Record the outcome `Transfer(t)` of the executing instruction (`00_scope.md` R14). -/
def State.setTransfer (s : State) (t : Option Word) : State := { s with transfer := t }

/-- Take the in-flight load, clear it and land it: `Land(ld, W)` with `W` the registers the
instruction wrote (`40_execution_cycle.md` R123, R125). -/
def State.land (s : State) (written : List Reg) : State :=
  match s.pend with
  | none => s
  | some p =>
    let t := s.setPend none
    if p.reg ∈ written then t else t.setX p.reg p.val

/-! ### Memory (`20_memory.md` R61, R62) -/

/-- The value of `MemRead(a, n)`. -/
def State.memRead (s : State) (a : Word) (n : Nat) : Word := readLE s.mem a n

/-- The diagnostics of `MemRead(a, n)`; a read changes nothing else (R57, R59). -/
def State.noteRead (s : State) (a : Word) (n : Nat) : State :=
  { s with diags := s.diags ++ readDiags a n }

/-- `MemWrite(a, n, v)` with its diagnostics. -/
def State.memWrite (s : State) (a : Word) (n : Nat) (v : Word) : State :=
  { s with mem := writeLE s.mem a n v, diags := s.diags ++ writeDiags a n v }

/-! ### The halted state (`60_exceptions.md` R262, R266) -/

/-- `raise Halt(cause, w)`, the only trap of this hardware: the in-flight load lands, the halting
instruction writes nothing, `pc` stays, and the cause and the word are recorded
(`40_execution_cycle.md` R132, `60_exceptions.md` R262). -/
def raiseHalt (cause : HaltCause) (s : State) : Result :=
  .next ((s.land []).setHalted (.halted cause s.iw))

/-- An explicit CPU reset, the only way out of the halted state (R266): the CPU state is as after
construction, memory is kept (`70_reset_and_hazards.md` R290, R291). -/
def State.cpuReset (s : State) : State :=
  { State.resetWith s.params with mem := s.mem, diags := s.diags }

/-! ### How an instruction cycle ends -/

/-- The instruction writes `v` to `rd` and the in-flight load lands unless it is for `rd`
(`44_alu_immediate.md` R210). -/
def retireWrite (rd : Reg) (v : Word) (s : State) : Result :=
  .next ((s.setX rd v).land [rd])

/-- The instruction is a load that read `n` bytes at `a`: it schedules `pend <- (rt, v)`; the load
that was in flight lands (`42_loads.md` R170). -/
def retireLoad (rt : Reg) (v : Word) (a : Word) (n : Nat) (s : State) : Result :=
  .next (((s.noteRead a n).land []).setPend (some ⟨rt, v⟩))

/-- The instruction stores the low `n` bytes of `v` at `a` (`43_stores.md` R190). -/
def retireStore (a : Word) (n : Nat) (v : Word) (s : State) : Result :=
  .next ((s.memWrite a n v).land [])

/-- The instruction ends in `Transfer(t)` when `taken`, and wrote the registers `written`
(`41_jumps_branches.md` R141). -/
def retireTransfer (taken : Bool) (t : Word) (written : List Reg) (s : State) : Result :=
  let u := s.land written
  .next (if taken then u.setTransfer (some t) else u)

end Sys2Proof.Machine
end

