-- ==== Sys2Proof/Machine/AluImm.lean ====
section
/-! DEFINITION. The ALU-immediate instructions (`44_alu_immediate.md`). -/

namespace Sys2Proof.Machine

/-- `addi rt, rs, imm`: halts on signed overflow with `rt` unwritten (R211). -/
def execAddi (rs rt : Reg) (imm16 : Half) (s : State) : Result :=
  if addOverflows (s.x rs) (sext16 imm16) then raiseHalt .integerOverflow s
  else retireWrite rt (s.x rs + sext16 imm16) s

/-- `addiu rt, rs, imm` (R212). -/
def execAddiu (rs rt : Reg) (imm16 : Half) (s : State) : Result :=
  retireWrite rt (s.x rs + sext16 imm16) s

/-- `slti rt, rs, imm` (R213). -/
def execSlti (rs rt : Reg) (imm16 : Half) (s : State) : Result :=
  retireWrite rt (boolWord (lessSigned (s.x rs) (sext16 imm16))) s

/-- `sltiu rt, rs, imm` (R214). -/
def execSltiu (rs rt : Reg) (imm16 : Half) (s : State) : Result :=
  retireWrite rt (boolWord (lessUnsigned (s.x rs) (sext16 imm16))) s

/-- `andi rt, rs, imm` (R215). -/
def execAndi (rs rt : Reg) (imm16 : Half) (s : State) : Result :=
  retireWrite rt (s.x rs &&& zext16 imm16) s

/-- `ori rt, rs, imm` (R216). -/
def execOri (rs rt : Reg) (imm16 : Half) (s : State) : Result :=
  retireWrite rt (s.x rs ||| zext16 imm16) s

/-- `xori rt, rs, imm` (R217). -/
def execXori (rs rt : Reg) (imm16 : Half) (s : State) : Result :=
  retireWrite rt (s.x rs ^^^ zext16 imm16) s

/-- `lui rt, imm` (R218). -/
def execLui (rt : Reg) (imm16 : Half) (s : State) : Result :=
  retireWrite rt (zext16 imm16 <<< 16) s

end Sys2Proof.Machine
end

