-- ==== Sys2Proof/Machine/Branches.lean ====
section
/-! DEFINITION. The conditional branches (`41_jumps_branches.md` R146 to R153). The and-link forms
write register 31 first and then read `rs`, so with `rs` = 31 they test the new link value. -/

namespace Sys2Proof.Machine

/-- `beq rs, rt, offset` (R146). -/
def execBeq (rs rt : Reg) (imm16 : Half) (s : State) : Result :=
  retireTransfer (s.x rs == s.x rt) (s.btarget imm16) [] s

/-- `bne rs, rt, offset` (R147). -/
def execBne (rs rt : Reg) (imm16 : Half) (s : State) : Result :=
  retireTransfer (s.x rs != s.x rt) (s.btarget imm16) [] s

/-- `blez rs, offset` (R148). -/
def execBlez (rs : Reg) (imm16 : Half) (s : State) : Result :=
  retireTransfer (decide ((s.x rs).toInt ≤ 0)) (s.btarget imm16) [] s

/-- `bgtz rs, offset` (R149). -/
def execBgtz (rs : Reg) (imm16 : Half) (s : State) : Result :=
  retireTransfer (decide (0 < (s.x rs).toInt)) (s.btarget imm16) [] s

/-- `bltz rs, offset` (R150). -/
def execBltz (rs : Reg) (imm16 : Half) (s : State) : Result :=
  retireTransfer (decide ((s.x rs).toInt < 0)) (s.btarget imm16) [] s

/-- `bgez rs, offset` (R151). -/
def execBgez (rs : Reg) (imm16 : Half) (s : State) : Result :=
  retireTransfer (decide (0 ≤ (s.x rs).toInt)) (s.btarget imm16) [] s

/-- `bltzal rs, offset` (R152). -/
def execBltzal (rs : Reg) (imm16 : Half) (s : State) : Result :=
  let u := s.setX 31 s.link
  retireTransfer (decide ((u.x rs).toInt < 0)) (u.btarget imm16) [31] u

/-- `bgezal rs, offset` (R153). -/
def execBgezal (rs : Reg) (imm16 : Half) (s : State) : Result :=
  let u := s.setX 31 s.link
  retireTransfer (decide (0 ≤ (u.x rs).toInt)) (u.btarget imm16) [31] u

end Sys2Proof.Machine
end

