-- ==== Sys2Proof/Machine/Jumps.lean ====
section
/-! DEFINITION. The jumps (`41_jumps_branches.md` R142 to R145). A meaning ends in a transfer
request; the step executes the delay slot and then moves `pc` (`40_execution_cycle.md` R126). -/

namespace Sys2Proof.Machine

/-- `j target` (R142). -/
def execJ (target26 : BitVec 26) (s : State) : Result :=
  retireTransfer true (s.jtarget target26) [] s

/-- `jal target`: links through register 31 (R143). -/
def execJal (target26 : BitVec 26) (s : State) : Result :=
  retireTransfer true (s.jtarget target26) [31] (s.setX 31 s.link)

/-- `jr rs` (R144). -/
def execJr (rs : Reg) (s : State) : Result :=
  retireTransfer true (s.x rs) [] s

/-- `jalr rd, rs`: the target is read before the link is written (R145). -/
def execJalr (rs rd : Reg) (s : State) : Result :=
  retireTransfer true (s.x rs) [rd] (s.setX rd s.link)

end Sys2Proof.Machine
end

