-- ==== Sys2Proof/Machine/Loads.lean ====
section
/-! DEFINITION. The loads (`42_loads.md`). Each reads memory at once and schedules its result. -/

namespace Sys2Proof.Machine

/-- `lb rt, offset(rs)` (R171). -/
def execLb (rs rt : Reg) (imm16 : Half) (s : State) : Result :=
  let a := s.ea rs imm16
  retireLoad rt (sext8 ((s.memRead a 1).setWidth 8)) a 1 s

/-- `lbu rt, offset(rs)` (R172). -/
def execLbu (rs rt : Reg) (imm16 : Half) (s : State) : Result :=
  let a := s.ea rs imm16
  retireLoad rt (zext8 ((s.memRead a 1).setWidth 8)) a 1 s

/-- `lh rt, offset(rs)` (R173). -/
def execLh (rs rt : Reg) (imm16 : Half) (s : State) : Result :=
  let a := s.ea rs imm16
  retireLoad rt (sext16 ((s.memRead a 2).setWidth 16)) a 2 s

/-- `lhu rt, offset(rs)` (R174). -/
def execLhu (rs rt : Reg) (imm16 : Half) (s : State) : Result :=
  let a := s.ea rs imm16
  retireLoad rt (zext16 ((s.memRead a 2).setWidth 16)) a 2 s

/-- `lw rt, offset(rs)` (R175). -/
def execLw (rs rt : Reg) (imm16 : Half) (s : State) : Result :=
  let a := s.ea rs imm16
  retireLoad rt (s.memRead a 4) a 4 s

/-- `lwl rt, offset(rs)`: merges the aligned word into the current contents of `rt`, the in-flight
value included (R176). -/
def execLwl (rs rt : Reg) (imm16 : Half) (s : State) : Result :=
  let a := s.ea rs imm16
  let b := alignWord a
  retireLoad rt (lwlMerge (lane a) (s.mergeOperand rt) (s.memRead b 4)) b 4 s

/-- `lwr rt, offset(rs)` (R177). -/
def execLwr (rs rt : Reg) (imm16 : Half) (s : State) : Result :=
  let a := s.ea rs imm16
  let b := alignWord a
  retireLoad rt (lwrMerge (lane a) (s.mergeOperand rt) (s.memRead b 4)) b 4 s

end Sys2Proof.Machine
end

