-- ==== Sys2Proof/Machine/SpecialAlu.lean ====
section
/-! DEFINITION. The register-register ALU instructions of the `SPECIAL_ALU` option
(`45_special_alu_option.md`). The decoder yields them only when the option is on (R230). -/

namespace Sys2Proof.Machine

/-- `sll rd, rt, shamt` (R231). -/
def execSll (rt rd : Reg) (shamt : BitVec 5) (s : State) : Result :=
  retireWrite rd (s.x rt <<< shamt.toNat) s

/-- `srl rd, rt, shamt` (R232). -/
def execSrl (rt rd : Reg) (shamt : BitVec 5) (s : State) : Result :=
  retireWrite rd (s.x rt >>> shamt.toNat) s

/-- `sra rd, rt, shamt` (R233). -/
def execSra (rt rd : Reg) (shamt : BitVec 5) (s : State) : Result :=
  retireWrite rd ((s.x rt).sshiftRight shamt.toNat) s

/-- `sllv rd, rt, rs` (R234). -/
def execSllv (rs rt rd : Reg) (s : State) : Result :=
  retireWrite rd (s.x rt <<< shiftAmount (s.x rs)) s

/-- `srlv rd, rt, rs` (R235). -/
def execSrlv (rs rt rd : Reg) (s : State) : Result :=
  retireWrite rd (s.x rt >>> shiftAmount (s.x rs)) s

/-- `srav rd, rt, rs` (R236). -/
def execSrav (rs rt rd : Reg) (s : State) : Result :=
  retireWrite rd ((s.x rt).sshiftRight (shiftAmount (s.x rs))) s

/-- `add rd, rs, rt`: halts on signed overflow with `rd` unwritten (R237). -/
def execAdd (rs rt rd : Reg) (s : State) : Result :=
  if addOverflows (s.x rs) (s.x rt) then raiseHalt .integerOverflow s
  else retireWrite rd (s.x rs + s.x rt) s

/-- `addu rd, rs, rt` (R238). -/
def execAddu (rs rt rd : Reg) (s : State) : Result :=
  retireWrite rd (s.x rs + s.x rt) s

/-- `sub rd, rs, rt`: halts on signed overflow with `rd` unwritten (R239). -/
def execSub (rs rt rd : Reg) (s : State) : Result :=
  if subOverflows (s.x rs) (s.x rt) then raiseHalt .integerOverflow s
  else retireWrite rd (s.x rs - s.x rt) s

/-- `subu rd, rs, rt` (R240). -/
def execSubu (rs rt rd : Reg) (s : State) : Result :=
  retireWrite rd (s.x rs - s.x rt) s

/-- `and rd, rs, rt` (R241). -/
def execAnd (rs rt rd : Reg) (s : State) : Result :=
  retireWrite rd (s.x rs &&& s.x rt) s

/-- `or rd, rs, rt` (R242). -/
def execOr (rs rt rd : Reg) (s : State) : Result :=
  retireWrite rd (s.x rs ||| s.x rt) s

/-- `xor rd, rs, rt` (R243). -/
def execXor (rs rt rd : Reg) (s : State) : Result :=
  retireWrite rd (s.x rs ^^^ s.x rt) s

/-- `nor rd, rs, rt` (R244). -/
def execNor (rs rt rd : Reg) (s : State) : Result :=
  retireWrite rd (~~~(s.x rs ||| s.x rt)) s

/-- `slt rd, rs, rt` (R245). -/
def execSlt (rs rt rd : Reg) (s : State) : Result :=
  retireWrite rd (boolWord (lessSigned (s.x rs) (s.x rt))) s

/-- `sltu rd, rs, rt` (R246). -/
def execSltu (rs rt rd : Reg) (s : State) : Result :=
  retireWrite rd (boolWord (lessUnsigned (s.x rs) (s.x rt))) s

end Sys2Proof.Machine
end

