-- ==== Sys2Proof/Machine/Stores.lean ====
section
/-! DEFINITION. The stores (`43_stores.md`). Each writes memory in its own cycle. -/

namespace Sys2Proof.Machine

/-- `sb rt, offset(rs)` (R191). -/
def execSb (rs rt : Reg) (imm16 : Half) (s : State) : Result :=
  retireStore (s.ea rs imm16) 1 (s.x rt) s

/-- `sh rt, offset(rs)` (R192). -/
def execSh (rs rt : Reg) (imm16 : Half) (s : State) : Result :=
  retireStore (s.ea rs imm16) 2 (s.x rt) s

/-- `sw rt, offset(rs)` (R193). -/
def execSw (rs rt : Reg) (imm16 : Half) (s : State) : Result :=
  retireStore (s.ea rs imm16) 4 (s.x rt) s

/-- `swl rt, offset(rs)`: reads the aligned word, merges, writes it back (R194). -/
def execSwl (rs rt : Reg) (imm16 : Half) (s : State) : Result :=
  let a := s.ea rs imm16
  let b := alignWord a
  retireStore b 4 (swlMerge (lane a) (s.memRead b 4) (s.x rt)) (s.noteRead b 4)

/-- `swr rt, offset(rs)` (R195). -/
def execSwr (rs rt : Reg) (imm16 : Half) (s : State) : Result :=
  let a := s.ea rs imm16
  let b := alignWord a
  retireStore b 4 (swrMerge (lane a) (s.memRead b 4) (s.x rt)) (s.noteRead b 4)

end Sys2Proof.Machine
end

