-- ==== Sys2Proof/Machine/Dispatch.lean ====
section
/-! DEFINITION. `Execute(d)` with its landing (`40_execution_cycle.md` R123, R124): one meaning for
each instruction. -/

namespace Sys2Proof.Machine

def exec (i : Instr) (s : State) : Host.Outcome State Fault Refusal :=
  match i with
  -- jumps and branches
  | .j target26 => Sys2Proof.Machine.execJ target26 s
  | .jal target26 => Sys2Proof.Machine.execJal target26 s
  | .beq rs rt imm16 => Sys2Proof.Machine.execBeq rs rt imm16 s
  | .bne rs rt imm16 => Sys2Proof.Machine.execBne rs rt imm16 s
  | .blez rs imm16 => Sys2Proof.Machine.execBlez rs imm16 s
  | .bgtz rs imm16 => Sys2Proof.Machine.execBgtz rs imm16 s
  -- ALU-immediate
  | .addi rs rt imm16 => Sys2Proof.Machine.execAddi rs rt imm16 s
  | .addiu rs rt imm16 => Sys2Proof.Machine.execAddiu rs rt imm16 s
  | .slti rs rt imm16 => Sys2Proof.Machine.execSlti rs rt imm16 s
  | .sltiu rs rt imm16 => Sys2Proof.Machine.execSltiu rs rt imm16 s
  | .andi rs rt imm16 => Sys2Proof.Machine.execAndi rs rt imm16 s
  | .ori rs rt imm16 => Sys2Proof.Machine.execOri rs rt imm16 s
  | .xori rs rt imm16 => Sys2Proof.Machine.execXori rs rt imm16 s
  | .lui rt imm16 => Sys2Proof.Machine.execLui rt imm16 s
  -- loads
  | .lb rs rt imm16 => Sys2Proof.Machine.execLb rs rt imm16 s
  | .lh rs rt imm16 => Sys2Proof.Machine.execLh rs rt imm16 s
  | .lwl rs rt imm16 => Sys2Proof.Machine.execLwl rs rt imm16 s
  | .lw rs rt imm16 => Sys2Proof.Machine.execLw rs rt imm16 s
  | .lbu rs rt imm16 => Sys2Proof.Machine.execLbu rs rt imm16 s
  | .lhu rs rt imm16 => Sys2Proof.Machine.execLhu rs rt imm16 s
  | .lwr rs rt imm16 => Sys2Proof.Machine.execLwr rs rt imm16 s
  -- stores
  | .sb rs rt imm16 => Sys2Proof.Machine.execSb rs rt imm16 s
  | .sh rs rt imm16 => Sys2Proof.Machine.execSh rs rt imm16 s
  | .swl rs rt imm16 => Sys2Proof.Machine.execSwl rs rt imm16 s
  | .sw rs rt imm16 => Sys2Proof.Machine.execSw rs rt imm16 s
  | .swr rs rt imm16 => Sys2Proof.Machine.execSwr rs rt imm16 s
  -- register jumps and bcond branches
  | .jr rs => Sys2Proof.Machine.execJr rs s
  | .jalr rs rd => Sys2Proof.Machine.execJalr rs rd s
  | .bltz rs imm16 => Sys2Proof.Machine.execBltz rs imm16 s
  | .bgez rs imm16 => Sys2Proof.Machine.execBgez rs imm16 s
  | .bltzal rs imm16 => Sys2Proof.Machine.execBltzal rs imm16 s
  | .bgezal rs imm16 => Sys2Proof.Machine.execBgezal rs imm16 s
  -- the SPECIAL_ALU option
  | .sll rt rd shamt => Sys2Proof.Machine.execSll rt rd shamt s
  | .srl rt rd shamt => Sys2Proof.Machine.execSrl rt rd shamt s
  | .sra rt rd shamt => Sys2Proof.Machine.execSra rt rd shamt s
  | .sllv rs rt rd => Sys2Proof.Machine.execSllv rs rt rd s
  | .srlv rs rt rd => Sys2Proof.Machine.execSrlv rs rt rd s
  | .srav rs rt rd => Sys2Proof.Machine.execSrav rs rt rd s
  | .add rs rt rd => Sys2Proof.Machine.execAdd rs rt rd s
  | .addu rs rt rd => Sys2Proof.Machine.execAddu rs rt rd s
  | .sub rs rt rd => Sys2Proof.Machine.execSub rs rt rd s
  | .subu rs rt rd => Sys2Proof.Machine.execSubu rs rt rd s
  | .and rs rt rd => Sys2Proof.Machine.execAnd rs rt rd s
  | .or rs rt rd => Sys2Proof.Machine.execOr rs rt rd s
  | .xor rs rt rd => Sys2Proof.Machine.execXor rs rt rd s
  | .nor rs rt rd => Sys2Proof.Machine.execNor rs rt rd s
  | .slt rs rt rd => Sys2Proof.Machine.execSlt rs rt rd s
  | .sltu rs rt rd => Sys2Proof.Machine.execSltu rs rt rd s

end Sys2Proof.Machine
end

