-- ==== Sys2Proof/Machine/Cycle.lean ====
section
/-! DEFINITION. The machinery of a step (`40_execution_cycle.md`): fetch and priming, the instruction
cycle, and the delay slot of a taken transfer. -/

namespace Sys2Proof.Machine

/-- Fetch and delay-slot priming (R120 to R122, R130): `iw` is the word at `pc`, `pc` advances by 4,
`ds` is the word after. No transfer is asked for yet. -/
def fetch (s : State) : State :=
  let a := s.pc
  let b := a + 4#32
  { s with
    iw := s.memRead a 4, pc := b, ds := s.memRead b 4, transfer := none
    diags := s.diags ++ readDiags a 4 ++ readDiags b 4 }

/-- `Cycle(w, slot)` on the word in `iw`, up to the transfer (R123): an undefined word halts (R100,
R132); a jump or branch in the slot of a taken transfer is UNPREDICTABLE(U1) and refused (R128). -/
def cycle (slot : Bool) (s : State) : Result :=
  match decode s.params.specialAlu s.iw with
  | .error _ => raiseHalt .undefinedInstruction s
  | .ok i => if slot && i.isTransfer then .refused (.transferInDelaySlot s.iw) else exec i s

/-- The state in which the delay slot's cycle runs: the primed word is the word under execution, and
no transfer is asked for (R126). -/
def State.enterSlot (s : State) : State := { s with iw := s.ds, transfer := none }

/-- The rest of a taken transfer's step (R126): the primed word is executed as a full cycle with `pc`
still A + 4, and then `pc <- t`; if the slot halts, `pc` does not receive the target (R132). -/
def delaySlot (t : Word) (s : State) : Result :=
  match cycle true s.enterSlot with
  | .next u => .next (if u.halted = .running then u.setPc t else u)
  | .fault f => .fault f
  | .refused r => .refused r

/-- The cycle of the fetched word, with its delay slot when a transfer is taken (R123, R126, R127). -/
def runFetched (s : State) : Result :=
  match cycle false s with
  | .next u =>
    match u.transfer with
    | none => .next u
    | some t => delaySlot t u
  | .fault f => .fault f
  | .refused r => .refused r

end Sys2Proof.Machine
end

