-- ==== Sys2Proof/Machine/Place.lean ====
section
/-! DEFINITION. Placing an instruction where the next step fetches it: what the host's
`State.withFetchWord` calls (log entry 6). -/

namespace Sys2Proof.Machine

/-- Store the four bytes of a word from an address up, in any region, the ROM included. -/
def loadWord (m : Memory) (a v : Word) : Memory :=
  loadU8 (loadU8 (loadU8 (loadU8 m a (byteOf v 0)) (a + 1#32) (byteOf v 1))
    (a + 2#32) (byteOf v 2)) (a + 3#32) (byteOf v 3)

/-- The eight bytes that a step fetching at `a` reads, fetch and priming, are all in regions (R130). -/
def fetchable (a : Word) : Bool :=
  mapped a && mapped (a + 1#32) && mapped (a + 2#32) && mapped (a + 3#32) &&
  mapped (a + 4#32) && mapped (a + 5#32) && mapped (a + 6#32) && mapped (a + 7#32)

/-- The spec's no-op `addiu $zero, $zero, 0` (`30_encoding.md` R106). -/
def nopWord : Word := 0x24000000#32

/-- The word is populated only with the option on (R107). -/
def needsOption (v : Word) : Bool :=
  match decode true v with
  | .ok i => i.isOption
  | .error _ => false

/-- `s` with the word `v` where the next step fetches it and the no-op where the step primes its
delay slot; `pc` is the reset vector if no instruction can be stored at `pc`; the machine is running;
the option is on if `v` needs it. -/
def placeWord (s : State) (v : Word) : State :=
  let a := if fetchable s.pc then s.pc else Config.resetVector
  { s with
    pc := a, mem := loadWord (loadWord s.mem (a + 4#32) nopWord) a v, halted := .running
    params := { s.params with specialAlu := s.params.specialAlu || needsOption v } }

end Sys2Proof.Machine
end

