-- ==== Sys2Proof/Machine/Step.lean ====
section
/-! DEFINITION. One step (`40_execution_cycle.md` R120). -/

namespace Sys2Proof.Machine

/-- The step operation: fetch, priming and one instruction cycle, with the delay slot when a transfer
is taken. A halted machine does nothing (R120, `60_exceptions.md` R266). -/
def step (s : State) : Host.Outcome State Fault Refusal :=
  match s.halted with
  | .halted _ _ => .next s
  | .running => runFetched (fetch s)

/-- `s` with the instruction word `w` of an opcode-table row placed so that the next step fetches and
runs it (log entry 6). -/
def State.withFetchWord (s : State) (nbits w : Nat) : State := placeWord s (tableWord nbits w)

end Sys2Proof.Machine
end

