-- ==== Sys2Proof/Machine/Inspect.lean ====
section
/-! DEFINITION. What the host can do between steps beside stepping (`70_reset_and_hazards.md` R295):
the inspection port (`60_exceptions.md` R280, R281), peek and poke (`20_memory.md` R75), the BIOS load
(R56), and the cycle cost a step returns (`40_execution_cycle.md` R129). Explicit reset is
`State.cpuReset`. -/

namespace Sys2Proof.Machine

/-- The inspection port's read of register `n`: the register file's value, not an in-flight load's
(R280); a free value for an index above 31 (R281, log entry 9). -/
def inspectReadX (s : State) (n : Nat) : Word :=
  if h : n < 32 then s.x ⟨n, h⟩ else Config.outOfRangeRead n

/-- The inspection port's write of register `n`: discarded for register 0 (R280) and for an index
above 31 (R281). -/
def inspectWriteX (s : State) (n : Nat) (v : Word) : State :=
  if h : n < 32 then s.setX ⟨n, h⟩ v else s

/-- The inspection port's read of `pc` (R280). -/
def inspectReadPc (s : State) : Word := s.pc

/-- The inspection port's write of `pc` (R280). -/
def inspectWritePc (s : State) (v : Word) : State := { s with pc := v }

/-- The host reads a region byte, with the routing of the bus (`20_memory.md` R75). At an unmapped
address, of which R75 and R295 say nothing, it answers what `read_u8` does, and nothing is emitted
(DESIGN CHOICE, log entry 18). -/
def peek (s : State) (a : Word) : Byte := readU8 s.mem a

/-- The host writes a byte of a read/write region, with the routing of the bus (R75). At a byte of the
ROM or of unmapped space, of which R75 and R295 say nothing, the write is discarded with the diagnostic
of `write_u8` (DESIGN CHOICE, log entry 18). -/
def poke (s : State) (a : Word) (b : Byte) : State :=
  { s with mem := writeU8 s.mem a b, diags := s.diags ++ writeDiag a b }

/-- Store bytes from an address up, in any region. -/
def loadBytes : Memory → Word → List Byte → Memory
  | m, _, [] => m
  | m, a, b :: bs => loadBytes (loadU8 m a b) (a + 1#32) bs

/-- The BIOS load (`20_memory.md` R56): a flat image of exactly 512 KiB fills the ROM; an image of any
other size is rejected with a diagnostic and nothing is loaded (log entry 14). -/
def loadBios (s : State) (image : List Byte) : State :=
  if image.length = regionSize .biosRom then
    { s with mem := loadBytes s.mem (BitVec.ofNat 32 (regionBase .biosRom)) image }
  else { s with diags := s.diags ++ [.biosRejected image.length] }

/-- The cycle cost the step from `s` returns: `CYCLES` of the fetched instruction alone; a step that
halts, and a step of a halted machine, returns none (R129). -/
def stepCost (s : State) : Option Nat :=
  match s.halted, decode s.params.specialAlu (fetch s).iw, step s with
  | .running, .ok i, .next t => if t.halted = .running then some (Config.cycles i.mnemonic) else none
  | _, _, _ => none

end Sys2Proof.Machine
end

