-- ==== Sys2Proof/Safety.lean ====
section
/-! DEFINITION. What counts as a safe run, and the terms in which the obligations say what an
instruction does and what it leaves unchanged. -/

namespace Sys2Proof.Machine

/-! ### Safe runs (`60_exceptions.md` R263, `70_reset_and_hazards.md` R296) -/

/-- A step that answers a next state in which the machine is still running: a run that reaches the
halted state has gone wrong (R263), and a refused step has no next state. -/
def SafeStep (s t : State) : Prop := step s = .next t ∧ t.halted = .running

/-- `k` safe steps. -/
def SafeRun : Nat → State → State → Prop
  | 0, s, t => s = t ∧ s.halted = .running
  | k + 1, s, t => ∃ u, SafeStep s u ∧ SafeRun k u t

/-- What every step keeps, from any state that has it: memory is in its canonical form, the slot of
register 0 holds 0 (`10_state.md` R22), and no transfer is left over (log entry 11). -/
def State.Inv (s : State) : Prop :=
  Memory.wf s.mem = true ∧ s.regs.get 0 = 0#32 ∧ s.transfer = none

/-! ### Which registers an instruction writes, and which see a load in flight -/

/-- The registers an instruction writes itself, the set `W` of `40_execution_cycle.md` R123. A load
writes none: its result is pending (R125). -/
def writtenRegs : Instr → List Reg
  | .j _ | .jr _ | .beq _ _ _ | .bne _ _ _ | .blez _ _ | .bgtz _ _ | .bltz _ _ | .bgez _ _ => []
  | .jal _ | .bltzal _ _ | .bgezal _ _ => [31]
  | .jalr _ rd => [rd]
  | .addi _ rt _ | .addiu _ rt _ | .slti _ rt _ | .sltiu _ rt _ => [rt]
  | .andi _ rt _ | .ori _ rt _ | .xori _ rt _ | .lui rt _ => [rt]
  | .lb _ _ _ | .lh _ _ _ | .lwl _ _ _ | .lw _ _ _ | .lbu _ _ _ | .lhu _ _ _ | .lwr _ _ _ => []
  | .sb _ _ _ | .sh _ _ _ | .swl _ _ _ | .sw _ _ _ | .swr _ _ _ => []
  | .sll _ rd _ | .srl _ rd _ | .sra _ rd _ | .sllv _ _ rd | .srlv _ _ rd | .srav _ _ rd => [rd]
  | .add _ _ rd | .addu _ _ rd | .sub _ _ rd | .subu _ _ rd => [rd]
  | .and _ _ rd | .or _ _ rd | .xor _ _ rd | .nor _ _ rd | .slt _ _ rd | .sltu _ _ rd => [rd]

/-- The only instructions that look at the in-flight load (`40_execution_cycle.md` R123). -/
def mergesInFlight : Instr → Bool
  | .lwl _ _ _ | .lwr _ _ _ => true
  | .lb _ _ _ | .lh _ _ _ | .lw _ _ _ | .lbu _ _ _ | .lhu _ _ _ => false
  | .sb _ _ _ | .sh _ _ _ | .swl _ _ _ | .sw _ _ _ | .swr _ _ _ => false
  | .j _ | .jal _ | .jr _ | .jalr _ _ | .beq _ _ _ | .bne _ _ _ => false
  | .blez _ _ | .bgtz _ _ | .bltz _ _ | .bgez _ _ | .bltzal _ _ | .bgezal _ _ => false
  | .addi _ _ _ | .addiu _ _ _ | .slti _ _ _ | .sltiu _ _ _ => false
  | .andi _ _ _ | .ori _ _ _ | .xori _ _ _ | .lui _ _ => false
  | .sll _ _ _ | .srl _ _ _ | .sra _ _ _ | .sllv _ _ _ | .srlv _ _ _ | .srav _ _ _ => false
  | .add _ _ _ | .addu _ _ _ | .sub _ _ _ | .subu _ _ _ => false
  | .and _ _ _ | .or _ _ _ | .xor _ _ _ | .nor _ _ _ | .slt _ _ _ | .sltu _ _ _ => false

/-- What a comparison of `rs` sees in an and-link branch: the link just written when `rs` is 31
(`41_jumps_branches.md` R152, R153). -/
def testedAfterLink (s : State) (rs : Reg) : Word := if rs = 31 then s.pc + 4#32 else s.x rs

/-- `i` is a conditional branch whose condition is false in the state it executes in, `pc` being A + 4
(`40_execution_cycle.md` R127; the conditions are those of `41_jumps_branches.md` R146 to R153). -/
def conditionFalse (s : State) : Instr → Prop
  | .beq rs rt _ => s.x rs ≠ s.x rt
  | .bne rs rt _ => s.x rs = s.x rt
  | .blez rs _ => 0 < (s.x rs).toInt
  | .bgtz rs _ => (s.x rs).toInt ≤ 0
  | .bltz rs _ => 0 ≤ (s.x rs).toInt
  | .bgez rs _ => (s.x rs).toInt < 0
  | .bltzal rs _ => 0 ≤ (testedAfterLink s rs).toInt
  | .bgezal rs _ => (testedAfterLink s rs).toInt < 0
  | .j _ | .jal _ | .jr _ | .jalr _ _ => False
  | .addi _ _ _ | .addiu _ _ _ | .slti _ _ _ | .sltiu _ _ _ => False
  | .andi _ _ _ | .ori _ _ _ | .xori _ _ _ | .lui _ _ => False
  | .lb _ _ _ | .lh _ _ _ | .lwl _ _ _ | .lw _ _ _ | .lbu _ _ _ | .lhu _ _ _ | .lwr _ _ _ => False
  | .sb _ _ _ | .sh _ _ _ | .swl _ _ _ | .sw _ _ _ | .swr _ _ _ => False
  | .sll _ _ _ | .srl _ _ _ | .sra _ _ _ | .sllv _ _ _ | .srlv _ _ _ | .srav _ _ _ => False
  | .add _ _ _ | .addu _ _ _ | .sub _ _ _ | .subu _ _ _ => False
  | .and _ _ _ | .or _ _ _ | .xor _ _ _ | .nor _ _ _ | .slt _ _ _ | .sltu _ _ _ => False

/-! ### Effects -/

/-- What register `q` holds after an instruction that does not write it: the in-flight load's value
if the load is for `q`, else the old content (`40_execution_cycle.md` R125). -/
def landedX (s : State) (q : Reg) : Word :=
  match s.pend with
  | some p => if p.reg = q ∧ q ≠ 0 then p.val else s.x q
  | none => s.x q

/-- `hi`, `lo`, `pc`, `ds`, the word under execution and the parameters are unchanged. -/
def SameFixed (s t : State) : Prop :=
  t.hi = s.hi ∧ t.lo = s.lo ∧ t.pc = s.pc ∧ t.ds = s.ds ∧ t.iw = s.iw ∧ t.params = s.params

/-- Every byte of memory reads as before. -/
def SameMemory (s t : State) : Prop := ∀ a, readU8 t.mem a = readU8 s.mem a

/-- From `s` to `t`, the instruction writes `v` to `rd` and nothing else; a write to register 0 is
discarded; the in-flight load lands in every other register. -/
def WritesOnly (s t : State) (rd : Reg) (v : Word) : Prop :=
  (∀ q, t.x q = if q = 0 then 0#32 else if q = rd then v else landedX s q) ∧
  t.pend = none ∧ SameFixed s t ∧ t.halted = s.halted ∧ t.transfer = s.transfer ∧
  SameMemory s t ∧ t.diags = s.diags

/-- From `s` to `t`, the instruction schedules the load of `v` into `rt`, having read `n` bytes at
`a`, and writes no register itself. -/
def SchedulesLoad (s t : State) (rt : Reg) (v a : Word) (n : Nat) : Prop :=
  (∀ q, t.x q = landedX s q) ∧ t.pend = some ⟨rt, v⟩ ∧ SameFixed s t ∧
  t.halted = s.halted ∧ t.transfer = s.transfer ∧ SameMemory s t ∧
  t.diags = s.diags ++ readDiags a n

/-- From `s` to `t`, the instruction stores the low `n` bytes of `v` at `a`, where they can be
written, and changes no other byte; `d` are the diagnostics it emits. -/
def StoresBytes (s t : State) (a : Word) (n : Nat) (v : Word) (d : List Diag) : Prop :=
  (∀ q, t.x q = landedX s q) ∧ t.pend = none ∧ SameFixed s t ∧
  t.halted = s.halted ∧ t.transfer = s.transfer ∧
  (∀ k, k < n → readU8 t.mem (a + BitVec.ofNat 32 k) =
    if writable (a + BitVec.ofNat 32 k) then byteOf v k else readU8 s.mem (a + BitVec.ofNat 32 k)) ∧
  (∀ b, (∀ k, k < n → b ≠ a + BitVec.ofNat 32 k) → readU8 t.mem b = readU8 s.mem b) ∧
  t.diags = s.diags ++ d

/-- From `s` to `t`, the instruction asks for a transfer to `target` when `taken`, having written the
link value to the registers `links` (none, or one). -/
def RequestsTransfer (s t : State) (links : List Reg) (taken : Prop) (target : Word) : Prop :=
  (∀ q, t.x q = if q = 0 then 0#32 else if q ∈ links then s.pc + 4#32 else landedX s q) ∧
  t.pend = none ∧ SameFixed s t ∧ t.halted = s.halted ∧
  (taken → t.transfer = some target) ∧ (¬ taken → t.transfer = s.transfer) ∧
  SameMemory s t ∧ t.diags = s.diags

/-- From `s` to `t`, the machine halts with `cause` on the word under execution: the in-flight load
lands and nothing else changes (`40_execution_cycle.md` R132, `60_exceptions.md` R262). -/
def Halts (s t : State) (cause : HaltCause) : Prop :=
  (∀ q, t.x q = landedX s q) ∧ t.pend = none ∧ SameFixed s t ∧
  t.halted = .halted cause s.iw ∧ t.transfer = s.transfer ∧ SameMemory s t ∧ t.diags = s.diags

/-- The two states agree on everything but the diagnostic stream. -/
def SameButDiags (s t : State) : Prop := { s with diags := [] } = { t with diags := [] }

/-- Two outcomes are alike: both next states, related by `R`, or both the same refusal. -/
def OutcomesAlike (R : State → State → Prop) : Result → Result → Prop
  | .next t, .next u => R t u
  | .refused r, .refused r' => r = r'
  | .fault f, .fault f' => f = f'
  | .next _, .refused _ | .next _, .fault _ => False
  | .refused _, .next _ | .refused _, .fault _ => False
  | .fault _, .next _ | .fault _, .refused _ => False

/-- The word the next step fetches, as the decoder reads it (`40_execution_cycle.md` R121, R123). -/
def fetchedInstr (s : State) : Except DecodeError Instr :=
  decode s.params.specialAlu (readLE s.mem s.pc 4)

/-- The word the next step primes, as the decoder reads it (R122, R126). -/
def primedInstr (s : State) : Except DecodeError Instr :=
  decode s.params.specialAlu (readLE s.mem (s.pc + 4#32) 4)

/-- No row of the opcode table populated on this machine selects the word (`30_encoding.md` R100). -/
def UndefinedWord (specialAlu : Bool) (w : Word) : Prop :=
  ∀ r ∈ opcodeRows, (r.isOption = true → specialAlu = true) → r.selects w = false

end Sys2Proof.Machine
end

