-- ==== Sys2Proof/Certificates/Slice0/Obligations.lean ====
section
/-! DEFINITION. The obligations: what the spec's rules say the machine does, stated of the model. The
terms `WritesOnly`, `SchedulesLoad`, `StoresBytes`, `RequestsTransfer`, `Halts`, `landedX`,
`writtenRegs` are in `Sys2Proof/Safety.lean`; each says the whole frame. -/

open Sys2Proof Sys2Proof.Machine

/-! ### Reset -/

/-- `70_reset_and_hazards.md` R290, R291: an explicit reset sets the CPU state, construction gives
the same CPU state, and memory is kept. The values are the parameters', whatever they are. Rests on
the spec's own decisions D16, D17, D27 (log entry 12). -/
def Obligations.ResetSetsCpuStateAndKeepsMemory : Prop :=
  (∀ s : State,
    s.cpuReset.pc = 0xBFC00000#32 ∧ s.cpuReset.x 0 = 0#32 ∧
    (∀ i : Reg, i ≠ 0 → s.cpuReset.x i = s.params.resetGpr.get i) ∧
    s.cpuReset.hi = s.params.resetHi ∧ s.cpuReset.lo = s.params.resetLo ∧
    s.cpuReset.pend = none ∧ s.cpuReset.ds = 0#32 ∧ s.cpuReset.halted = .running ∧
    (fetch s.cpuReset).iw = readLE s.mem 0xBFC00000#32 4 ∧
    s.cpuReset.mem = s.mem ∧ s.cpuReset.params = s.params) ∧
  (∀ s : State, State.resetWith s.params = { s.cpuReset with mem := [], diags := [] })

/-- `20_memory.md` R55: at construction every byte of every region is zero, and a CPU reset changes
no byte. Rests on the spec's own decision D27 (log entry 12). -/
def Obligations.ConstructionZeroesMemoryAndResetKeepsIt : Prop :=
  (∀ (p : Params) (a : Word), mapped a = true → readU8 (State.resetWith p).mem a = 0x00#8) ∧
  (∀ (s : State) (a : Word), readU8 s.cpuReset.mem a = readU8 s.mem a)

/-- The state after construction, whatever the parameters, has the invariant that every step keeps. -/
def Obligations.ResetHasStepInvariant : Prop :=
  ∀ p : Params, (State.resetWith p).Inv

/-- Every step keeps: memory in its canonical form, 0 in the slot of register 0, and no transfer left
over between steps. -/
def Obligations.StepKeepsInvariant : Prop :=
  ∀ s t : State, s.Inv → step s = .next t → t.Inv

/-- `10_state.md` R22: register 0 reads 0 always; a write to it by an instruction, by a landing load or
by the host changes nothing. -/
def Obligations.RegisterZeroIsConstant : Prop :=
  ∀ (s : State) (v : Word),
    s.x 0 = 0#32 ∧ s.setX 0 v = s ∧ inspectWriteX s 0 v = s ∧
    (∀ q, ((s.setPend (some ⟨0, v⟩)).land []).x q = s.x q) ∧
    (∀ i t, exec i s = .next t → t.x 0 = 0#32)

/-! ### Encoding -/

/-- Decoding the canonical word of an instruction populated on the machine gives it back, with every
operand at every value. Rests on the spec's own decisions D8, D10 (log entry 12). -/
def Obligations.DecodeInvertsEncode : Prop :=
  ∀ (specialAlu : Bool) (i : Instr), i.wellFormed specialAlu = true →
    decode specialAlu (encode i) = .ok i

/-- `30_encoding.md` R108, R107: a word decodes to the instruction of a row exactly when `w & mask =
match` for that row and the row is populated, and then the decoded instruction's word has the bits
of `w` at every used field. Rests on the spec's own decisions D8, D10 (log entry 12). -/
def Obligations.DecodeAgreesWithOpcodeRows : Prop :=
  (∀ (specialAlu : Bool) (w : Word) (name : String),
    (∃ i, decode specialAlu w = .ok i ∧ i.mnemonic = name) ↔
    (∃ r ∈ opcodeRows, r.mnemonic = name ∧ (r.isOption = true → specialAlu = true) ∧
      w &&& r.mask = r.pattern)) ∧
  (∀ (specialAlu : Bool) (w : Word) (i : Instr), decode specialAlu w = .ok i →
    encode i &&& i.usedBits = w &&& i.usedBits)

/-- `30_encoding.md` R104: two different rows never match the same word. Rests on the spec's own
decision D8 (log entry 12). -/
def Obligations.OpcodeRowsNeverOverlap : Prop :=
  ∀ r ∈ opcodeRows, ∀ q ∈ opcodeRows, ∀ w : Word,
    r.selects w = true → q.selects w = true → r = q

/-- `30_encoding.md` R101: a word that differs only in ignored fields decodes to the same
instruction. Rests on the spec's own decision D12 (log entry 12). -/
def Obligations.IgnoredFieldsDoNotMatter : Prop :=
  ∀ (specialAlu : Bool) (w w' : Word) (i : Instr), decode specialAlu w = .ok i →
    w' &&& i.usedBits = w &&& i.usedBits → decode specialAlu w' = .ok i

/-- `30_encoding.md` R90: an instruction is one 32-bit word, fetched at `pc`, the byte at the lowest
address in bits 7 to 0 and the highest holding `op`; decoding its four bytes takes exactly those. -/
def Obligations.InstructionIsOneLittleEndianWord : Prop :=
  ∀ (o : Bool) (s : State) (w : Word) (rest : List Byte), w = readLE s.mem s.pc 4 →
    (fetch s).iw = w ∧
    (∀ k, k < 4 → byteOf w k = readU8 s.mem (s.pc + BitVec.ofNat 32 k)) ∧
    opField w = (readU8 s.mem (s.pc + 3#32)).extractLsb' 2 6 ∧
    (∀ i, decode o w = .ok i →
      decodeBytes o (byteOf w 0 :: byteOf w 1 :: byteOf w 2 :: byteOf w 3 :: rest) = .ok (i, rest)) ∧
    (∀ e, decode o w = .error e →
      decodeBytes o (byteOf w 0 :: byteOf w 1 :: byteOf w 2 :: byteOf w 3 :: rest) = .error e)

/-- Words of the spec's rules and vectors decode to the instructions they stand for
(`95_test_vectors.md` E7, V1, V6, V24, V62, V81, V137, V163, V172). Rests on the spec's own decision
D8 (log entry 12). -/
def Obligations.SampleWordsDecode : Prop :=
  decode false 0x24080005#32 = .ok (.addiu 0 8 5#16) ∧
  decode false 0x0BF00040#32 = .ok (.j 0x3F00040#26) ∧
  decode false 0x0100F809#32 = .ok (.jalr 8 31) ∧
  decode false 0x05100004#32 = .ok (.bltzal 8 4#16) ∧
  decode false 0x8A080005#32 = .ok (.lwl 16 8 5#16) ∧
  decode false 0xA6080002#32 = .ok (.sh 16 8 2#16) ∧
  decode false 0x3128FF00#32 = .ok (.andi 9 8 0xFF00#16) ∧
  decode true 0x00095103#32 = .ok (.sra 9 10 4#5) ∧
  decode true 0x01095022#32 = .ok (.sub 8 9 10) ∧
  decode false 0x01095022#32 = .error (.optionOff 0x22#6)

/-- `00_scope.md` R11: sign extension is the shift left then arithmetic shift right, whatever the bits
above; zero extension is the remainder. -/
def Obligations.ExtensionsAreShiftsAndRemainders : Prop :=
  (∀ v : Word,
    sext8 (v.setWidth 8) = (v <<< 24).sshiftRight 24 ∧
    sext16 (v.setWidth 16) = (v <<< 16).sshiftRight 16 ∧
    (zext8 (v.setWidth 8)).toNat = v.toNat % 2 ^ 8 ∧
    (zext16 (v.setWidth 16)).toNat = v.toNat % 2 ^ 16) ∧
  sext8 0x80#8 = 0xFFFFFF80#32

/-! ### The Address Bus -/

/-- `20_memory.md` R51, R52, R58: the region table, routing by half-open ranges, and which addresses
can be written. Rests on the spec's own decisions D1, D2, D28 (log entry 12). -/
def Obligations.RoutingFollowsRegionTable : Prop :=
  (∀ (a : Word) (r : Region) (off : Nat), route a = some (r, off) ↔
    regionBase r ≤ a.toNat ∧ a.toNat < regionBase r + regionSize r ∧ off = a.toNat - regionBase r) ∧
  (regionBase .mainRam = 0xA0000000 ∧ regionSize .mainRam = 0x200000 ∧ regionWritable .mainRam = true) ∧
  (regionBase .expansion1 = 0xBF000000 ∧ regionSize .expansion1 = 0x800000 ∧
    regionWritable .expansion1 = true) ∧
  (regionBase .scratchpad = 0xBF800000 ∧ regionSize .scratchpad = 0x1000 ∧
    regionWritable .scratchpad = true) ∧
  (regionBase .ioPorts = 0xBF801000 ∧ regionSize .ioPorts = 0x2000 ∧ regionWritable .ioPorts = true) ∧
  (regionBase .biosRom = 0xBFC00000 ∧ regionSize .biosRom = 0x80000 ∧ regionWritable .biosRom = false) ∧
  (∀ a : Word, writable a = true ↔ ∃ r off, route a = some (r, off) ∧ regionWritable r = true) ∧
  route 0xBF800000#32 = some (.scratchpad, 0) ∧ route 0xBF801000#32 = some (.ioPorts, 0) ∧
  route 0xBF803000#32 = none ∧ route 0xA0200000#32 = none

/-- `20_memory.md` R53: the unmapped addresses are exactly these ranges. Rests on the spec's own
decisions D1, D28 (log entry 12). -/
def Obligations.UnmappedAddressesAreTheseRanges : Prop :=
  ∀ a : Word, mapped a = false ↔
    (a.toNat ≤ 0x9FFFFFFF ∨ (0xA0200000 ≤ a.toNat ∧ a.toNat ≤ 0xBEFFFFFF) ∨
     (0xBF803000 ≤ a.toNat ∧ a.toNat ≤ 0xBFBFFFFF) ∨ 0xBFC80000 ≤ a.toNat)

/-- `20_memory.md` R57: a byte read gives the routed region's byte and no diagnostic, or at an unmapped
address 0xFF and one diagnostic. A read changes no state: `readU8` only answers a byte. -/
def Obligations.ByteReadRoutesOrGivesSentinel : Prop :=
  ∀ (m : Memory) (a : Word),
    (∀ r off, route a = some (r, off) →
      readU8 m a = Memory.get m (regionBase r + off) ∧ readDiag a = []) ∧
    (route a = none → readU8 m a = 0xFF#8 ∧ readDiag a = [.unmappedRead a])

/-- `20_memory.md` R57, R58, R76: a byte of a read/write region reads back what was written; an
unmapped byte reads 0xFF and a write to it changes nothing; a write to the ROM is discarded; a write
changes no other byte; each access outside what it may reach emits one diagnostic. Rests on the
spec's own decision D2 (log entry 12). -/
def Obligations.BusRoundTrip : Prop :=
  ∀ (m : Memory) (a c : Word) (b : Byte),
    (writable a = true → readU8 (writeU8 m a b) a = b ∧ writeDiag a b = []) ∧
    (mapped a = true → readDiag a = []) ∧
    (mapped a = false → readU8 m a = 0xFF#8 ∧ readDiag a = [.unmappedRead a]) ∧
    (writable a = false → readU8 (writeU8 m a b) c = readU8 m c ∧ writeDiag a b = [.unmappedWrite a b]) ∧
    (c ≠ a → readU8 (writeU8 m a b) c = readU8 m c)

/-- `20_memory.md` R61, R59: a wide read is the little-endian sum of its bytes, each routed on its own,
with addresses modulo 2^32; its diagnostics are those of its byte reads, lowest address first. That
there is one event for each call of the byte primitive is the spec's own decision D20 (log entry
12). -/
def Obligations.WideReadsAreLittleEndian : Prop :=
  ∀ (m : Memory) (a : Word),
    (readLE m a 1).toNat = (readU8 m a).toNat ∧
    (readLE m a 2).toNat = (readU8 m a).toNat + 2 ^ 8 * (readU8 m (a + 1#32)).toNat ∧
    (readLE m a 4).toNat = (readU8 m a).toNat + 2 ^ 8 * (readU8 m (a + 1#32)).toNat +
      2 ^ 16 * (readU8 m (a + 2#32)).toNat + 2 ^ 24 * (readU8 m (a + 3#32)).toNat ∧
    readDiags a 1 = readDiag a ∧ readDiags a 2 = readDiag a ++ readDiag (a + 1#32) ∧
    readDiags a 4 = readDiag a ++ readDiag (a + 1#32) ++ readDiag (a + 2#32) ++ readDiag (a + 3#32)

/-- `20_memory.md` R60, R62: after a word store into read/write regions, a word read gives the
value, and byte and halfword reads see exactly its bytes. Rests on the spec's own decision D21 (log
entry 12). -/
def Obligations.StoredWordReadsBackAtEveryWidth : Prop :=
  ∀ (m : Memory) (a v : Word),
    (∀ k, k < 4 → writable (a + BitVec.ofNat 32 k) = true) →
    readLE (writeLE m a 4 v) a 4 = v ∧
    (∀ k, k < 4 → readU8 (writeLE m a 4 v) (a + BitVec.ofNat 32 k) = byteOf v k) ∧
    readLE (writeLE m a 4 v) (a + 2#32) 2 = v >>> 16

/-- `20_memory.md` R56: an image of exactly 512 KiB becomes the content of the ROM and of nothing
else; any other size is rejected with a diagnostic and memory is as before. Rests on the spec's own
decisions D1, D26 (log entry 12). -/
def Obligations.BiosLoadFillsRomOrIsRejected : Prop :=
  ∀ (s : State) (image : List Byte),
    (∀ h : image.length = 0x80000,
      (∀ k, (hk : k < 0x80000) →
        readU8 (loadBios s image).mem (0xBFC00000#32 + BitVec.ofNat 32 k) = image[k]) ∧
      (∀ a : Word, (∀ k, k < 0x80000 → a ≠ 0xBFC00000#32 + BitVec.ofNat 32 k) →
        readU8 (loadBios s image).mem a = readU8 s.mem a)) ∧
    (image.length ≠ 0x80000 → (loadBios s image).mem = s.mem ∧
      (loadBios s image).diags = s.diags ++ [.biosRejected image.length])

/-! ### The step -/

/-- `40_execution_cycle.md` R120, R122: fetch reads the word at `pc`, advances `pc` by 4 and primes the
word after it, and changes nothing else. -/
def Obligations.FetchReadsWordAndPrimesNext : Prop :=
  ∀ s : State,
    (fetch s).iw = readLE s.mem s.pc 4 ∧ (fetch s).pc = s.pc + 4#32 ∧
    (fetch s).ds = readLE s.mem (s.pc + 4#32) 4 ∧
    (fetch s).diags = s.diags ++ readDiags s.pc 4 ++ readDiags (s.pc + 4#32) 4 ∧
    (∀ q, (fetch s).x q = s.x q) ∧ (fetch s).hi = s.hi ∧ (fetch s).lo = s.lo ∧
    (fetch s).pend = s.pend ∧ (fetch s).halted = s.halted ∧ (fetch s).mem = s.mem ∧
    (fetch s).params = s.params ∧ (fetch s).transfer = none

/-- A STEP RUNS THE DECODED INSTRUCTION: on a running machine whose fetched word decodes to `i`, the
step is `exec i` after the fetch, followed by the delay slot when `i` asked for a transfer
(`40_execution_cycle.md` R120, R123, R126). Rests on the spec's own decisions D5, D19 (log entry
12). -/
def Obligations.StepRunsFetchedInstruction : Prop :=
  ∀ (s : State) (i : Instr), s.halted = .running → fetchedInstr s = .ok i →
    step s = match exec i (fetch s) with
      | .next u => (match u.transfer with
        | none => .next u
        | some t => delaySlot t u)
      | .fault f => .fault f
      | .refused r => .refused r

/-- An instruction that is no jump or branch takes exactly the step of its meaning, and `pc` has
advanced by 4 (`10_state.md` R27, `40_execution_cycle.md` R123). -/
def Obligations.OrdinaryInstructionStep : Prop :=
  ∀ (s : State) (i : Instr), s.halted = .running → fetchedInstr s = .ok i → i.isTransfer = false →
    ∃ t, step s = .next t ∧ exec i (fetch s) = .next t ∧ t.pc = s.pc + 4#32

/-- `40_execution_cycle.md` R127: a branch whose condition is false ends its step with `pc` = A + 4 and
no transfer; the word at A + 4 is what the next step fetches and executes as an ordinary instruction,
not as a slot: a jump or branch there transfers as any other, and the only refusal of that step is that
of its own slot. The conditions rest on the spec's own decision D22, and the refusal on D6 (log entries
10, 12). -/
def Obligations.UntakenBranchStep : Prop :=
  ∀ (s : State) (i : Instr), s.halted = .running → fetchedInstr s = .ok i →
    conditionFalse (fetch s) i →
    ∃ u, exec i (fetch s) = .next u ∧ step s = .next u ∧ u.transfer = none ∧
      u.pc = s.pc + 4#32 ∧ u.halted = .running ∧ (fetch u).iw = readLE s.mem (s.pc + 4#32) 4 ∧
      ∀ d, primedInstr s = .ok d → fetchedInstr u = .ok d ∧
        ∃ v, exec d (fetch u) = .next v ∧
          (v.transfer = none → step u = .next v) ∧
          (∀ t, v.transfer = some t → d.isTransfer = true ∧ step u = delaySlot t v) ∧
          (∀ r, step u = .refused r → d.isTransfer = true ∧ v.transfer ≠ none ∧
            ∃ e, primedInstr u = .ok e ∧ e.isTransfer = true)

/-- `40_execution_cycle.md` R126: when a transfer to `t` is taken, the primed word is executed as a
full cycle, after the transfer's own effects and with `pc` still A + 4, and then `pc` is `t`. Rests
on the spec's own decision D5 (log entry 12). -/
def Obligations.TakenTransferStep : Prop :=
  ∀ (s u v : State) (i d : Instr) (t : Word), s.halted = .running → fetchedInstr s = .ok i →
    exec i (fetch s) = .next u → u.transfer = some t →
    primedInstr s = .ok d → d.isTransfer = false →
    exec d { u with iw := readLE s.mem (s.pc + 4#32) 4, transfer := none } = .next v →
    v.halted = .running →
    step s = .next (v.setPc t) ∧ u.pend = none ∧ u.pc = s.pc + 4#32 ∧ v.pc = s.pc + 4#32

/-- `40_execution_cycle.md` R132: when the instruction in the delay slot halts, the machine is
halted with `pc` = A + 4, and the link the transfer wrote stays. Rests on the spec's own decisions
D13, D19 (log entry 12). -/
def Obligations.HaltInDelaySlotKeepsLink : Prop :=
  ∀ (s u v : State) (i d : Instr) (t : Word), s.halted = .running → fetchedInstr s = .ok i →
    exec i (fetch s) = .next u → u.transfer = some t →
    primedInstr s = .ok d → d.isTransfer = false →
    exec d { u with iw := readLE s.mem (s.pc + 4#32) 4, transfer := none } = .next v →
    v.halted ≠ .running →
    step s = .next v ∧ v.pc = s.pc + 4#32 ∧
    v.halted = .halted .integerOverflow (readLE s.mem (s.pc + 4#32) 4) ∧
    (∀ q ∈ writtenRegs i, q ≠ 0 → v.x q = s.pc + 8#32)

/-- `30_encoding.md` R100, `40_execution_cycle.md` R132: executing a word that no populated row
selects halts with cause UndefinedInstruction, as the fetched word and as the word of a delay slot.
Rests on the spec's own decisions D8, D11, D19 (log entry 12). -/
def Obligations.UndefinedWordHalts : Prop :=
  (∀ s : State, s.halted = .running → UndefinedWord s.params.specialAlu (readLE s.mem s.pc 4) →
    ∃ t, step s = .next t ∧ Halts (fetch s) t .undefinedInstruction) ∧
  (∀ (s u : State) (i : Instr) (t : Word), s.halted = .running → fetchedInstr s = .ok i →
    exec i (fetch s) = .next u → u.transfer = some t →
    UndefinedWord s.params.specialAlu (readLE s.mem (s.pc + 4#32) 4) →
    ∃ v, step s = .next v ∧ v.pc = s.pc + 4#32 ∧
      Halts { u with iw := readLE s.mem (s.pc + 4#32) 4, transfer := none } v .undefinedInstruction)

/-- `40_execution_cycle.md` R128: a jump or branch in the delay slot of a taken transfer is
UNPREDICTABLE(U1), and the model refuses it. Rests on the spec's own decision D6 (log entry 12). -/
def Obligations.TransferInTakenSlotIsRefused : Prop :=
  ∀ (s u : State) (i d : Instr) (t : Word), s.halted = .running → fetchedInstr s = .ok i →
    exec i (fetch s) = .next u → u.transfer = some t →
    primedInstr s = .ok d → d.isTransfer = true →
    step s = .refused (.transferInDelaySlot (readLE s.mem (s.pc + 4#32) 4))

/-- Every step answers a next state but in one case, U1: a taken transfer whose slot holds a jump or
branch (`60_exceptions.md` R260, `40_execution_cycle.md` R128). A step that halts, and a step of a
halted machine, count as next states here: that is the model's choice (log entry 1, DESIGN CHOICE),
from R262 and R266, where R263 calls the halt the fault outcome. Rests also on the spec's own decisions
D6, D19 (log entries 10, 12). -/
def Obligations.StepAnswersUnlessTransferInSlot : Prop :=
  ∀ s : State, (∃ t, step s = .next t) ∨
    (s.halted = .running ∧
      step s = .refused (.transferInDelaySlot (readLE s.mem (s.pc + 4#32) 4)) ∧
      ∃ i d u t, fetchedInstr s = .ok i ∧ i.isTransfer = true ∧ exec i (fetch s) = .next u ∧
        u.transfer = some t ∧ primedInstr s = .ok d ∧ d.isTransfer = true)

/-- `60_exceptions.md` R266, `40_execution_cycle.md` R120: steps of a halted machine do nothing, and of
what the host can do (`70_reset_and_hazards.md` R295, log entry 15) the inspection port, a poke and a
BIOS load do not change the condition, and reset leaves it. Rests on the spec's own decision D19 (log
entry 12). -/
def Obligations.HaltedMachineDoesNothing : Prop :=
  ∀ s : State, s.halted ≠ .running →
    (∀ k, Host.Core.run Sys2Proof.core k s = .next s) ∧
    (∀ n v, (inspectWriteX s n v).halted = s.halted) ∧ (∀ v, (inspectWritePc s v).halted = s.halted) ∧
    (∀ a b, (poke s a b).halted = s.halted) ∧ (∀ image, (loadBios s image).halted = s.halted) ∧
    s.cpuReset.halted = .running

/-- `40_execution_cycle.md` R121: the fetched word is `MemRead(pc, 4)`; a fetch from unmapped memory
reads 0xFFFFFFFF and halts. Rests on the spec's own decisions D11, D19 (log entry 12). -/
def Obligations.UnmappedFetchHalts : Prop :=
  ∀ s : State, s.halted = .running → (∀ k, k < 4 → mapped (s.pc + BitVec.ofNat 32 k) = false) →
    ∃ t, step s = .next t ∧ t.pc = s.pc + 4#32 ∧
      t.halted = .halted .undefinedInstruction 0xFFFFFFFF#32 ∧
      (∀ q, t.x q = landedX s q) ∧ SameMemory s t

/-- `30_encoding.md` R102, `45_special_alu_option.md` R230: the all-zero word halts by default, and
is a no-op when the option is on. Rests on the spec's own decision D10 (log entry 12). -/
def Obligations.AllZeroWordHaltsUnlessOptionOn : Prop :=
  ∀ s : State, s.halted = .running → readLE s.mem s.pc 4 = 0#32 →
    (s.params.specialAlu = false → ∃ t, step s = .next t ∧ Halts (fetch s) t .undefinedInstruction) ∧
    (s.params.specialAlu = true → ∃ t, step s = .next t ∧ WritesOnly (fetch s) t 0 0#32)

/-- `10_state.md` R27: `pc` is changed only by the advance of the fetch and by a taken transfer. -/
def Obligations.PcMovesOnlyByAdvanceOrTransfer : Prop :=
  ∀ s t : State, s.halted = .running → step s = .next t →
    t.pc = s.pc + 4#32 ∨
    (t.halted = .running ∧ ∃ i u, fetchedInstr s = .ok i ∧ i.isTransfer = true ∧
      exec i (fetch s) = .next u ∧ u.transfer = some t.pc)

/-- A pc aligned to a word stays so unless the step runs a register jump (`20_memory.md` R64,
`41_jumps_branches.md` R154). Rests on the spec's own decision D14 (log entry 12). -/
def Obligations.AlignedPcStaysAlignedWithoutRegisterJump : Prop :=
  ∀ s t : State, s.pc.toNat % 4 = 0 → step s = .next t →
    (∀ rs, fetchedInstr s ≠ .ok (.jr rs)) → (∀ rs rd, fetchedInstr s ≠ .ok (.jalr rs rd)) →
    t.pc.toNat % 4 = 0

/-- No step changes `hi`, `lo` or a parameter (`10_state.md` R25, R20). Rests on the spec's own
decision D16 (log entry 12). -/
def Obligations.HiLoAndParametersNeverChange : Prop :=
  ∀ s t : State, step s = .next t → t.hi = s.hi ∧ t.lo = s.lo ∧ t.params = s.params

/-- No step changes a byte of the BIOS ROM or of unmapped space (`20_memory.md` R56, R58). Rests on
the spec's own decision D2 (log entry 12). -/
def Obligations.RomIsNeverWritten : Prop :=
  ∀ (s t : State) (a : Word), step s = .next t → writable a = false →
    readU8 t.mem a = readU8 s.mem a

/-- `10_state.md` R32: the delay-slot word, and the model's own `iw` and `transfer`, carry nothing from
one step to the next. -/
def Obligations.StepIgnoresSlotWordFromBefore : Prop :=
  ∀ (s : State) (a b : Word) (c : Option Word), s.halted = .running →
    step { s with ds := a, iw := b, transfer := c } = step s

/-- `20_memory.md` R59: diagnostics change no state and no rule reads them: runs that differ only in
the stream go on differing only in the stream. Rests on the spec's own decision D20 (log entry 12).
-/
def Obligations.DiagnosticsInfluenceNothing : Prop :=
  ∀ (s : State) (d : List Diag), OutcomesAlike SameButDiags (step s) (step { s with diags := d })

/-- `40_execution_cycle.md` R129: the step returns the declared cost of the fetched instruction
alone; a step that halts returns none. The cost is the parameter CYCLES, whatever it is. Rests on
the spec's own decision D18 (log entry 12). -/
def Obligations.StepCostIsFetchedInstructions : Prop :=
  ∀ (s t : State) (i : Instr), s.halted = .running → fetchedInstr s = .ok i → step s = .next t →
    (t.halted = .running → stepCost s = some (Config.cycles i.mnemonic)) ∧
    (t.halted ≠ .running → stepCost s = none)

/-- `20_memory.md` R72: a word stored over the next instruction is what the next step fetches. -/
def Obligations.StoreIsSeenByNextFetch : Prop :=
  ∀ (s t : State) (rs rt : Reg) (imm16 : Half), s.halted = .running →
    fetchedInstr s = .ok (.sw rs rt imm16) → s.x rs + imm16.signExtend 32 = s.pc + 4#32 →
    (∀ k, k < 4 → writable (s.pc + 4#32 + BitVec.ofNat 32 k) = true) →
    step s = .next t → (fetch t).iw = s.x rt

/-! ### The load delay -/

/-- `40_execution_cycle.md` R125, R132: after any instruction, a register it did not write holds the
in-flight value if the load was for it, and its old content otherwise; an instruction that halts
writes none. Rests on the spec's own decisions D3, D19 (log entry 12). -/
def Obligations.UnwrittenRegistersLandOrStay : Prop :=
  ∀ (i : Instr) (s t : State), s.halted = .running → exec i s = .next t →
    ∀ q, (q ∉ writtenRegs i ∨ t.halted ≠ .running) → t.x q = landedX s q

/-- `40_execution_cycle.md` R123, R125: no instruction but `lwl` and `lwr` sees the load in flight:
what it stores, schedules, writes, decides and emits is the same whatever is in flight. Rests on the
spec's own decision D3 (log entry 12). -/
def Obligations.InFlightLoadIsUnseen : Prop :=
  ∀ (i : Instr) (s t u : State) (p q : Option PendingLoad), s.halted = .running →
    mergesInFlight i = false →
    exec i (s.setPend p) = .next t → exec i (s.setPend q) = .next u →
    t.mem = u.mem ∧ t.pend = u.pend ∧ t.transfer = u.transfer ∧ t.halted = u.halted ∧
    t.diags = u.diags ∧ t.pc = u.pc ∧
    (t.halted = .running → ∀ r ∈ writtenRegs i, t.x r = u.x r)

/-- `70_reset_and_hazards.md` R301, `40_execution_cycle.md` R125: a loaded value is in its register
after the one instruction that follows the load, unless that instruction writes the register. Rests
on the spec's own decision D3 (log entry 12). -/
def Obligations.LoadVisibleAfterOneInstruction : Prop :=
  ∀ (s t : State) (r : Reg) (v : Word) (i : Instr), s.halted = .running →
    s.pend = some ⟨r, v⟩ → r ≠ 0 → fetchedInstr s = .ok i → i.isTransfer = false →
    r ∉ writtenRegs i → step s = .next t → t.x r = v

/-- `70_reset_and_hazards.md` R306: a host write to a register with a load in flight is overwritten
by the landing in the next cycle, unless that instruction writes the register. Rests on the spec's
own decision D25 (log entry 12). -/
def Obligations.LandingOverwritesHostWrite : Prop :=
  ∀ (s t : State) (r : Reg) (v w : Word) (i : Instr), s.halted = .running →
    s.pend = some ⟨r, v⟩ → r ≠ 0 → r ∉ writtenRegs i →
    exec i (inspectWriteX s r.val w) = .next t → t.x r = v

/-! ### The inspection port -/

/-- `60_exceptions.md` R280: the port reads the register file and `pc`, and writes one of them and
nothing else; a write to register 0 is discarded. Rests on the spec's own decision D25 (log entry
12). -/
def Obligations.InspectionPortReadsAndWrites : Prop :=
  ∀ (s : State) (r : Reg) (v : Word) (n : Nat),
    inspectReadX s r.val = s.x r ∧ inspectReadPc s = s.pc ∧
    (∀ q, (inspectWriteX s r.val v).x q = if q = 0 then 0#32 else if q = r then v else s.x q) ∧
    { inspectWriteX s r.val v with regs := s.regs } = s ∧
    inspectWritePc s v = { s with pc := v } ∧ (32 ≤ n → inspectWriteX s n v = s)

/-! ### ALU-immediate instructions -/

/-- `44_alu_immediate.md` R212 to R218: encodings and results of the seven that never halt, with
their frame. `b` fills an ignored field. Rests on the spec's own decisions D8, D9, D22 (log entry
12). -/
def Obligations.AluImmediateResults : Prop :=
  ∀ (s : State) (rs rt : Reg) (imm : Half) (o : Bool) (b : BitVec 5),
    (decode o (encI 0x09#6 (regBits rs) (regBits rt) imm) = .ok (.addiu rs rt imm) ∧
      ∃ t, exec (.addiu rs rt imm) s = .next t ∧ WritesOnly s t rt (s.x rs + imm.signExtend 32)) ∧
    (decode o (encI 0x0A#6 (regBits rs) (regBits rt) imm) = .ok (.slti rs rt imm) ∧
      ∃ t, exec (.slti rs rt imm) s = .next t ∧
      WritesOnly s t rt (if (s.x rs).toInt < imm.toInt then 1#32 else 0#32)) ∧
    (decode o (encI 0x0B#6 (regBits rs) (regBits rt) imm) = .ok (.sltiu rs rt imm) ∧
      ∃ t, exec (.sltiu rs rt imm) s = .next t ∧
      WritesOnly s t rt (if (s.x rs).toNat < (imm.signExtend 32).toNat then 1#32 else 0#32)) ∧
    (decode o (encI 0x0C#6 (regBits rs) (regBits rt) imm) = .ok (.andi rs rt imm) ∧
      ∃ t, exec (.andi rs rt imm) s = .next t ∧ WritesOnly s t rt (s.x rs &&& (0#16 ++ imm))) ∧
    (decode o (encI 0x0D#6 (regBits rs) (regBits rt) imm) = .ok (.ori rs rt imm) ∧
      ∃ t, exec (.ori rs rt imm) s = .next t ∧ WritesOnly s t rt (s.x rs ||| (0#16 ++ imm))) ∧
    (decode o (encI 0x0E#6 (regBits rs) (regBits rt) imm) = .ok (.xori rs rt imm) ∧
      ∃ t, exec (.xori rs rt imm) s = .next t ∧ WritesOnly s t rt (s.x rs ^^^ (0#16 ++ imm))) ∧
    (decode o (encI 0x0F#6 b (regBits rt) imm) = .ok (.lui rt imm) ∧
      ∃ t, exec (.lui rt imm) s = .next t ∧ WritesOnly s t rt (imm ++ 0#16))

/-- `44_alu_immediate.md` R211: the encoding of `addi`; it writes the exact signed sum when it fits
in 32 bits, and halts with cause IntegerOverflow, `rt` unwritten, exactly when it does not. Rests on
the spec's own decisions D8, D9, D13 (log entry 12). -/
def Obligations.AddiHaltsExactlyOnOverflow : Prop :=
  ∀ (s : State) (rs rt : Reg) (imm : Half) (e : Int) (o : Bool),
    e = (s.x rs).toInt + imm.toInt →
    decode o (encI 0x08#6 (regBits rs) (regBits rt) imm) = .ok (.addi rs rt imm) ∧
    ((-2 ^ 31 ≤ e ∧ e < 2 ^ 31) →
      ∃ t, exec (.addi rs rt imm) s = .next t ∧ WritesOnly s t rt (BitVec.ofInt 32 e)) ∧
    ((e < -2 ^ 31 ∨ 2 ^ 31 ≤ e) →
      ∃ t, exec (.addi rs rt imm) s = .next t ∧ Halts s t .integerOverflow)

/-! ### The SPECIAL_ALU option -/

/-- `45_special_alu_option.md` R231 to R236: encodings and results of the shifts, with their frame.
`b` fills an ignored field. Rests on the spec's own decision D10 (log entry 12). -/
def Obligations.ShiftResults : Prop :=
  ∀ (s : State) (rs rt rd : Reg) (sh b : BitVec 5),
    (decode true (encR b (regBits rt) (regBits rd) sh 0x00#6) = .ok (.sll rt rd sh) ∧
      ∃ t, exec (.sll rt rd sh) s = .next t ∧ WritesOnly s t rd (s.x rt <<< sh.toNat)) ∧
    (decode true (encR b (regBits rt) (regBits rd) sh 0x02#6) = .ok (.srl rt rd sh) ∧
      ∃ t, exec (.srl rt rd sh) s = .next t ∧ WritesOnly s t rd (s.x rt >>> sh.toNat)) ∧
    (decode true (encR b (regBits rt) (regBits rd) sh 0x03#6) = .ok (.sra rt rd sh) ∧
      ∃ t, exec (.sra rt rd sh) s = .next t ∧ WritesOnly s t rd ((s.x rt).sshiftRight sh.toNat)) ∧
    (decode true (encR (regBits rs) (regBits rt) (regBits rd) b 0x04#6) = .ok (.sllv rs rt rd) ∧
      ∃ t, exec (.sllv rs rt rd) s = .next t ∧
      WritesOnly s t rd (s.x rt <<< ((s.x rs).toNat % 32))) ∧
    (decode true (encR (regBits rs) (regBits rt) (regBits rd) b 0x06#6) = .ok (.srlv rs rt rd) ∧
      ∃ t, exec (.srlv rs rt rd) s = .next t ∧
      WritesOnly s t rd (s.x rt >>> ((s.x rs).toNat % 32))) ∧
    (decode true (encR (regBits rs) (regBits rt) (regBits rd) b 0x07#6) = .ok (.srav rs rt rd) ∧
      ∃ t, exec (.srav rs rt rd) s = .next t ∧
      WritesOnly s t rd ((s.x rt).sshiftRight ((s.x rs).toNat % 32)))

/-- `45_special_alu_option.md` R238, R240 to R246: encodings and results of the three-register
instructions that never halt, with their frame. `b` fills the ignored field. Rests on the spec's own
decision D10 (log entry 12). -/
def Obligations.RegisterAluResults : Prop :=
  ∀ (s : State) (rs rt rd : Reg) (b : BitVec 5),
    (decode true (encR (regBits rs) (regBits rt) (regBits rd) b 0x21#6) = .ok (.addu rs rt rd) ∧
      ∃ t, exec (.addu rs rt rd) s = .next t ∧ WritesOnly s t rd (s.x rs + s.x rt)) ∧
    (decode true (encR (regBits rs) (regBits rt) (regBits rd) b 0x23#6) = .ok (.subu rs rt rd) ∧
      ∃ t, exec (.subu rs rt rd) s = .next t ∧ WritesOnly s t rd (s.x rs - s.x rt)) ∧
    (decode true (encR (regBits rs) (regBits rt) (regBits rd) b 0x24#6) = .ok (.and rs rt rd) ∧
      ∃ t, exec (.and rs rt rd) s = .next t ∧ WritesOnly s t rd (s.x rs &&& s.x rt)) ∧
    (decode true (encR (regBits rs) (regBits rt) (regBits rd) b 0x25#6) = .ok (.or rs rt rd) ∧
      ∃ t, exec (.or rs rt rd) s = .next t ∧ WritesOnly s t rd (s.x rs ||| s.x rt)) ∧
    (decode true (encR (regBits rs) (regBits rt) (regBits rd) b 0x26#6) = .ok (.xor rs rt rd) ∧
      ∃ t, exec (.xor rs rt rd) s = .next t ∧ WritesOnly s t rd (s.x rs ^^^ s.x rt)) ∧
    (decode true (encR (regBits rs) (regBits rt) (regBits rd) b 0x27#6) = .ok (.nor rs rt rd) ∧
      ∃ t, exec (.nor rs rt rd) s = .next t ∧ WritesOnly s t rd (~~~(s.x rs ||| s.x rt))) ∧
    (decode true (encR (regBits rs) (regBits rt) (regBits rd) b 0x2A#6) = .ok (.slt rs rt rd) ∧
      ∃ t, exec (.slt rs rt rd) s = .next t ∧
      WritesOnly s t rd (if (s.x rs).toInt < (s.x rt).toInt then 1#32 else 0#32)) ∧
    (decode true (encR (regBits rs) (regBits rt) (regBits rd) b 0x2B#6) = .ok (.sltu rs rt rd) ∧
      ∃ t, exec (.sltu rs rt rd) s = .next t ∧
      WritesOnly s t rd (if (s.x rs).toNat < (s.x rt).toNat then 1#32 else 0#32))

/-- `45_special_alu_option.md` R237, R239: the encodings of `add` and `sub`; they write the exact
signed result when it fits in 32 bits, and halt with cause IntegerOverflow, `rd` unwritten, exactly
when it does not. Rests on the spec's own decisions D10, D13 (log entry 12). -/
def Obligations.AddAndSubHaltExactlyOnOverflow : Prop :=
  ∀ (s : State) (rs rt rd : Reg) (e d : Int) (b : BitVec 5),
    e = (s.x rs).toInt + (s.x rt).toInt →
    d = (s.x rs).toInt - (s.x rt).toInt →
    decode true (encR (regBits rs) (regBits rt) (regBits rd) b 0x20#6) = .ok (.add rs rt rd) ∧
    decode true (encR (regBits rs) (regBits rt) (regBits rd) b 0x22#6) = .ok (.sub rs rt rd) ∧
    ((-2 ^ 31 ≤ e ∧ e < 2 ^ 31) →
      ∃ t, exec (.add rs rt rd) s = .next t ∧ WritesOnly s t rd (BitVec.ofInt 32 e)) ∧
    ((e < -2 ^ 31 ∨ 2 ^ 31 ≤ e) →
      ∃ t, exec (.add rs rt rd) s = .next t ∧ Halts s t .integerOverflow) ∧
    ((-2 ^ 31 ≤ d ∧ d < 2 ^ 31) →
      ∃ t, exec (.sub rs rt rd) s = .next t ∧ WritesOnly s t rd (BitVec.ofInt 32 d)) ∧
    ((d < -2 ^ 31 ∨ 2 ^ 31 ≤ d) →
      ∃ t, exec (.sub rs rt rd) s = .next t ∧ Halts s t .integerOverflow)

/-! ### Loads -/

/-- `42_loads.md` R171 to R175: the encodings of the loads and what they schedule, at any address,
with their frame. Rests on the spec's own decisions D8, D22 (log entry 12). -/
def Obligations.LoadResults : Prop :=
  ∀ (s : State) (rs rt : Reg) (imm : Half) (a : Word) (o : Bool),
    a = s.x rs + imm.signExtend 32 →
    (decode o (encI 0x20#6 (regBits rs) (regBits rt) imm) = .ok (.lb rs rt imm) ∧
      ∃ t, exec (.lb rs rt imm) s = .next t ∧
      SchedulesLoad s t rt ((readU8 s.mem a).signExtend 32) a 1) ∧
    (decode o (encI 0x24#6 (regBits rs) (regBits rt) imm) = .ok (.lbu rs rt imm) ∧
      ∃ t, exec (.lbu rs rt imm) s = .next t ∧
      SchedulesLoad s t rt ((readU8 s.mem a).setWidth 32) a 1) ∧
    (decode o (encI 0x21#6 (regBits rs) (regBits rt) imm) = .ok (.lh rs rt imm) ∧
      ∃ t, exec (.lh rs rt imm) s = .next t ∧
      SchedulesLoad s t rt ((readU8 s.mem (a + 1#32) ++ readU8 s.mem a).signExtend 32) a 2) ∧
    (decode o (encI 0x25#6 (regBits rs) (regBits rt) imm) = .ok (.lhu rs rt imm) ∧
      ∃ t, exec (.lhu rs rt imm) s = .next t ∧
      SchedulesLoad s t rt ((readU8 s.mem (a + 1#32) ++ readU8 s.mem a).setWidth 32) a 2) ∧
    (decode o (encI 0x23#6 (regBits rs) (regBits rt) imm) = .ok (.lw rs rt imm) ∧
      ∃ t, exec (.lw rs rt imm) s = .next t ∧
      SchedulesLoad s t rt (readU8 s.mem (a + 3#32) ++ readU8 s.mem (a + 2#32) ++
        readU8 s.mem (a + 1#32) ++ readU8 s.mem a) a 4)

/-- `42_loads.md` R176, R177: `lwl` fills the most significant n + 1 bytes of `rt` from the aligned
word's start up to the byte at EA and keeps the others; `lwr` fills the least significant 4 - n
bytes from the byte at EA up to the end of the aligned word; the bytes kept are those of the load
into `rt` in flight, if there is one. Rests on the spec's own decisions D4, D8, D23 (log entry 12).
-/
def Obligations.UnalignedLoadLanes : Prop :=
  ∀ (s : State) (rs rt : Reg) (imm : Half) (a b cur : Word) (n : Nat) (o : Bool),
    a = s.x rs + imm.signExtend 32 → b = a &&& 0xFFFFFFFC#32 → n = a.toNat % 4 →
    cur = (match s.pend with
      | some p => if rt ≠ 0 ∧ p.reg = rt then p.val else s.x rt
      | none => s.x rt) →
    (decode o (encI 0x22#6 (regBits rs) (regBits rt) imm) = .ok (.lwl rs rt imm) ∧
      ∃ t v, exec (.lwl rs rt imm) s = .next t ∧ SchedulesLoad s t rt v b 4 ∧
      ∀ k, k < 4 → byteOf v k =
        if 3 - n ≤ k then readU8 s.mem (b + BitVec.ofNat 32 (k - (3 - n))) else byteOf cur k) ∧
    (decode o (encI 0x26#6 (regBits rs) (regBits rt) imm) = .ok (.lwr rs rt imm) ∧
      ∃ t v, exec (.lwr rs rt imm) s = .next t ∧ SchedulesLoad s t rt v b 4 ∧
      ∀ k, k < 4 → byteOf v k =
        if k < 4 - n then readU8 s.mem (a + BitVec.ofNat 32 k) else byteOf cur k)

/-- `42_loads.md` R178: an adjacent `lwr`/`lwl` pair on one register, in either order, schedules the
little-endian word at the unaligned address. Rests on the spec's own decisions D4, D23 (log entry
12). -/
def Obligations.AdjacentUnalignedLoadPairLoadsWord : Prop :=
  ∀ (s : State) (rs rt : Reg) (k k3 : Half) (a : Word), rt ≠ 0 →
    (∀ p, s.pend = some p → p.reg ≠ rs) →
    k3.signExtend 32 = k.signExtend 32 + 3#32 → a = s.x rs + k.signExtend 32 →
    (∃ t u, exec (.lwr rs rt k) s = .next t ∧ exec (.lwl rs rt k3) t = .next u ∧
      u.pend = some ⟨rt, readLE s.mem a 4⟩) ∧
    (∃ t u, exec (.lwl rs rt k3) s = .next t ∧ exec (.lwr rs rt k) t = .next u ∧
      u.pend = some ⟨rt, readLE s.mem a 4⟩)

/-! ### Stores -/

/-- `43_stores.md` R191 to R193: the encodings of `sb`, `sh`, `sw` and the bytes they store, at any
address, and that no other byte changes; the load in flight lands (`40_execution_cycle.md` R125); a
byte that cannot be written is discarded with a diagnostic (`20_memory.md` R58). The diagnostics of a
wide write are those of its byte writes, lowest address first (R59, R62). Rests on the spec's own
decisions D2, D3, D8 (with GK1), D14, D20, D21 (log entry 12). -/
def Obligations.StoreResults : Prop :=
  ∀ (s : State) (rs rt : Reg) (imm : Half) (a : Word) (o : Bool),
    a = s.x rs + imm.signExtend 32 →
    (decode o (encI 0x28#6 (regBits rs) (regBits rt) imm) = .ok (.sb rs rt imm) ∧
      ∃ t, exec (.sb rs rt imm) s = .next t ∧
      StoresBytes s t a 1 (s.x rt) (writeDiags a 1 (s.x rt))) ∧
    (decode o (encI 0x29#6 (regBits rs) (regBits rt) imm) = .ok (.sh rs rt imm) ∧
      ∃ t, exec (.sh rs rt imm) s = .next t ∧
      StoresBytes s t a 2 (s.x rt) (writeDiags a 2 (s.x rt))) ∧
    (decode o (encI 0x2B#6 (regBits rs) (regBits rt) imm) = .ok (.sw rs rt imm) ∧
      ∃ t, exec (.sw rs rt imm) s = .next t ∧
      StoresBytes s t a 4 (s.x rt) (writeDiags a 4 (s.x rt))) ∧
    (∀ (c v : Word), writeDiags c 1 v = writeDiag c (byteOf v 0) ∧
      writeDiags c 2 v = writeDiag c (byteOf v 0) ++ writeDiag (c + 1#32) (byteOf v 1) ∧
      writeDiags c 4 v = writeDiag c (byteOf v 0) ++ writeDiag (c + 1#32) (byteOf v 1) ++
        writeDiag (c + 2#32) (byteOf v 2) ++ writeDiag (c + 3#32) (byteOf v 3))

/-- `43_stores.md` R194, R195: `swl` stores the most significant n + 1 bytes of `rt` from the
aligned word's start up to the byte at EA, `swr` the least significant 4 - n bytes from the byte at
EA up to the word's end, and no other byte changes; the diagnostics are those of reading and writing
the aligned word. Rests on the spec's own decisions D8, D23, D24 (log entry 12). -/
def Obligations.UnalignedStoreLanes : Prop :=
  ∀ (s : State) (rs rt : Reg) (imm : Half) (a b : Word) (n : Nat) (o : Bool),
    a = s.x rs + imm.signExtend 32 → b = a &&& 0xFFFFFFFC#32 → n = a.toNat % 4 →
    (decode o (encI 0x2A#6 (regBits rs) (regBits rt) imm) = .ok (.swl rs rt imm) ∧
      ∃ t, exec (.swl rs rt imm) s = .next t ∧
      StoresBytes s t b (n + 1) (s.x rt >>> (8 * (3 - n)))
        (readDiags b 4 ++ writeDiags b 4 (swlMerge (lane a) (readLE s.mem b 4) (s.x rt)))) ∧
    (decode o (encI 0x2E#6 (regBits rs) (regBits rt) imm) = .ok (.swr rs rt imm) ∧
      ∃ t, exec (.swr rs rt imm) s = .next t ∧
      StoresBytes s t a (4 - n) (s.x rt)
        (readDiags b 4 ++ writeDiags b 4 (swrMerge (lane a) (readLE s.mem b 4) (s.x rt))))

/-- `43_stores.md` R196: a `swr`/`swl` pair, in either order, stores the word of `rt` at the
unaligned address and changes exactly its four bytes. Rests on the spec's own decisions D23, D24
(log entry 12). -/
def Obligations.UnalignedStorePairStoresWord : Prop :=
  ∀ (s : State) (rs rt : Reg) (k k3 : Half) (a : Word),
    (∀ p, s.pend = some p → p.reg ≠ rs ∧ p.reg ≠ rt) →
    k3.signExtend 32 = k.signExtend 32 + 3#32 → a = s.x rs + k.signExtend 32 →
    (∀ j, j < 4 → writable (a + BitVec.ofNat 32 j) = true) →
    (∃ t u, exec (.swr rs rt k) s = .next t ∧ exec (.swl rs rt k3) t = .next u ∧
      readLE u.mem a 4 = s.x rt ∧
      ∀ c, (∀ j, j < 4 → c ≠ a + BitVec.ofNat 32 j) → readU8 u.mem c = readU8 s.mem c) ∧
    (∃ t u, exec (.swl rs rt k3) s = .next t ∧ exec (.swr rs rt k) t = .next u ∧
      readLE u.mem a 4 = s.x rt ∧
      ∀ c, (∀ j, j < 4 → c ≠ a + BitVec.ofNat 32 j) → readU8 u.mem c = readU8 s.mem c)

/-! ### Jumps and branches -/

/-- `41_jumps_branches.md` R142 to R145: encodings, targets and links of the jumps, with their
frame; `pc` is A + 4 here, and the step then runs the delay slot and moves `pc` to the target. Rests
on the spec's own decisions D7, D8, D31 (log entry 12). -/
def Obligations.JumpTransfers : Prop :=
  ∀ (s : State) (rs rd : Reg) (target26 : BitVec 26) (jt : Word) (o : Bool)
    (b c d : BitVec 5),
    jt = (s.pc &&& 0xF0000000#32) ||| (target26.setWidth 32 <<< 2) →
    (decode o (encJ 0x02#6 target26) = .ok (.j target26) ∧
      ∃ t, exec (.j target26) s = .next t ∧ RequestsTransfer s t [] True jt) ∧
    (decode o (encJ 0x03#6 target26) = .ok (.jal target26) ∧
      ∃ t, exec (.jal target26) s = .next t ∧ RequestsTransfer s t [31] True jt) ∧
    (decode o (encR (regBits rs) b c d 0x08#6) = .ok (.jr rs) ∧
      ∃ t, exec (.jr rs) s = .next t ∧ RequestsTransfer s t [] True (s.x rs)) ∧
    (decode o (encR (regBits rs) b (regBits rd) d 0x09#6) = .ok (.jalr rs rd) ∧
      ∃ t, exec (.jalr rs rd) s = .next t ∧ RequestsTransfer s t [rd] True (s.x rs))

/-- `41_jumps_branches.md` R146 to R151: the encodings of the branches without a link, when they are
taken, and where to. `b` fills an ignored field. Rests on the spec's own decisions D8, D22 (log
entry 12). -/
def Obligations.BranchTransfers : Prop :=
  ∀ (s : State) (rs rt : Reg) (imm : Half) (bt : Word) (o : Bool) (b : BitVec 5),
    bt = s.pc + (imm.signExtend 32 <<< 2) →
    (decode o (encI 0x04#6 (regBits rs) (regBits rt) imm) = .ok (.beq rs rt imm) ∧
      ∃ t, exec (.beq rs rt imm) s = .next t ∧ RequestsTransfer s t [] (s.x rs = s.x rt) bt) ∧
    (decode o (encI 0x05#6 (regBits rs) (regBits rt) imm) = .ok (.bne rs rt imm) ∧
      ∃ t, exec (.bne rs rt imm) s = .next t ∧ RequestsTransfer s t [] (s.x rs ≠ s.x rt) bt) ∧
    (decode o (encI 0x06#6 (regBits rs) b imm) = .ok (.blez rs imm) ∧
      ∃ t, exec (.blez rs imm) s = .next t ∧ RequestsTransfer s t [] ((s.x rs).toInt ≤ 0) bt) ∧
    (decode o (encI 0x07#6 (regBits rs) b imm) = .ok (.bgtz rs imm) ∧
      ∃ t, exec (.bgtz rs imm) s = .next t ∧ RequestsTransfer s t [] (0 < (s.x rs).toInt) bt) ∧
    (decode o (encI 0x01#6 (regBits rs) 0x00#5 imm) = .ok (.bltz rs imm) ∧
      ∃ t, exec (.bltz rs imm) s = .next t ∧ RequestsTransfer s t [] ((s.x rs).toInt < 0) bt) ∧
    (decode o (encI 0x01#6 (regBits rs) 0x01#5 imm) = .ok (.bgez rs imm) ∧
      ∃ t, exec (.bgez rs imm) s = .next t ∧ RequestsTransfer s t [] (0 ≤ (s.x rs).toInt) bt)

/-- `41_jumps_branches.md` R152, R153: the and-link branches write register 31 whether or not they
are taken, and with `rs` = 31 test the link value just written. Rests on the spec's own decisions
D8, D22 (log entry 12). -/
def Obligations.LinkingBranchTransfers : Prop :=
  ∀ (s : State) (rs : Reg) (imm : Half) (bt tested : Word) (o : Bool),
    bt = s.pc + (imm.signExtend 32 <<< 2) →
    tested = (if rs = 31 then s.pc + 4#32 else s.x rs) →
    (decode o (encI 0x01#6 (regBits rs) 0x10#5 imm) = .ok (.bltzal rs imm) ∧
      ∃ t, exec (.bltzal rs imm) s = .next t ∧ RequestsTransfer s t [31] (tested.toInt < 0) bt) ∧
    (decode o (encI 0x01#6 (regBits rs) 0x11#5 imm) = .ok (.bgezal rs imm) ∧
      ∃ t, exec (.bgezal rs imm) s = .next t ∧ RequestsTransfer s t [31] (0 ≤ tested.toInt) bt)

/-- `41_jumps_branches.md` R154: jump targets and branch distances are multiples of 4; a register
jump's target is the register's content, unchecked. Rests on the spec's own decision D14 (log entry
12). -/
def Obligations.TargetsAreMultiplesOfFour : Prop :=
  ∀ (s : State) (target26 : BitVec 26) (imm : Half) (rs : Reg),
    (s.jtarget target26).toNat % 4 = 0 ∧ (s.btarget imm - s.pc).toNat % 4 = 0 ∧
    (∃ t, exec (.jr rs) s = .next t ∧ t.transfer = some (s.x rs)) ∧
    (∀ rd, ∃ t, exec (.jalr rs rd) s = .next t ∧ t.transfer = some (s.x rs))

/-! ### Host access to memory -/

/-- `20_memory.md` R75: the host reads a region byte with the routing of R52, and writes a byte of a
read/write region: that byte and no other, and nothing else of the state. Elsewhere R75 says nothing,
and the model's choice is that of the bus: an unmapped byte reads 0xFF, and a write to the ROM or to
unmapped space is discarded with a diagnostic (log entry 18). A poke keeps the canonical form of memory
(log entry 13). -/
def Obligations.HostPeekAndPoke : Prop :=
  ∀ (s : State) (a c : Word) (b : Byte),
    (∀ r off, route a = some (r, off) → peek s a = Memory.get s.mem (regionBase r + off)) ∧
    (route a = none → peek s a = 0xFF#8) ∧
    (writable a = true → (poke s a b).diags = s.diags ∧
      peek (poke s a b) c = if c = a then b else peek s c) ∧
    (writable a = false → poke s a b = { s with diags := s.diags ++ [.unmappedWrite a b] }) ∧
    { poke s a b with mem := s.mem, diags := s.diags } = s ∧
    (Memory.wf s.mem = true → Memory.wf (poke s a b).mem = true)
end

