-- ==== Sys2Proof/Laws/Arith.lean ====
section
/-! SUPPORT. The operand and condition functions of `Sys2Proof/Machine/Operands.lean` and
`Sys2Proof/Machine/Flags.lean` in integer terms: extension, comparison, and signed overflow. -/

namespace Sys2Proof.Machine

@[simp] theorem toInt_sext16 (v : Half) : (sext16 v).toInt = v.toInt := by
  simp [sext16, BitVec.toInt_signExtend_of_le]

@[simp] theorem toInt_sext8 (v : Byte) : (sext8 v).toInt = v.toInt := by
  simp [sext8, BitVec.toInt_signExtend_of_le]

/-- Zero extension puts zeros above the immediate. -/
theorem append_zero_left (v : Half) : (0#16 ++ v : BitVec (16 + 16)) = zext16 v := by
  have h := v.isLt
  apply BitVec.eq_of_toNat_eq
  refine (BitVec.toNat_append 0#16 v).trans ?_
  simp only [zext16, BitVec.toNat_ofNat, Nat.zero_mod, Nat.zero_shiftLeft, Nat.zero_or,
    BitVec.toNat_setWidth]
  omega

/-- The immediate of `lui` over sixteen zeros. -/
theorem append_zero_right (v : Half) : (v ++ 0#16 : BitVec (16 + 16)) = zext16 v <<< 16 := by
  have h := v.isLt
  apply BitVec.eq_of_toNat_eq
  refine (BitVec.toNat_append v 0#16).trans ?_
  simp only [zext16, BitVec.toNat_ofNat, Nat.zero_mod, Nat.or_zero, BitVec.toNat_shiftLeft,
    BitVec.toNat_setWidth, Nat.shiftLeft_eq]
  omega

theorem boolWord_lessSigned (a b : Word) :
    boolWord (lessSigned a b) = if a.toInt < b.toInt then 1#32 else 0#32 := by
  simp [boolWord, lessSigned]

theorem boolWord_lessUnsigned (a b : Word) :
    boolWord (lessUnsigned a b) = if a.toNat < b.toNat then 1#32 else 0#32 := by
  simp [boolWord, lessUnsigned]

theorem shiftAmount_eq (v : Word) : shiftAmount v = v.toNat % 32 := by
  simp [shiftAmount]

/-- The overflow test of R211 and R237 says exactly that the exact sum is out of range. -/
theorem addOverflows_iff (a b : Word) :
    addOverflows a b = true ↔ ¬ (-2 ^ 31 ≤ a.toInt + b.toInt ∧ a.toInt + b.toInt < 2 ^ 31) := by
  have h1 := a.isLt
  have h2 := b.isLt
  simp only [addOverflows, Bool.and_eq_true, beq_iff_eq, bne_iff_ne, BitVec.msb_eq_decide,
    BitVec.toInt_eq_toNat_cond, BitVec.toNat_add, decide_eq_decide, ne_eq]
  split <;> split <;> omega

/-- The overflow test of R239 says exactly that the exact difference is out of range. -/
theorem subOverflows_iff (a b : Word) :
    subOverflows a b = true ↔ ¬ (-2 ^ 31 ≤ a.toInt - b.toInt ∧ a.toInt - b.toInt < 2 ^ 31) := by
  have h1 := a.isLt
  have h2 := b.isLt
  simp only [subOverflows, Bool.and_eq_true, bne_iff_ne, BitVec.msb_eq_decide,
    BitVec.toInt_eq_toNat_cond, BitVec.toNat_sub, decide_eq_decide, ne_eq]
  split <;> split <;> omega

/-- The sum as an integer narrowed to a word. -/
theorem ofInt_add_toInt (a b : Word) : BitVec.ofInt 32 (a.toInt + b.toInt) = a + b := by
  rw [BitVec.ofInt_add, BitVec.ofInt_toInt, BitVec.ofInt_toInt]

/-- The difference as an integer narrowed to a word. -/
theorem ofInt_sub_toInt (a b : Word) : BitVec.ofInt 32 (a.toInt - b.toInt) = a - b := by
  apply BitVec.eq_of_toInt_eq
  rw [BitVec.toInt_ofInt, BitVec.toInt_sub]

end Sys2Proof.Machine
end

