-- ==== Sys2Proof/Laws/Memory.lean ====
section
/-! SUPPORT. Laws of memory and the bus: read after write, writes leave other bytes alone, and every
operation keeps the canonical form. -/

namespace Sys2Proof.Machine

/-! ### Lookup and update -/

theorem Memory.get_insert_same (m : Memory) (a : Nat) (b : Byte) :
    Memory.get (Memory.insert m a b) a = b := by
  induction m with
  | nil => simp [Memory.insert, Memory.get]
  | cons c m ih =>
    obtain ⟨k, v⟩ := c
    simp only [Memory.insert]
    split
    · simp [Memory.get]
    · split
      · simp [Memory.get]
      · next h => simp only [Memory.get, if_neg (Ne.symm h), ih]

theorem Memory.get_insert_other (m : Memory) {a c : Nat} (b : Byte) (h : c ≠ a) :
    Memory.get (Memory.insert m a b) c = Memory.get m c := by
  induction m with
  | nil => simp [Memory.insert, Memory.get, Ne.symm h]
  | cons d m ih =>
    obtain ⟨k, v⟩ := d
    simp only [Memory.insert]
    split
    · simp [Memory.get, Ne.symm h]
    · split
      · next e => subst e; simp [Memory.get, Ne.symm h]
      · simp only [Memory.get, ih]

theorem Memory.get_erase_same (m : Memory) (a : Nat) :
    Memory.get (Memory.erase m a) a = Memory.unlisted := by
  induction m with
  | nil => rfl
  | cons d m ih =>
    obtain ⟨k, v⟩ := d
    by_cases h : k = a
    · simpa [Memory.erase, h] using ih
    · simpa [Memory.erase, Memory.get, h] using ih

theorem Memory.get_erase_other (m : Memory) {a c : Nat} (h : c ≠ a) :
    Memory.get (Memory.erase m a) c = Memory.get m c := by
  induction m with
  | nil => rfl
  | cons d m ih =>
    obtain ⟨k, v⟩ := d
    by_cases hk : k = a
    · subst hk
      simpa [Memory.erase, Memory.get, Ne.symm h] using ih
    · by_cases hc : k = c
      · simp [Memory.erase, Memory.get, hc, h]
      · simpa [Memory.erase, Memory.get, hk, hc] using ih

@[simp] theorem Memory.get_set_same (m : Memory) (a : Nat) (b : Byte) :
    Memory.get (Memory.set m a b) a = b := by
  unfold Memory.set
  split
  · next h => rw [Memory.get_erase_same, h]
  · exact Memory.get_insert_same m a b

theorem Memory.get_set_other (m : Memory) {a c : Nat} (b : Byte) (h : c ≠ a) :
    Memory.get (Memory.set m a b) c = Memory.get m c := by
  unfold Memory.set
  split
  · exact Memory.get_erase_other m h
  · exact Memory.get_insert_other m b h

/-! ### The canonical form -/

/-- A bound below the keys may be lowered. -/
theorem Memory.risingFrom_mono {l k : Nat} (m : Memory) (h : l ≤ k)
    (hm : Memory.risingFrom (some k) m = true) : Memory.risingFrom (some l) m = true := by
  cases m with
  | nil => rfl
  | cons c m =>
    simp only [Memory.risingFrom, Bool.and_eq_true, decide_eq_true_eq] at hm ⊢
    exact ⟨by omega, hm.2⟩

theorem Memory.risingFrom_none {k : Nat} (m : Memory)
    (hm : Memory.risingFrom (some k) m = true) : Memory.risingFrom none m = true := by
  cases m with
  | nil => rfl
  | cons c m => simpa [Memory.risingFrom] using (by simpa [Memory.risingFrom] using hm : _ ∧ _).2

theorem Memory.risingFrom_erase (m : Memory) (a l : Nat)
    (hm : Memory.risingFrom (some l) m = true) :
    Memory.risingFrom (some l) (Memory.erase m a) = true := by
  induction m generalizing l with
  | nil => rfl
  | cons c m ih =>
    obtain ⟨k, v⟩ := c
    simp only [Memory.risingFrom, Bool.and_eq_true, decide_eq_true_eq] at hm
    have hk := ih k hm.2
    by_cases h : k = a
    · have : Memory.erase ((k, v) :: m) a = Memory.erase m a := by simp [Memory.erase, h]
      rw [this]
      exact Memory.risingFrom_mono _ (by omega) hk
    · have : Memory.erase ((k, v) :: m) a = (k, v) :: Memory.erase m a := by simp [Memory.erase, h]
      rw [this]
      simp [Memory.risingFrom, hm.1, hk]

theorem Memory.risingFrom_insert (m : Memory) (a l : Nat) (b : Byte) (hl : l < a)
    (hm : Memory.risingFrom (some l) m = true) :
    Memory.risingFrom (some l) (Memory.insert m a b) = true := by
  induction m generalizing l with
  | nil => simpa [Memory.insert, Memory.risingFrom] using hl
  | cons c m ih =>
    obtain ⟨k, v⟩ := c
    simp only [Memory.risingFrom, Bool.and_eq_true, decide_eq_true_eq] at hm
    simp only [Memory.insert]
    split
    · next h => simp [Memory.risingFrom, hl, h, hm.2]
    · split
      · next e => subst e; simp [Memory.risingFrom, hl, hm.2]
      · simp [Memory.risingFrom, hm.1, ih k (by omega) hm.2]

/-- The bound `none` is the bound "one below the first key". -/
theorem Memory.risingFrom_none_cons (k : Nat) (v : Byte) (m : Memory) :
    Memory.risingFrom none ((k, v) :: m) = Memory.risingFrom (some k) m := by
  simp [Memory.risingFrom]

theorem Memory.risingFrom_none_erase (m : Memory) (a : Nat)
    (hm : Memory.risingFrom none m = true) : Memory.risingFrom none (Memory.erase m a) = true := by
  cases m with
  | nil => rfl
  | cons c m =>
    obtain ⟨k, v⟩ := c
    rw [Memory.risingFrom_none_cons] at hm
    have hk := Memory.risingFrom_erase m a k hm
    by_cases h : k = a
    · have : Memory.erase ((k, v) :: m) a = Memory.erase m a := by simp [Memory.erase, h]
      rw [this]
      exact Memory.risingFrom_none _ hk
    · have : Memory.erase ((k, v) :: m) a = (k, v) :: Memory.erase m a := by simp [Memory.erase, h]
      rw [this, Memory.risingFrom_none_cons]
      exact hk

theorem Memory.risingFrom_none_insert (m : Memory) (a : Nat) (b : Byte)
    (hm : Memory.risingFrom none m = true) : Memory.risingFrom none (Memory.insert m a b) = true := by
  cases m with
  | nil => rfl
  | cons c m =>
    obtain ⟨k, v⟩ := c
    rw [Memory.risingFrom_none_cons] at hm
    simp only [Memory.insert]
    split
    · next h => simp [Memory.risingFrom, h, hm]
    · split
      · next e => subst e; simp [Memory.risingFrom, hm]
      · rw [Memory.risingFrom_none_cons]
        exact Memory.risingFrom_insert m a k b (by omega) hm

theorem Memory.all_erase (m : Memory) (a : Nat) (hm : m.all Memory.cellOk = true) :
    (Memory.erase m a).all Memory.cellOk = true := by
  rw [List.all_eq_true] at hm ⊢
  intro c hc
  exact hm c (List.mem_of_mem_filter hc)

theorem Memory.all_insert (m : Memory) (a : Nat) (b : Byte) (hc : Memory.cellOk (a, b) = true)
    (hm : m.all Memory.cellOk = true) : (Memory.insert m a b).all Memory.cellOk = true := by
  induction m with
  | nil => simpa [Memory.insert] using hc
  | cons d m ih =>
    obtain ⟨k, v⟩ := d
    simp only [List.all_cons, Bool.and_eq_true] at hm
    simp only [Memory.insert]
    split
    · simp [hc, hm.1, hm.2]
    · split
      · simp [hc, hm.2]
      · simp [hm.1, ih hm.2]

/-- Setting a byte of a region keeps the canonical form. -/
theorem Memory.wf_set (m : Memory) (a : Nat) (b : Byte) (ha : a < 2 ^ 32)
    (hr : (regionAt a).isSome = true) (hm : Memory.wf m = true) :
    Memory.wf (Memory.set m a b) = true := by
  simp only [Memory.wf, Bool.and_eq_true] at hm ⊢
  unfold Memory.set
  split
  · exact ⟨Memory.risingFrom_none_erase m a hm.1, Memory.all_erase m a hm.2⟩
  · next h =>
    have hc : Memory.cellOk (a, b) = true := by
      simp only [Memory.cellOk, Bool.and_eq_true, decide_eq_true_eq]
      exact ⟨⟨ha, hr⟩, h⟩
    exact ⟨Memory.risingFrom_none_insert m a b hm.1, Memory.all_insert m a b hc hm.2⟩

/-! ### Routing -/

theorem mapped_eq (a : Word) : mapped a = (regionAt a.toNat).isSome := by
  simp [mapped, route]

theorem mapped_of_writable {a : Word} (h : writable a = true) : mapped a = true := by
  unfold writable at h
  unfold mapped
  split at h
  · next e => simp [e]
  · simp at h

/-! ### The byte primitives -/

theorem readU8_unmapped (m : Memory) {a : Word} (h : mapped a = false) : readU8 m a = sentinel := by
  simp [readU8, h]

theorem writeU8_not_writable (m : Memory) {a : Word} (b : Byte) (h : writable a = false) :
    writeU8 m a b = m := by
  simp [writeU8, h]

theorem toNat_ne {a c : Word} (h : c ≠ a) : c.toNat ≠ a.toNat :=
  fun e => h (BitVec.eq_of_toNat_eq e)

theorem readU8_writeU8_same (m : Memory) {a : Word} (b : Byte) (h : writable a = true) :
    readU8 (writeU8 m a b) a = b := by
  simp [readU8, writeU8, h, mapped_of_writable h]

theorem readU8_writeU8_other (m : Memory) {a c : Word} (b : Byte) (h : c ≠ a) :
    readU8 (writeU8 m a b) c = readU8 m c := by
  unfold readU8 writeU8
  split
  · split
    · exact Memory.get_set_other m b (toNat_ne h)
    · rfl
  · rfl

/-- Everything a byte write does to the byte read at any address. -/
theorem readU8_writeU8 (m : Memory) (a c : Word) (b : Byte) :
    readU8 (writeU8 m a b) c = if c = a ∧ writable a = true then b else readU8 m c := by
  by_cases hc : c = a
  · subst hc
    cases hw : writable c
    · simp [writeU8_not_writable m b hw]
    · simp [readU8_writeU8_same m b hw]
  · simp [hc, readU8_writeU8_other m b hc]

theorem readU8_loadU8_same (m : Memory) {a : Word} (b : Byte) (h : mapped a = true) :
    readU8 (loadU8 m a b) a = b := by
  simp [readU8, loadU8, h]

theorem readU8_loadU8_other (m : Memory) {a c : Word} (b : Byte) (h : c ≠ a) :
    readU8 (loadU8 m a b) c = readU8 m c := by
  unfold readU8 loadU8
  split
  · split
    · exact Memory.get_set_other m b (toNat_ne h)
    · rfl
  · rfl

theorem wf_writeU8 (m : Memory) (a : Word) (b : Byte) (hm : Memory.wf m = true) :
    Memory.wf (writeU8 m a b) = true := by
  unfold writeU8
  split
  · next h =>
    exact Memory.wf_set m a.toNat b a.isLt (by rw [← mapped_eq]; exact mapped_of_writable h) hm
  · exact hm

theorem wf_loadU8 (m : Memory) (a : Word) (b : Byte) (hm : Memory.wf m = true) :
    Memory.wf (loadU8 m a b) = true := by
  unfold loadU8
  split
  · next h => exact Memory.wf_set m a.toNat b a.isLt (by rw [← mapped_eq]; exact h) hm
  · exact hm

/-! ### Wider accesses -/

theorem wf_writeLE (m : Memory) (a : Word) (n : Nat) (v : Word) (hm : Memory.wf m = true) :
    Memory.wf (writeLE m a n v) = true := by
  induction n generalizing m a v with
  | zero => exact hm
  | succ n ih => exact ih _ _ _ (wf_writeU8 m a _ hm)

/-- A byte that no instruction can write reads as before (the ROM, unmapped space). -/
theorem readU8_writeLE_not_writable (m : Memory) (a : Word) (n : Nat) (v : Word) {c : Word}
    (h : writable c = false) : readU8 (writeLE m a n v) c = readU8 m c := by
  induction n generalizing m a v with
  | zero => rfl
  | succ n ih =>
    rw [writeLE, ih, readU8_writeU8]
    split
    · next e => rw [e.1, e.2] at h; exact absurd h (by simp)
    · rfl

/-- A byte outside the `n` stored ones reads as before. -/
theorem readU8_writeLE_outside (m : Memory) (a : Word) (n : Nat) (v : Word) {c : Word}
    (h : ∀ k, k < n → c ≠ a + BitVec.ofNat 32 k) : readU8 (writeLE m a n v) c = readU8 m c := by
  induction n generalizing m a v with
  | zero => rfl
  | succ n ih =>
    rw [writeLE, ih, readU8_writeU8_other]
    · simpa using h 0 (by omega)
    · intro k hk
      have := h (k + 1) (by omega)
      rwa [Nat.add_comm k 1, BitVec.ofNat_add, ← BitVec.add_assoc] at this

theorem byteOf_shift (v : Word) (k : Nat) : byteOf (v >>> 8) k = byteOf v (k + 1) := by
  unfold byteOf
  ext i hi
  simp only [BitVec.getElem_extractLsb', BitVec.getLsbD_ushiftRight]
  congr 1
  omega

theorem byteOf_zero (v : Word) : byteOf v 0 = v.setWidth 8 := by
  unfold byteOf
  ext i hi
  simp [BitVec.getElem_extractLsb', BitVec.getElem_setWidth]

/-- Byte `k` of the `n` stored ones reads as byte `k` of the value, where it can be written. -/
theorem readU8_writeLE_inside (m : Memory) (a : Word) (n : Nat) (v : Word) {k : Nat} (hk : k < n)
    (hn : n ≤ 2 ^ 32) :
    readU8 (writeLE m a n v) (a + BitVec.ofNat 32 k) =
      if writable (a + BitVec.ofNat 32 k) then byteOf v k
      else readU8 m (a + BitVec.ofNat 32 k) := by
  cases hw : writable (a + BitVec.ofNat 32 k)
  · simpa using readU8_writeLE_not_writable m a n v hw
  simp only [if_true]
  induction n generalizing m a v k with
  | zero => omega
  | succ n ih =>
    rw [writeLE]
    cases k with
    | zero =>
      rw [readU8_writeLE_outside]
      · rw [show a + BitVec.ofNat 32 0 = a by simp] at hw ⊢
        rw [readU8_writeU8_same m _ hw, byteOf_zero]
      · intro j hj e
        have h3 := congrArg BitVec.toNat e
        simp only [BitVec.toNat_add, BitVec.toNat_ofNat] at h3
        have := a.isLt
        omega
    | succ k =>
      have e : a + BitVec.ofNat 32 (k + 1) = a + 1#32 + BitVec.ofNat 32 k := by
        rw [Nat.add_comm k 1, BitVec.ofNat_add, ← BitVec.add_assoc]
      rw [e] at hw ⊢
      rw [ih _ _ _ (by omega) (by omega) hw, byteOf_shift]

end Sys2Proof.Machine
end

