-- ==== Sys2Proof/Laws/Bytes.lean ====
section
/-! SUPPORT. Words as four bytes, the routing of an address, and the byte lanes of the unaligned loads
and stores. -/

namespace Sys2Proof.Machine

/-! ### Routing (`20_memory.md` R52) -/

theorem regionContains_iff (r : Region) (a : Nat) :
    regionContains r a = true ↔ regionBase r ≤ a ∧ a < regionBase r + regionSize r := by
  simp only [regionContains, Bool.and_eq_true, decide_eq_true_eq]

/-- The five ranges are disjoint. -/
theorem regionContains_unique {r q : Region} {a : Nat} (h : regionContains r a = true)
    (h' : regionContains q a = true) : r = q := by
  rw [regionContains_iff] at h h'
  cases r <;> cases q <;> first | rfl | (simp only [regionBase, regionSize] at h h'; omega)

theorem regionAt_isSome_iff (a : Nat) :
    (regionAt a).isSome = true ↔ ∃ r, regionContains r a = true := by
  unfold regionAt
  rw [List.find?_isSome]
  constructor
  · rintro ⟨r, -, h⟩; exact ⟨r, h⟩
  · rintro ⟨r, h⟩; exact ⟨r, by cases r <;> decide, h⟩

/-- An address is in the one region that contains it, whatever the decode order. -/
theorem regionAt_iff (a : Nat) (r : Region) : regionAt a = some r ↔ regionContains r a = true := by
  constructor
  · intro h
    exact List.find?_some (p := fun r => regionContains r a) h
  · intro h
    obtain ⟨q, hq⟩ := Option.isSome_iff_exists.1 ((regionAt_isSome_iff a).2 ⟨r, h⟩)
    rw [hq, regionContains_unique (List.find?_some (p := fun r => regionContains r a) hq) h]

theorem writable_iff (a : Word) :
    writable a = true ↔ ∃ r, regionContains r a.toNat = true ∧ regionWritable r = true := by
  unfold writable route
  cases h : regionAt a.toNat with
  | none =>
    simp only [Option.map_none, Bool.false_eq_true, false_iff]
    rintro ⟨r, hr, -⟩
    rw [(regionAt_iff _ _).2 hr] at h
    cases h
  | some q =>
    simp only [Option.map_some]
    constructor
    · intro hw; exact ⟨q, (regionAt_iff _ _).1 h, hw⟩
    · rintro ⟨r, hr, hw⟩
      rwa [regionContains_unique ((regionAt_iff _ _).1 h) hr]

/-! ### Words as bytes -/

/-- A word is determined by its four bytes. -/
theorem eq_of_bytes {v w : Word} (h : ∀ k, k < 4 → byteOf v k = byteOf w k) : v = w := by
  apply BitVec.eq_of_getLsbD_eq
  intro i hi
  have e := congrArg (fun b => b.getLsbD (i % 8)) (h (i / 8) (by omega))
  simp only [byteOf, BitVec.getLsbD_extractLsb'] at e
  simpa [show i % 8 < 8 by omega, show 8 * (i / 8) + i % 8 = i by omega] using e

/-- The bytes of a read are the bytes of memory (`20_memory.md` R61). -/
theorem byteOf_readLE (m : Memory) (a : Word) (n k : Nat) (hk : k < n) (hn : n ≤ 4) :
    byteOf (readLE m a n) k = readU8 m (a + BitVec.ofNat 32 k) := by
  induction n generalizing a k with
  | zero => omega
  | succ n ih =>
    rw [readLE]
    cases k with
    | zero =>
      rw [show a + BitVec.ofNat 32 0 = a by simp, byteOf_zero]
      ext i hi
      simp
    | succ k =>
      rw [Nat.add_comm k 1, BitVec.ofNat_add, ← BitVec.add_assoc, ← ih _ k (by omega) (by omega)]
      unfold byteOf
      ext i hi
      simp only [BitVec.getElem_extractLsb', BitVec.getLsbD_or, BitVec.getLsbD_setWidth,
        BitVec.getLsbD_shiftLeft]
      rw [BitVec.getLsbD_of_ge (readU8 m a) _ (by omega)]
      simp [show 8 * (1 + k) + i < 32 by omega, show ¬ (8 * (1 + k) + i < 8) by omega,
        show 8 * (1 + k) + i - 8 = 8 * k + i by omega]

/-- A read of one byte. -/
theorem readLE_byte (m : Memory) (a : Word) : (readLE m a 1).setWidth 8 = readU8 m a := by
  rw [← byteOf_zero, byteOf_readLE m a 1 0 (by omega) (by omega)]
  simp

/-- A read of two bytes, the higher address above. -/
theorem readLE_half (m : Memory) (a : Word) :
    (readLE m a 2).setWidth 16 = readU8 m (a + 1#32) ++ readU8 m a := by
  have h0 := byteOf_readLE m a 2 0 (by omega) (by omega)
  have h1 : _ = readU8 m (a + 1#32) := byteOf_readLE m a 2 1 (by omega) (by omega)
  rw [show a + BitVec.ofNat 32 0 = a by simp] at h0
  rw [← h0, ← h1]
  unfold byteOf
  apply BitVec.eq_of_getLsbD_eq
  intro i hi
  simp only [BitVec.getLsbD_append, BitVec.getLsbD_extractLsb', BitVec.getLsbD_setWidth]
  by_cases h : i < 8
  · simp [h]; omega
  · simp [h, show i - 8 < 8 by omega, show 8 + (i - 8) = i by omega]; omega

/-- A read of four bytes. -/
theorem readLE_word (m : Memory) (a : Word) :
    readLE m a 4 = readU8 m (a + 3#32) ++ readU8 m (a + 2#32) ++ readU8 m (a + 1#32) ++ readU8 m a := by
  have h0 := byteOf_readLE m a 4 0 (by omega) (by omega)
  have h1 : _ = readU8 m (a + 1#32) := byteOf_readLE m a 4 1 (by omega) (by omega)
  have h2 : _ = readU8 m (a + 2#32) := byteOf_readLE m a 4 2 (by omega) (by omega)
  have h3 : _ = readU8 m (a + 3#32) := byteOf_readLE m a 4 3 (by omega) (by omega)
  rw [show a + BitVec.ofNat 32 0 = a by simp] at h0
  rw [← h0, ← h1, ← h2, ← h3]
  unfold byteOf
  apply BitVec.eq_of_getLsbD_eq
  intro i hi
  simp only [BitVec.getLsbD_append, BitVec.getLsbD_extractLsb']
  by_cases h : i < 8
  · simp [h]
  by_cases h2 : i < 16
  · simp [h, show i - 8 < 8 by omega, show 8 + (i - 8) = i by omega]
  by_cases h3 : i < 24
  · simp [h, show ¬ i - 8 < 8 by omega, show i - 8 - 8 < 8 by omega,
      show 16 + (i - 8 - 8) = i by omega]
  · simp [h, show ¬ i - 8 < 8 by omega, show ¬ i - 8 - 8 < 8 by omega,
      show i - 8 - 8 - 8 < 8 by omega, show 24 + (i - 8 - 8 - 8) = i by omega]

/-- Memories that read alike at every byte read alike at every width. -/
theorem readLE_congr {m m' : Memory} (h : ∀ a, readU8 m a = readU8 m' a) (a : Word) (n : Nat) :
    readLE m a n = readLE m' a n := by
  induction n generalizing a with
  | zero => rfl
  | succ n ih => rw [readLE, readLE, h, ih]

@[simp] theorem byteOf_or (v w : Word) (k : Nat) : byteOf (v ||| w) k = byteOf v k ||| byteOf w k := by
  unfold byteOf; ext i hi; simp

@[simp] theorem byteOf_and (v w : Word) (k : Nat) :
    byteOf (v &&& w) k = byteOf v k &&& byteOf w k := by
  unfold byteOf; ext i hi; simp

/-- Shifting left by `j` bytes moves byte `k` to `k + j`. -/
theorem byteOf_shl (v : Word) (j k : Nat) (hk : k < 4) :
    byteOf (v <<< (8 * j)) k = if k < j then 0#8 else byteOf v (k - j) := by
  unfold byteOf
  ext i hi
  by_cases h : k < j
  · simp [h, show 8 * k + i < 8 * j by omega]
  · simp [h, show ¬ 8 * k + i < 8 * j by omega, show 8 * k + i < 32 by omega,
      show 8 * k + i - 8 * j = 8 * (k - j) + i by omega, BitVec.getLsbD_eq_getElem,
      show 8 * (k - j) + i < 32 by omega]

/-- Shifting right by `j` bytes moves byte `k + j` to `k`. -/
theorem byteOf_shr (v : Word) (j k : Nat) : byteOf (v >>> (8 * j)) k = byteOf v (k + j) := by
  unfold byteOf
  ext i hi
  simp only [BitVec.getElem_extractLsb', BitVec.getLsbD_ushiftRight]
  congr 1
  omega

theorem byteOf_ge (v : Word) {k : Nat} (h : 4 ≤ k) : byteOf v k = 0#8 := by
  unfold byteOf
  ext i hi
  simp [BitVec.getLsbD_of_ge v (8 * k + i) (by omega)]

theorem extract_beyond (v : Word) {s : Nat} (h : 32 ≤ s) : v.extractLsb' s 8 = 0#8 := by
  ext i hi
  simp [BitVec.getLsbD_of_ge v (s + i) (by omega)]

theorem and_ones8 (b : Byte) : b &&& 0xFF#8 = b := BitVec.and_allOnes

/-- A word is the word of its four bytes. -/
theorem wordOfBytes_byteOf (w : Word) :
    wordOfBytes (byteOf w 0) (byteOf w 1) (byteOf w 2) (byteOf w 3) = w := by
  unfold wordOfBytes byteOf
  apply BitVec.eq_of_getLsbD_eq
  intro i hi
  simp only [BitVec.getLsbD_append, BitVec.getLsbD_extractLsb']
  by_cases h : i < 8
  · simp [h]
  by_cases h2 : i < 16
  · simp [h, show i - 8 < 8 by omega, show 8 + (i - 8) = i by omega]
  by_cases h3 : i < 24
  · simp [h, show ¬ i - 8 < 8 by omega, show i - 8 - 8 < 8 by omega,
      show 16 + (i - 8 - 8) = i by omega]
  · simp [h, show ¬ i - 8 < 8 by omega, show ¬ i - 8 - 8 < 8 by omega,
      show i - 8 - 8 - 8 < 8 by omega, show 24 + (i - 8 - 8 - 8) = i by omega]

/-! ### Lanes (`42_loads.md` R176, R177; `43_stores.md` R194, R195) -/

theorem lane_toNat (a : Word) : (lane a).toNat = a.toNat % 4 := by
  simp [lane]

theorem lane_lt (a : Word) : (lane a).toNat < 4 := (lane a).isLt

/-- `lwl` keeps the low `3 - n` bytes and puts the memory bytes above. -/
theorem byteOf_lwlMerge (n : BitVec 2) (cur w : Word) (k : Nat) (hk : k < 4) :
    byteOf (lwlMerge n cur w) k =
      if 3 - n.toNat ≤ k then byteOf w (k - (3 - n.toNat)) else byteOf cur k := by
  have e := fun j => byteOf_shl w j k hk
  have hn : n = 0#2 ∨ n = 1#2 ∨ n = 2#2 ∨ n = 3#2 := by revert n; decide
  rcases hn with rfl | rfl | rfl | rfl
  · rw [lwlMerge, if_pos rfl, show w <<< 24 = w <<< (8 * 3) from rfl, byteOf_or, byteOf_and, e]
    obtain rfl | rfl | rfl | rfl : k = 0 ∨ k = 1 ∨ k = 2 ∨ k = 3 := by omega
    all_goals simp [byteOf, and_ones8]
  · rw [lwlMerge, if_neg (by decide), if_pos rfl, show w <<< 16 = w <<< (8 * 2) from rfl,
      byteOf_or, byteOf_and, e]
    obtain rfl | rfl | rfl | rfl : k = 0 ∨ k = 1 ∨ k = 2 ∨ k = 3 := by omega
    all_goals simp [byteOf, and_ones8]
  · rw [lwlMerge, if_neg (by decide), if_neg (by decide), if_pos rfl,
      show w <<< 8 = w <<< (8 * 1) from rfl, byteOf_or, byteOf_and, e]
    obtain rfl | rfl | rfl | rfl : k = 0 ∨ k = 1 ∨ k = 2 ∨ k = 3 := by omega
    all_goals simp [byteOf, and_ones8]
  · simp [lwlMerge]

/-- `lwr` puts the memory bytes from byte `n` up in the low `4 - n` bytes and keeps the others. -/
theorem byteOf_lwrMerge (n : BitVec 2) (cur w : Word) (k : Nat) (hk : k < 4) :
    byteOf (lwrMerge n cur w) k =
      if k < 4 - n.toNat then byteOf w (k + n.toNat) else byteOf cur k := by
  have e := fun j => byteOf_shr w j k
  have hn : n = 0#2 ∨ n = 1#2 ∨ n = 2#2 ∨ n = 3#2 := by revert n; decide
  rcases hn with rfl | rfl | rfl | rfl
  · simp [lwrMerge, hk]
  · rw [lwrMerge, if_neg (by decide), if_pos rfl, show w >>> 8 = w >>> (8 * 1) from rfl,
      byteOf_or, byteOf_and, e]
    obtain rfl | rfl | rfl | rfl : k = 0 ∨ k = 1 ∨ k = 2 ∨ k = 3 := by omega
    all_goals simp [byteOf, and_ones8, extract_beyond]
  · rw [lwrMerge, if_neg (by decide), if_neg (by decide), if_pos rfl,
      show w >>> 16 = w >>> (8 * 2) from rfl, byteOf_or, byteOf_and, e]
    obtain rfl | rfl | rfl | rfl : k = 0 ∨ k = 1 ∨ k = 2 ∨ k = 3 := by omega
    all_goals simp [byteOf, and_ones8, extract_beyond]
  · rw [lwrMerge, if_neg (by decide), if_neg (by decide), if_neg (by decide),
      show w >>> 24 = w >>> (8 * 3) from rfl, byteOf_or, byteOf_and, e]
    obtain rfl | rfl | rfl | rfl : k = 0 ∨ k = 1 ∨ k = 2 ∨ k = 3 := by omega
    all_goals simp [byteOf, and_ones8, extract_beyond]

/-- `swl` replaces the low `n + 1` bytes of the word by the top bytes of the register. -/
theorem byteOf_swlMerge (n : BitVec 2) (m r : Word) (k : Nat) (hk : k < 4) :
    byteOf (swlMerge n m r) k =
      if k < n.toNat + 1 then byteOf (r >>> (8 * (3 - n.toNat))) k else byteOf m k := by
  have hn : n = 0#2 ∨ n = 1#2 ∨ n = 2#2 ∨ n = 3#2 := by revert n; decide
  rcases hn with rfl | rfl | rfl | rfl
  · rw [byteOf_shr, swlMerge, if_pos rfl, show r >>> 24 = r >>> (8 * 3) from rfl, byteOf_or,
      byteOf_and, byteOf_shr]
    obtain rfl | rfl | rfl | rfl : k = 0 ∨ k = 1 ∨ k = 2 ∨ k = 3 := by omega
    all_goals simp [byteOf, and_ones8, extract_beyond]
  · rw [byteOf_shr, swlMerge, if_neg (by decide), if_pos rfl,
      show r >>> 16 = r >>> (8 * 2) from rfl, byteOf_or, byteOf_and, byteOf_shr]
    obtain rfl | rfl | rfl | rfl : k = 0 ∨ k = 1 ∨ k = 2 ∨ k = 3 := by omega
    all_goals simp [byteOf, and_ones8, extract_beyond]
  · rw [byteOf_shr, swlMerge, if_neg (by decide), if_neg (by decide), if_pos rfl,
      show r >>> 8 = r >>> (8 * 1) from rfl, byteOf_or, byteOf_and, byteOf_shr]
    obtain rfl | rfl | rfl | rfl : k = 0 ∨ k = 1 ∨ k = 2 ∨ k = 3 := by omega
    all_goals simp [byteOf, and_ones8, extract_beyond]
  · simp [swlMerge, hk]

/-- `swr` replaces the bytes of the word from byte `n` up by the low bytes of the register. -/
theorem byteOf_swrMerge (n : BitVec 2) (m r : Word) (k : Nat) (hk : k < 4) :
    byteOf (swrMerge n m r) k =
      if n.toNat ≤ k then byteOf r (k - n.toNat) else byteOf m k := by
  have e := fun j => byteOf_shl r j k hk
  have hn : n = 0#2 ∨ n = 1#2 ∨ n = 2#2 ∨ n = 3#2 := by revert n; decide
  rcases hn with rfl | rfl | rfl | rfl
  · simp [swrMerge]
  · rw [swrMerge, if_neg (by decide), if_pos rfl, show r <<< 8 = r <<< (8 * 1) from rfl,
      byteOf_or, byteOf_and, e]
    obtain rfl | rfl | rfl | rfl : k = 0 ∨ k = 1 ∨ k = 2 ∨ k = 3 := by omega
    all_goals simp [byteOf, and_ones8]
  · rw [swrMerge, if_neg (by decide), if_neg (by decide), if_pos rfl,
      show r <<< 16 = r <<< (8 * 2) from rfl, byteOf_or, byteOf_and, e]
    obtain rfl | rfl | rfl | rfl : k = 0 ∨ k = 1 ∨ k = 2 ∨ k = 3 := by omega
    all_goals simp [byteOf, and_ones8]
  · rw [swrMerge, if_neg (by decide), if_neg (by decide), if_neg (by decide),
      show r <<< 24 = r <<< (8 * 3) from rfl, byteOf_or, byteOf_and, e]
    obtain rfl | rfl | rfl | rfl : k = 0 ∨ k = 1 ∨ k = 2 ∨ k = 3 := by omega
    all_goals simp [byteOf, and_ones8]

/-! ### The aligned word that contains an address -/

theorem alignWord_eq_shift (a : Word) : alignWord a = (a >>> 2) <<< 2 := by
  have hb : ∀ i, i < 32 → (0xFFFFFFFC#32).getLsbD i = decide (2 ≤ i) := by decide
  unfold alignWord
  apply BitVec.eq_of_getLsbD_eq
  intro i hi
  rw [BitVec.getLsbD_and, hb i hi, BitVec.getLsbD_shiftLeft, BitVec.getLsbD_ushiftRight]
  by_cases h : i < 2
  · simp [h, show ¬ 2 ≤ i by omega]
  · simp [h, hi, show 2 ≤ i by omega, show 2 + (i - 2) = i by omega]

theorem alignWord_toNat (a : Word) : (alignWord a).toNat = a.toNat - a.toNat % 4 := by
  have h := a.isLt
  rw [alignWord_eq_shift, BitVec.toNat_shiftLeft, BitVec.toNat_ushiftRight, Nat.shiftLeft_eq,
    Nat.shiftRight_eq_div_pow]
  omega

/-- An address is its aligned word's address plus its lane. -/
theorem alignWord_add_lane (a : Word) : alignWord a + BitVec.ofNat 32 (lane a).toNat = a := by
  apply BitVec.eq_of_toNat_eq
  have h := a.isLt
  rw [BitVec.toNat_add, BitVec.toNat_ofNat, lane_toNat, alignWord_toNat]
  omega

theorem alignWord_add_toNat (a : Word) {k : Nat} (hk : k < 4) :
    (alignWord a + BitVec.ofNat 32 k).toNat = a.toNat - a.toNat % 4 + k := by
  have h := a.isLt
  rw [BitVec.toNat_add, BitVec.toNat_ofNat, alignWord_toNat]
  omega

/-- The four bytes of an aligned word are all writable or none is: every region's base and size are
multiples of 4 (`43_stores.md` R194). -/
theorem writable_alignWord (a : Word) {j k : Nat} (hj : j < 4) (hk : k < 4) :
    writable (alignWord a + BitVec.ofNat 32 j) = writable (alignWord a + BitVec.ofNat 32 k) := by
  have key : ∀ {j k : Nat}, j < 4 → k < 4 → writable (alignWord a + BitVec.ofNat 32 j) = true →
      writable (alignWord a + BitVec.ofNat 32 k) = true := by
    intro j k hj hk h
    rw [writable_iff] at h ⊢
    obtain ⟨r, hr, hw⟩ := h
    refine ⟨r, ?_, hw⟩
    rw [regionContains_iff, alignWord_add_toNat a hj] at hr
    rw [regionContains_iff, alignWord_add_toNat a hk]
    cases r <;> simp only [regionBase, regionSize] at hr ⊢ <;> omega
  rw [Bool.eq_iff_iff]
  exact ⟨key hj hk, key hk hj⟩

end Sys2Proof.Machine
end

