-- ==== Sys2Proof/Laws/State.lean ====
section
/-! SUPPORT. One lemma per field per update of the state, so that no proof unfolds a record update:
`setX`, `land`, `noteRead`, `memWrite`, and what each update does to the register view `State.x`. -/

namespace Sys2Proof.Machine

/-! ### `State.setX` writes nothing but the register file -/

@[simp] theorem setX_hi (s : State) (i : Reg) (v : Word) : (s.setX i v).hi = s.hi := by
  unfold State.setX; split <;> rfl
@[simp] theorem setX_lo (s : State) (i : Reg) (v : Word) : (s.setX i v).lo = s.lo := by
  unfold State.setX; split <;> rfl
@[simp] theorem setX_pc (s : State) (i : Reg) (v : Word) : (s.setX i v).pc = s.pc := by
  unfold State.setX; split <;> rfl
@[simp] theorem setX_ds (s : State) (i : Reg) (v : Word) : (s.setX i v).ds = s.ds := by
  unfold State.setX; split <;> rfl
@[simp] theorem setX_pend (s : State) (i : Reg) (v : Word) : (s.setX i v).pend = s.pend := by
  unfold State.setX; split <;> rfl
@[simp] theorem setX_halted (s : State) (i : Reg) (v : Word) : (s.setX i v).halted = s.halted := by
  unfold State.setX; split <;> rfl
@[simp] theorem setX_mem (s : State) (i : Reg) (v : Word) : (s.setX i v).mem = s.mem := by
  unfold State.setX; split <;> rfl
@[simp] theorem setX_iw (s : State) (i : Reg) (v : Word) : (s.setX i v).iw = s.iw := by
  unfold State.setX; split <;> rfl
@[simp] theorem setX_transfer (s : State) (i : Reg) (v : Word) : (s.setX i v).transfer = s.transfer := by
  unfold State.setX; split <;> rfl
@[simp] theorem setX_diags (s : State) (i : Reg) (v : Word) : (s.setX i v).diags = s.diags := by
  unfold State.setX; split <;> rfl
@[simp] theorem setX_params (s : State) (i : Reg) (v : Word) : (s.setX i v).params = s.params := by
  unfold State.setX; split <;> rfl

/-! ### The updates of one field -/

@[simp] theorem setPend_regs (s : State) (v : Option PendingLoad) : (s.setPend v).regs = s.regs := rfl
@[simp] theorem setPend_hi (s : State) (v : Option PendingLoad) : (s.setPend v).hi = s.hi := rfl
@[simp] theorem setPend_lo (s : State) (v : Option PendingLoad) : (s.setPend v).lo = s.lo := rfl
@[simp] theorem setPend_pc (s : State) (v : Option PendingLoad) : (s.setPend v).pc = s.pc := rfl
@[simp] theorem setPend_ds (s : State) (v : Option PendingLoad) : (s.setPend v).ds = s.ds := rfl
@[simp] theorem setPend_pend (s : State) (v : Option PendingLoad) : (s.setPend v).pend = v := rfl
@[simp] theorem setPend_halted (s : State) (v : Option PendingLoad) : (s.setPend v).halted = s.halted := rfl
@[simp] theorem setPend_mem (s : State) (v : Option PendingLoad) : (s.setPend v).mem = s.mem := rfl
@[simp] theorem setPend_iw (s : State) (v : Option PendingLoad) : (s.setPend v).iw = s.iw := rfl
@[simp] theorem setPend_transfer (s : State) (v : Option PendingLoad) : (s.setPend v).transfer = s.transfer := rfl
@[simp] theorem setPend_diags (s : State) (v : Option PendingLoad) : (s.setPend v).diags = s.diags := rfl
@[simp] theorem setPend_params (s : State) (v : Option PendingLoad) : (s.setPend v).params = s.params := rfl
@[simp] theorem x_setPend (s : State) (v : Option PendingLoad) (q : Reg) : (s.setPend v).x q = s.x q := rfl
@[simp] theorem setHalted_regs (s : State) (v : RunState) : (s.setHalted v).regs = s.regs := rfl
@[simp] theorem setHalted_hi (s : State) (v : RunState) : (s.setHalted v).hi = s.hi := rfl
@[simp] theorem setHalted_lo (s : State) (v : RunState) : (s.setHalted v).lo = s.lo := rfl
@[simp] theorem setHalted_pc (s : State) (v : RunState) : (s.setHalted v).pc = s.pc := rfl
@[simp] theorem setHalted_ds (s : State) (v : RunState) : (s.setHalted v).ds = s.ds := rfl
@[simp] theorem setHalted_pend (s : State) (v : RunState) : (s.setHalted v).pend = s.pend := rfl
@[simp] theorem setHalted_halted (s : State) (v : RunState) : (s.setHalted v).halted = v := rfl
@[simp] theorem setHalted_mem (s : State) (v : RunState) : (s.setHalted v).mem = s.mem := rfl
@[simp] theorem setHalted_iw (s : State) (v : RunState) : (s.setHalted v).iw = s.iw := rfl
@[simp] theorem setHalted_transfer (s : State) (v : RunState) : (s.setHalted v).transfer = s.transfer := rfl
@[simp] theorem setHalted_diags (s : State) (v : RunState) : (s.setHalted v).diags = s.diags := rfl
@[simp] theorem setHalted_params (s : State) (v : RunState) : (s.setHalted v).params = s.params := rfl
@[simp] theorem x_setHalted (s : State) (v : RunState) (q : Reg) : (s.setHalted v).x q = s.x q := rfl
@[simp] theorem setPc_regs (s : State) (v : Word) : (s.setPc v).regs = s.regs := rfl
@[simp] theorem setPc_hi (s : State) (v : Word) : (s.setPc v).hi = s.hi := rfl
@[simp] theorem setPc_lo (s : State) (v : Word) : (s.setPc v).lo = s.lo := rfl
@[simp] theorem setPc_pc (s : State) (v : Word) : (s.setPc v).pc = v := rfl
@[simp] theorem setPc_ds (s : State) (v : Word) : (s.setPc v).ds = s.ds := rfl
@[simp] theorem setPc_pend (s : State) (v : Word) : (s.setPc v).pend = s.pend := rfl
@[simp] theorem setPc_halted (s : State) (v : Word) : (s.setPc v).halted = s.halted := rfl
@[simp] theorem setPc_mem (s : State) (v : Word) : (s.setPc v).mem = s.mem := rfl
@[simp] theorem setPc_iw (s : State) (v : Word) : (s.setPc v).iw = s.iw := rfl
@[simp] theorem setPc_transfer (s : State) (v : Word) : (s.setPc v).transfer = s.transfer := rfl
@[simp] theorem setPc_diags (s : State) (v : Word) : (s.setPc v).diags = s.diags := rfl
@[simp] theorem setPc_params (s : State) (v : Word) : (s.setPc v).params = s.params := rfl
@[simp] theorem x_setPc (s : State) (v : Word) (q : Reg) : (s.setPc v).x q = s.x q := rfl
@[simp] theorem setTransfer_regs (s : State) (v : Option Word) : (s.setTransfer v).regs = s.regs := rfl
@[simp] theorem setTransfer_hi (s : State) (v : Option Word) : (s.setTransfer v).hi = s.hi := rfl
@[simp] theorem setTransfer_lo (s : State) (v : Option Word) : (s.setTransfer v).lo = s.lo := rfl
@[simp] theorem setTransfer_pc (s : State) (v : Option Word) : (s.setTransfer v).pc = s.pc := rfl
@[simp] theorem setTransfer_ds (s : State) (v : Option Word) : (s.setTransfer v).ds = s.ds := rfl
@[simp] theorem setTransfer_pend (s : State) (v : Option Word) : (s.setTransfer v).pend = s.pend := rfl
@[simp] theorem setTransfer_halted (s : State) (v : Option Word) : (s.setTransfer v).halted = s.halted := rfl
@[simp] theorem setTransfer_mem (s : State) (v : Option Word) : (s.setTransfer v).mem = s.mem := rfl
@[simp] theorem setTransfer_iw (s : State) (v : Option Word) : (s.setTransfer v).iw = s.iw := rfl
@[simp] theorem setTransfer_transfer (s : State) (v : Option Word) : (s.setTransfer v).transfer = v := rfl
@[simp] theorem setTransfer_diags (s : State) (v : Option Word) : (s.setTransfer v).diags = s.diags := rfl
@[simp] theorem setTransfer_params (s : State) (v : Option Word) : (s.setTransfer v).params = s.params := rfl
@[simp] theorem x_setTransfer (s : State) (v : Option Word) (q : Reg) : (s.setTransfer v).x q = s.x q := rfl

/-! ### `State.land` writes nothing but the register file and the pending load -/

@[simp] theorem land_hi (s : State) (ws : List Reg) : (s.land ws).hi = s.hi := by
  unfold State.land; split
  · rfl
  · dsimp only; split <;> simp
@[simp] theorem land_lo (s : State) (ws : List Reg) : (s.land ws).lo = s.lo := by
  unfold State.land; split
  · rfl
  · dsimp only; split <;> simp
@[simp] theorem land_pc (s : State) (ws : List Reg) : (s.land ws).pc = s.pc := by
  unfold State.land; split
  · rfl
  · dsimp only; split <;> simp
@[simp] theorem land_ds (s : State) (ws : List Reg) : (s.land ws).ds = s.ds := by
  unfold State.land; split
  · rfl
  · dsimp only; split <;> simp
@[simp] theorem land_halted (s : State) (ws : List Reg) : (s.land ws).halted = s.halted := by
  unfold State.land; split
  · rfl
  · dsimp only; split <;> simp
@[simp] theorem land_mem (s : State) (ws : List Reg) : (s.land ws).mem = s.mem := by
  unfold State.land; split
  · rfl
  · dsimp only; split <;> simp
@[simp] theorem land_iw (s : State) (ws : List Reg) : (s.land ws).iw = s.iw := by
  unfold State.land; split
  · rfl
  · dsimp only; split <;> simp
@[simp] theorem land_transfer (s : State) (ws : List Reg) : (s.land ws).transfer = s.transfer := by
  unfold State.land; split
  · rfl
  · dsimp only; split <;> simp
@[simp] theorem land_diags (s : State) (ws : List Reg) : (s.land ws).diags = s.diags := by
  unfold State.land; split
  · rfl
  · dsimp only; split <;> simp
@[simp] theorem land_params (s : State) (ws : List Reg) : (s.land ws).params = s.params := by
  unfold State.land; split
  · rfl
  · dsimp only; split <;> simp
@[simp] theorem land_pend (s : State) (ws : List Reg) : (s.land ws).pend = none := by
  unfold State.land; split
  · assumption
  · dsimp only; split <;> simp

/-! ### `State.noteRead` and `State.memWrite` -/

@[simp] theorem noteRead_regs (s : State) (a : Word) (n : Nat) :
    (s.noteRead a n).regs = s.regs := rfl
@[simp] theorem noteRead_hi (s : State) (a : Word) (n : Nat) :
    (s.noteRead a n).hi = s.hi := rfl
@[simp] theorem noteRead_lo (s : State) (a : Word) (n : Nat) :
    (s.noteRead a n).lo = s.lo := rfl
@[simp] theorem noteRead_pc (s : State) (a : Word) (n : Nat) :
    (s.noteRead a n).pc = s.pc := rfl
@[simp] theorem noteRead_ds (s : State) (a : Word) (n : Nat) :
    (s.noteRead a n).ds = s.ds := rfl
@[simp] theorem noteRead_pend (s : State) (a : Word) (n : Nat) :
    (s.noteRead a n).pend = s.pend := rfl
@[simp] theorem noteRead_halted (s : State) (a : Word) (n : Nat) :
    (s.noteRead a n).halted = s.halted := rfl
@[simp] theorem noteRead_mem (s : State) (a : Word) (n : Nat) :
    (s.noteRead a n).mem = s.mem := rfl
@[simp] theorem noteRead_iw (s : State) (a : Word) (n : Nat) :
    (s.noteRead a n).iw = s.iw := rfl
@[simp] theorem noteRead_transfer (s : State) (a : Word) (n : Nat) :
    (s.noteRead a n).transfer = s.transfer := rfl
@[simp] theorem noteRead_diags (s : State) (a : Word) (n : Nat) :
    (s.noteRead a n).diags = s.diags ++ readDiags a n := rfl
@[simp] theorem noteRead_params (s : State) (a : Word) (n : Nat) :
    (s.noteRead a n).params = s.params := rfl
@[simp] theorem memWrite_regs (s : State) (a : Word) (n : Nat) (v : Word) :
    (s.memWrite a n v).regs = s.regs := rfl
@[simp] theorem memWrite_hi (s : State) (a : Word) (n : Nat) (v : Word) :
    (s.memWrite a n v).hi = s.hi := rfl
@[simp] theorem memWrite_lo (s : State) (a : Word) (n : Nat) (v : Word) :
    (s.memWrite a n v).lo = s.lo := rfl
@[simp] theorem memWrite_pc (s : State) (a : Word) (n : Nat) (v : Word) :
    (s.memWrite a n v).pc = s.pc := rfl
@[simp] theorem memWrite_ds (s : State) (a : Word) (n : Nat) (v : Word) :
    (s.memWrite a n v).ds = s.ds := rfl
@[simp] theorem memWrite_pend (s : State) (a : Word) (n : Nat) (v : Word) :
    (s.memWrite a n v).pend = s.pend := rfl
@[simp] theorem memWrite_halted (s : State) (a : Word) (n : Nat) (v : Word) :
    (s.memWrite a n v).halted = s.halted := rfl
@[simp] theorem memWrite_mem (s : State) (a : Word) (n : Nat) (v : Word) :
    (s.memWrite a n v).mem = writeLE s.mem a n v := rfl
@[simp] theorem memWrite_iw (s : State) (a : Word) (n : Nat) (v : Word) :
    (s.memWrite a n v).iw = s.iw := rfl
@[simp] theorem memWrite_transfer (s : State) (a : Word) (n : Nat) (v : Word) :
    (s.memWrite a n v).transfer = s.transfer := rfl
@[simp] theorem memWrite_diags (s : State) (a : Word) (n : Nat) (v : Word) :
    (s.memWrite a n v).diags = s.diags ++ writeDiags a n v := rfl
@[simp] theorem memWrite_params (s : State) (a : Word) (n : Nat) (v : Word) :
    (s.memWrite a n v).params = s.params := rfl

/-! ### The register view -/

/-- The view depends on the register file alone. -/
theorem x_congr {s t : State} (h : t.regs = s.regs) (q : Reg) : t.x q = s.x q := by
  simp [State.x, h]

@[simp] theorem x_zero (s : State) : s.x 0 = 0#32 := rfl

@[simp] theorem x_noteRead (s : State) (a : Word) (n : Nat) (q : Reg) :
    (s.noteRead a n).x q = s.x q := rfl
@[simp] theorem x_memWrite (s : State) (a : Word) (n : Nat) (v : Word) (q : Reg) :
    (s.memWrite a n v).x q = s.x q := rfl

/-- What a register write does to every register (`10_state.md` R22). -/
theorem x_setX (s : State) (i : Reg) (v : Word) (q : Reg) :
    (s.setX i v).x q = if q = 0 then 0#32 else if q = i then v else s.x q := by
  unfold State.setX State.x
  by_cases hq : q = 0
  · simp [hq]
  by_cases hi : i = 0
  · subst hi; simp [hq]
  simp only [hq, hi, if_false]
  by_cases h : q = i
  · subst h; simp [Vector.get_eq_getElem]
  · have h' : ¬ i.val = q.val := fun e => h (Fin.ext e.symm)
    simp [Vector.get_eq_getElem, h, h']

/-- The slot of register 0 in the file stays as it is. -/
theorem get_zero_setX (s : State) (i : Reg) (v : Word) :
    (s.setX i v).regs.get 0 = s.regs.get 0 := by
  unfold State.setX
  split
  · rfl
  · next h =>
    have h' : ¬ i.val = 0 := fun e => h (Fin.ext e)
    simp [Vector.get_eq_getElem, h']

theorem get_zero_land (s : State) (ws : List Reg) : (s.land ws).regs.get 0 = s.regs.get 0 := by
  unfold State.land
  split
  · rfl
  · dsimp only
    split
    · rw [setPend_regs]
    · rw [get_zero_setX, setPend_regs]

end Sys2Proof.Machine
end

