-- ==== Sys2Proof/Laws/Ops.lean ====
section
/-! SUPPORT. One lemma for each shared operation, saying once everything it does in the terms of
`Sys2Proof/Safety.lean`; later proofs cite these and do not unfold the operation. -/

namespace Sys2Proof.Machine

/-! ### Landing (`40_execution_cycle.md` R125) -/

@[simp] theorem landedX_zero (s : State) : landedX s 0 = 0#32 := by
  unfold landedX
  split <;> simp

/-- With no load in flight every register keeps its content. -/
theorem landedX_of_pend_none {s : State} (h : s.pend = none) (q : Reg) : landedX s q = s.x q := by
  simp [landedX, h]

/-- The landed value depends on the pending load and the register view alone. -/
theorem landedX_congr {s t : State} (hp : t.pend = s.pend) (hx : ∀ q, t.x q = s.x q) (q : Reg) :
    landedX t q = landedX s q := by
  simp [landedX, hp, hx]

/-- What landing does to every register: the in-flight value goes to its register unless the
instruction wrote that register. -/
theorem x_land (s : State) (ws : List Reg) (q : Reg) :
    (s.land ws).x q = if q ∈ ws then s.x q else landedX s q := by
  unfold State.land landedX
  cases h : s.pend with
  | none => simp
  | some p =>
    by_cases hp : p.reg ∈ ws
    · simp only [hp, if_true]
      by_cases hq : q ∈ ws
      · simp [hq]
      · have hne : p.reg ≠ q := fun e => hq (e ▸ hp)
        simp [hq, hne]
    · simp only [hp, if_false]
      rw [x_setX]
      by_cases hq0 : q = 0
      · subst hq0; simp
      by_cases hq : q = p.reg
      · subst hq; simp [hp, hq0]
      · have hne : p.reg ≠ q := fun e => hq e.symm
        simp [hq0, hq, hne]

/-- Landing after a write to `rd`, for an instruction that wrote only `rd`. -/
theorem x_setX_land (s : State) (rd : Reg) (v : Word) (q : Reg) :
    ((s.setX rd v).land [rd]).x q = if q = 0 then 0#32 else if q = rd then v else landedX s q := by
  rw [x_land]
  by_cases h0 : q = 0
  · subst h0; simp
  by_cases hq : q = rd
  · subst hq; simp [x_setX, h0]
  · simp [hq, h0, landedX, x_setX]

/-! ### How an instruction cycle ends -/

theorem retireWrite_spec (rd : Reg) (v : Word) (s : State) :
    ∃ t, retireWrite rd v s = .next t ∧ WritesOnly s t rd v := by
  refine ⟨_, rfl, fun q => x_setX_land s rd v q, ?_⟩
  simp [SameFixed, SameMemory]

theorem retireLoad_spec (rt : Reg) (v a : Word) (n : Nat) (s : State) :
    ∃ t, retireLoad rt v a n s = .next t ∧ SchedulesLoad s t rt v a n := by
  refine ⟨_, rfl, fun q => ?_, ?_⟩
  · simp [x_land, landedX]
  · simp [SameFixed, SameMemory]

theorem retireStore_spec (a : Word) (n : Nat) (v : Word) (s : State) (hn : n ≤ 2 ^ 32) :
    ∃ t, retireStore a n v s = .next t ∧ StoresBytes s t a n v (writeDiags a n v) := by
  refine ⟨_, rfl, fun q => ?_, ?_⟩
  · simp [x_land, landedX]
  · simp only [SameFixed, land_hi, land_lo, land_pc, land_ds, land_iw, land_params, land_pend,
      land_halted, land_transfer, land_mem, land_diags, memWrite_hi, memWrite_lo, memWrite_pc,
      memWrite_ds, memWrite_iw, memWrite_params, memWrite_halted, memWrite_transfer, memWrite_mem,
      memWrite_diags, and_self, true_and, and_true]
    exact ⟨fun k hk => readU8_writeLE_inside s.mem a n v hk hn,
      fun b hb => readU8_writeLE_outside s.mem a n v hb⟩

/-- The end of `swl` and `swr`, which read the word before they write it. -/
theorem retireStore_noteRead_spec (a : Word) (n : Nat) (v : Word) (s : State) (hn : n ≤ 2 ^ 32) :
    ∃ t, retireStore a n v (s.noteRead a n) = .next t ∧
      StoresBytes s t a n v (readDiags a n ++ writeDiags a n v) := by
  obtain ⟨t, ht, hs⟩ := retireStore_spec a n v (s.noteRead a n) hn
  refine ⟨t, ht, ?_⟩
  simpa [StoresBytes, landedX, SameFixed, List.append_assoc] using hs

theorem raiseHalt_spec (cause : HaltCause) (s : State) :
    ∃ t, raiseHalt cause s = .next t ∧ Halts s t cause := by
  refine ⟨_, rfl, fun q => ?_, ?_⟩
  · simp [x_land]
  · simp [SameFixed, SameMemory]

/-- The end of a jump or branch that writes no link. -/
theorem retireTransfer_spec (taken : Bool) (target : Word) (s : State) :
    ∃ t, retireTransfer taken target [] s = .next t ∧
      RequestsTransfer s t [] (taken = true) target := by
  refine ⟨_, rfl, ?_⟩
  cases taken <;> simp [RequestsTransfer, x_land, SameFixed, SameMemory]

/-- The end of a jump or branch that wrote the link value to `rd`. -/
theorem retireTransfer_link_spec (taken : Bool) (target : Word) (rd : Reg) (s : State) :
    ∃ t, retireTransfer taken target [rd] (s.setX rd s.link) = .next t ∧
      RequestsTransfer s t [rd] (taken = true) target := by
  refine ⟨_, rfl, ?_⟩
  cases taken <;> simp [RequestsTransfer, x_setX_land, State.link, SameFixed, SameMemory]

/-! ### What keeps the invariant -/

theorem wf_memWrite (s : State) (a : Word) (n : Nat) (v : Word) (h : Memory.wf s.mem = true) :
    Memory.wf (s.memWrite a n v).mem = true := by
  simpa using wf_writeLE s.mem a n v h

/-! ### Fetch (`40_execution_cycle.md` R121, R122) -/

@[simp] theorem fetch_regs (s : State) : (fetch s).regs = s.regs := rfl
@[simp] theorem fetch_hi (s : State) : (fetch s).hi = s.hi := rfl
@[simp] theorem fetch_lo (s : State) : (fetch s).lo = s.lo := rfl
@[simp] theorem fetch_pc (s : State) : (fetch s).pc = s.pc + 4#32 := rfl
@[simp] theorem fetch_ds (s : State) : (fetch s).ds = readLE s.mem (s.pc + 4#32) 4 := rfl
@[simp] theorem fetch_pend (s : State) : (fetch s).pend = s.pend := rfl
@[simp] theorem fetch_halted (s : State) : (fetch s).halted = s.halted := rfl
@[simp] theorem fetch_mem (s : State) : (fetch s).mem = s.mem := rfl
@[simp] theorem fetch_iw (s : State) : (fetch s).iw = readLE s.mem s.pc 4 := rfl
@[simp] theorem fetch_transfer (s : State) : (fetch s).transfer = none := rfl
@[simp] theorem fetch_params (s : State) : (fetch s).params = s.params := rfl
@[simp] theorem x_fetch (s : State) (q : Reg) : (fetch s).x q = s.x q := rfl
@[simp] theorem landedX_fetch (s : State) (q : Reg) : landedX (fetch s) q = landedX s q := rfl

/-! ### The step (`40_execution_cycle.md` R120) -/

@[simp] theorem enterSlot_iw (s : State) : s.enterSlot.iw = s.ds := rfl
@[simp] theorem enterSlot_transfer (s : State) : s.enterSlot.transfer = none := rfl
@[simp] theorem enterSlot_regs (s : State) : s.enterSlot.regs = s.regs := rfl
@[simp] theorem enterSlot_hi (s : State) : s.enterSlot.hi = s.hi := rfl
@[simp] theorem enterSlot_lo (s : State) : s.enterSlot.lo = s.lo := rfl
@[simp] theorem enterSlot_pc (s : State) : s.enterSlot.pc = s.pc := rfl
@[simp] theorem enterSlot_ds (s : State) : s.enterSlot.ds = s.ds := rfl
@[simp] theorem enterSlot_pend (s : State) : s.enterSlot.pend = s.pend := rfl
@[simp] theorem enterSlot_halted (s : State) : s.enterSlot.halted = s.halted := rfl
@[simp] theorem enterSlot_mem (s : State) : s.enterSlot.mem = s.mem := rfl
@[simp] theorem enterSlot_diags (s : State) : s.enterSlot.diags = s.diags := rfl
@[simp] theorem enterSlot_params (s : State) : s.enterSlot.params = s.params := rfl
@[simp] theorem x_enterSlot (s : State) (q : Reg) : s.enterSlot.x q = s.x q := rfl

theorem step_running {s : State} (h : s.halted = .running) : step s = runFetched (fetch s) := by
  simp [step, h]

theorem step_halted {s : State} (h : s.halted ≠ .running) : step s = .next s := by
  unfold step
  cases e : s.halted with
  | running => exact absurd e h
  | halted c w => rfl

end Sys2Proof.Machine
end

