-- ==== Sys2Proof/Laws/Exec.lean ====
section
/-! SUPPORT. What `exec` can do, said once: every meaning ends in one of the shared endings of
`Sys2Proof/Machine/Ops.lean`. Proofs over all instructions split on `exec_shape` and cite the lemma of
the ending. -/

namespace Sys2Proof.Machine

/-- The six ways a meaning ends. -/
inductive ExecShape (i : Instr) (s : State) : Prop where
  | write (rd : Reg) (v : Word) (he : exec i s = retireWrite rd v s)
      (hw : writtenRegs i = [rd]) (ht : i.isTransfer = false)
  | load (rt : Reg) (v a : Word) (n : Nat) (he : exec i s = retireLoad rt v a n s)
      (hw : writtenRegs i = []) (ht : i.isTransfer = false)
  | store (a : Word) (n : Nat) (v : Word) (u : State) (he : exec i s = retireStore a n v u)
      (hu : u = s ∨ u = s.noteRead a n) (hn : n ≤ 4) (hw : writtenRegs i = [])
      (ht : i.isTransfer = false)
  | transfer (taken : Bool) (target : Word) (he : exec i s = retireTransfer taken target [] s)
      (hw : writtenRegs i = []) (ht : i.isTransfer = true)
  | link (taken : Bool) (target : Word) (rd : Reg)
      (he : exec i s = retireTransfer taken target [rd] (s.setX rd s.link))
      (hw : writtenRegs i = [rd]) (ht : i.isTransfer = true)
  | halt (he : exec i s = raiseHalt .integerOverflow s) (ht : i.isTransfer = false)

theorem exec_shape (i : Instr) (s : State) : ExecShape i s := by
  cases i with
  | addi rs rt imm =>
    by_cases h : addOverflows (s.x rs) (sext16 imm) = true
    · exact .halt (by simp [exec, execAddi, h]) rfl
    · exact .write rt (s.x rs + sext16 imm) (by simp only [exec, execAddi, if_neg h]) rfl rfl
  | add rs rt rd =>
    by_cases h : addOverflows (s.x rs) (s.x rt) = true
    · exact .halt (by simp [exec, execAdd, h]) rfl
    · exact .write rd (s.x rs + s.x rt) (by simp only [exec, execAdd, if_neg h]) rfl rfl
  | sub rs rt rd =>
    by_cases h : subOverflows (s.x rs) (s.x rt) = true
    · exact .halt (by simp [exec, execSub, h]) rfl
    · exact .write rd (s.x rs - s.x rt) (by simp only [exec, execSub, if_neg h]) rfl rfl
  | addiu | slti | sltiu | andi | ori | xori | lui => exact .write _ _ rfl rfl rfl
  | sll | srl | sra | sllv | srlv | srav => exact .write _ _ rfl rfl rfl
  | addu | subu | and | or | xor | nor | slt | sltu => exact .write _ _ rfl rfl rfl
  | lb | lh | lwl | lw | lbu | lhu | lwr => exact .load _ _ _ _ rfl rfl rfl
  | sb | sh | sw => exact .store _ _ _ _ rfl (.inl rfl) (by omega) rfl rfl
  | swl | swr => exact .store _ _ _ _ rfl (.inr rfl) (by omega) rfl rfl
  | j | jr | beq | bne | blez | bgtz | bltz | bgez => exact .transfer _ _ rfl rfl rfl
  | jal | jalr | bltzal | bgezal => exact .link _ _ _ rfl rfl rfl

/-! ### Consequences for every instruction -/

/-- Every meaning answers a next state. -/
theorem exec_next (i : Instr) (s : State) : ∃ t, exec i s = .next t := by
  cases exec_shape i s with
  | write _ _ he | load _ _ _ _ he | transfer _ _ he | link _ _ _ he | halt he => exact ⟨_, he⟩
  | store _ _ _ _ he => exact ⟨_, he⟩

/-- No meaning touches `hi`, `lo`, `pc`, `ds`, the word under execution or the parameters. -/
theorem exec_sameFixed {i : Instr} {s t : State} (h : exec i s = .next t) : SameFixed s t := by
  cases exec_shape i s with
  | write _ _ he | load _ _ _ _ he | halt he =>
    rw [he] at h; cases h; simp [SameFixed]
  | store _ _ _ u he hu =>
    rw [he] at h; cases h; rcases hu with rfl | rfl <;> simp [SameFixed]
  | transfer taken _ he | link taken _ _ he =>
    rw [he] at h; cases h; cases taken <;> simp [SameFixed]

/-- Only a jump or branch asks for a transfer. -/
theorem exec_transfer_of_not_isTransfer {i : Instr} {s t : State} (hi : i.isTransfer = false)
    (h : exec i s = .next t) : t.transfer = s.transfer := by
  cases exec_shape i s with
  | write _ _ he | load _ _ _ _ he | halt he => rw [he] at h; cases h; simp
  | store _ _ _ u he hu => rw [he] at h; cases h; rcases hu with rfl | rfl <;> simp
  | transfer _ _ _ _ ht | link _ _ _ _ _ ht => rw [hi] at ht; cases ht

/-- A jump or branch does not halt, leaves no load in flight and does not touch memory. -/
theorem exec_of_isTransfer {i : Instr} {s t : State} (hi : i.isTransfer = true)
    (h : exec i s = .next t) : t.halted = s.halted ∧ t.pend = none ∧ t.mem = s.mem := by
  cases exec_shape i s with
  | write _ _ _ _ ht | load _ _ _ _ _ _ ht | halt _ ht => rw [hi] at ht; cases ht
  | store _ _ _ _ _ _ _ _ ht => rw [hi] at ht; cases ht
  | transfer taken _ he | link taken _ _ he => rw [he] at h; cases h; cases taken <;> simp

/-- The and-link branches test `testedAfterLink`. -/
theorem x_setX_link (s : State) (rs : Reg) : (s.setX 31 s.link).x rs = testedAfterLink s rs := by
  rw [x_setX, testedAfterLink, State.link]
  by_cases h0 : rs = 0
  · subst h0; rfl
  · simp [h0]

/-- A transfer that is not taken is not asked for. -/
theorem transfer_of_not_taken {taken : Bool} {target : Word} {links : List Reg} {s t : State}
    (h : retireTransfer taken target links s = .next t) (hf : taken = false) :
    t.transfer = s.transfer := by
  subst hf; cases h; simp

/-- A branch whose condition is false is a branch, and asks for no transfer. -/
theorem exec_of_conditionFalse {i : Instr} {s t : State} (hc : conditionFalse s i)
    (h : exec i s = .next t) : i.isTransfer = true ∧ t.transfer = s.transfer := by
  cases i <;> try exact hc.elim
  all_goals
    refine ⟨rfl, (transfer_of_not_taken h ?_).trans (by simp)⟩
    simpa [conditionFalse, x_setX_link] using hc

/-- The only cause a meaning halts with is IntegerOverflow. -/
theorem exec_halted {i : Instr} {s t : State} (h : exec i s = .next t) :
    t.halted = s.halted ∨ t.halted = .halted .integerOverflow s.iw := by
  cases exec_shape i s with
  | write _ _ he | load _ _ _ _ he => rw [he] at h; cases h; simp
  | halt he => rw [he] at h; cases h; simp
  | store _ _ _ u he hu => rw [he] at h; cases h; rcases hu with rfl | rfl <;> simp
  | transfer taken _ he | link taken _ _ he => rw [he] at h; cases h; cases taken <;> simp

/-- Every meaning keeps memory in its canonical form. -/
theorem exec_wf {i : Instr} {s t : State} (h : exec i s = .next t) (hm : Memory.wf s.mem = true) :
    Memory.wf t.mem = true := by
  cases exec_shape i s with
  | write _ _ he | load _ _ _ _ he | halt he => rw [he] at h; cases h; simpa using hm
  | store a n v u he hu =>
    rw [he] at h; cases h
    rcases hu with hu | hu <;> simpa [hu] using wf_writeLE s.mem a n v hm
  | transfer taken _ he | link taken _ _ he =>
    rw [he] at h; cases h; cases taken <;> simpa using hm

/-- No meaning changes a byte that cannot be written. -/
theorem exec_not_writable {i : Instr} {s t : State} (h : exec i s = .next t) {a : Word}
    (ha : writable a = false) : readU8 t.mem a = readU8 s.mem a := by
  cases exec_shape i s with
  | write _ _ he | load _ _ _ _ he | halt he => rw [he] at h; cases h; simp
  | store b n v u he hu =>
    rw [he] at h; cases h
    rcases hu with hu | hu <;> simpa [hu] using readU8_writeLE_not_writable s.mem b n v ha
  | transfer taken _ he | link taken _ _ he => rw [he] at h; cases h; cases taken <;> simp

/-- Every meaning keeps the slot of register 0. -/
theorem exec_get_zero {i : Instr} {s t : State} (h : exec i s = .next t) :
    t.regs.get 0 = s.regs.get 0 := by
  cases exec_shape i s with
  | write _ _ he | load _ _ _ _ he | halt he =>
    rw [he] at h; cases h; simp [get_zero_land, get_zero_setX]
  | store _ _ _ u he hu =>
    rw [he] at h; cases h; rcases hu with rfl | rfl <;> simp [get_zero_land]
  | transfer taken _ he | link taken _ _ he =>
    rw [he] at h; cases h; cases taken <;> simp [get_zero_land, get_zero_setX]

/-- The cycle of a state whose word decodes. -/
theorem cycle_of_decode {slot : Bool} {s : State} {i : Instr}
    (hd : decode s.params.specialAlu s.iw = .ok i) (hs : (slot && i.isTransfer) = false) :
    cycle slot s = exec i s := by
  simp [cycle, hd, hs]

/-- The cycle of a state whose word is undefined. -/
theorem cycle_of_undefined {slot : Bool} {s : State} {e : DecodeError}
    (hd : decode s.params.specialAlu s.iw = .error e) :
    cycle slot s = raiseHalt .undefinedInstruction s := by
  simp [cycle, hd]

end Sys2Proof.Machine
end

