-- ==== Sys2Proof/Laws/Fields.lean ====
section
/-! SUPPORT. The fields of an encoded word: what the decoder's extractors read from the three
formats, and how a mask selects a table entry. -/

namespace Sys2Proof

@[simp] theorem regOf_regBits (r : Reg) : regOf (regBits r) = r := rfl
@[simp] theorem regBits_regOf (b : BitVec 5) : regBits (regOf b) = b := rfl

/-- Extracting from an append, when the slice lies in the low part. -/
theorem extract_append_low {a b : Nat} (x : BitVec a) (y : BitVec b) (start len : Nat)
    (h : start + len ≤ b) : (x ++ y).extractLsb' start len = y.extractLsb' start len := by
  ext i hi
  simp only [BitVec.getElem_extractLsb', BitVec.getLsbD_append]
  rw [if_pos (by omega)]

/-- Extracting from an append, when the slice lies in the high part. -/
theorem extract_append_high {a b : Nat} (x : BitVec a) (y : BitVec b) (start len : Nat)
    (h : b ≤ start) : (x ++ y).extractLsb' start len = x.extractLsb' (start - b) len := by
  ext i hi
  simp only [BitVec.getElem_extractLsb', BitVec.getLsbD_append]
  rw [if_neg (by omega)]
  congr 1
  omega

theorem extract_all {a : Nat} (x : BitVec a) : x.extractLsb' 0 a = x := by
  ext i hi
  simp

section
variable (op : BitVec 6) (rs rt rd sh : BitVec 5) (funct : BitVec 6) (imm : Half) (t : BitVec 26)

@[simp] theorem opField_encJ : opField (encJ op t) = op := by
  change BitVec.extractLsb' 26 6
    (op ++ t : BitVec (6 + 26)) = op
  rw [extract_append_high _ _ _ _ (by omega), extract_all]
@[simp] theorem targetField_encJ : targetField (encJ op t) = t := by
  change BitVec.extractLsb' 0 26
    (op ++ t : BitVec (6 + 26)) = t
  rw [extract_append_low _ _ _ _ (by omega), extract_all]

@[simp] theorem opField_encI : opField (encI op rs rt imm) = op := by
  change BitVec.extractLsb' 26 6
    (op ++ (rs ++ (rt ++ imm)) : BitVec (6 + (5 + (5 + 16)))) = op
  rw [extract_append_high _ _ _ _ (by omega), extract_all]
@[simp] theorem rsBits_encI : rsBits (encI op rs rt imm) = rs := by
  change BitVec.extractLsb' 21 5
    (op ++ (rs ++ (rt ++ imm)) : BitVec (6 + (5 + (5 + 16)))) = rs
  rw [extract_append_low _ _ _ _ (by omega), extract_append_high _ _ _ _ (by omega), extract_all]
@[simp] theorem rtBits_encI : rtBits (encI op rs rt imm) = rt := by
  change BitVec.extractLsb' 16 5
    (op ++ (rs ++ (rt ++ imm)) : BitVec (6 + (5 + (5 + 16)))) = rt
  rw [extract_append_low _ _ _ _ (by omega), extract_append_low _ _ _ _ (by omega), extract_append_high _ _ _ _ (by omega), extract_all]
@[simp] theorem immField_encI : immField (encI op rs rt imm) = imm := by
  change BitVec.extractLsb' 0 16
    (op ++ (rs ++ (rt ++ imm)) : BitVec (6 + (5 + (5 + 16)))) = imm
  rw [extract_append_low _ _ _ _ (by omega), extract_append_low _ _ _ _ (by omega), extract_append_low _ _ _ _ (by omega), extract_all]

@[simp] theorem opField_encR : opField (encR rs rt rd sh funct) = 0#6 := by
  change BitVec.extractLsb' 26 6
    (0#6 ++ (rs ++ (rt ++ (rd ++ (sh ++ funct)))) : BitVec (6 + (5 + (5 + (5 + (5 + 6)))))) = 0#6
  rw [extract_append_high _ _ _ _ (by omega), extract_all]
@[simp] theorem rsBits_encR : rsBits (encR rs rt rd sh funct) = rs := by
  change BitVec.extractLsb' 21 5
    (0#6 ++ (rs ++ (rt ++ (rd ++ (sh ++ funct)))) : BitVec (6 + (5 + (5 + (5 + (5 + 6)))))) = rs
  rw [extract_append_low _ _ _ _ (by omega), extract_append_high _ _ _ _ (by omega), extract_all]
@[simp] theorem rtBits_encR : rtBits (encR rs rt rd sh funct) = rt := by
  change BitVec.extractLsb' 16 5
    (0#6 ++ (rs ++ (rt ++ (rd ++ (sh ++ funct)))) : BitVec (6 + (5 + (5 + (5 + (5 + 6)))))) = rt
  rw [extract_append_low _ _ _ _ (by omega), extract_append_low _ _ _ _ (by omega), extract_append_high _ _ _ _ (by omega), extract_all]
@[simp] theorem rdBits_encR : rdBits (encR rs rt rd sh funct) = rd := by
  change BitVec.extractLsb' 11 5
    (0#6 ++ (rs ++ (rt ++ (rd ++ (sh ++ funct)))) : BitVec (6 + (5 + (5 + (5 + (5 + 6)))))) = rd
  rw [extract_append_low _ _ _ _ (by omega), extract_append_low _ _ _ _ (by omega), extract_append_low _ _ _ _ (by omega), extract_append_high _ _ _ _ (by omega), extract_all]
@[simp] theorem shamtField_encR : shamtField (encR rs rt rd sh funct) = sh := by
  change BitVec.extractLsb' 6 5
    (0#6 ++ (rs ++ (rt ++ (rd ++ (sh ++ funct)))) : BitVec (6 + (5 + (5 + (5 + (5 + 6)))))) = sh
  rw [extract_append_low _ _ _ _ (by omega), extract_append_low _ _ _ _ (by omega), extract_append_low _ _ _ _ (by omega), extract_append_low _ _ _ _ (by omega), extract_append_high _ _ _ _ (by omega), extract_all]
@[simp] theorem functField_encR : functField (encR rs rt rd sh funct) = funct := by
  change BitVec.extractLsb' 0 6
    (0#6 ++ (rs ++ (rt ++ (rd ++ (sh ++ funct)))) : BitVec (6 + (5 + (5 + (5 + (5 + 6)))))) = funct
  rw [extract_append_low _ _ _ _ (by omega), extract_append_low _ _ _ _ (by omega), extract_append_low _ _ _ _ (by omega), extract_append_low _ _ _ _ (by omega), extract_append_low _ _ _ _ (by omega), extract_all]

/-! ### Masks (R108) -/

theorem and_ones6 (x : BitVec 6) : x &&& 0x3F#6 = x := BitVec.and_allOnes
theorem and_ones5 (x : BitVec 5) : x &&& 0x1F#5 = x := BitVec.and_allOnes

/-- The mask of the I-format and J-format rows keeps `op`. -/
theorem encJ_and_mask : encJ op t &&& 0xFC000000#32 = encJ op 0#26 := by
  change (op ++ t : BitVec (6 + 26)) &&& (0x3F#6 ++ 0#26 : BitVec (6 + 26)) = op ++ 0#26
  rw [BitVec.and_append, and_ones6, BitVec.and_zero]

theorem encI_and_mask : encI op rs rt imm &&& 0xFC000000#32 = encJ op 0#26 :=
  encJ_and_mask op (rs ++ (rt ++ imm))

/-- The mask of the bcond rows keeps `op` and `rt`. -/
theorem encI_and_bcond_mask : encI op rs rt imm &&& 0xFC1F0000#32 = encI op 0#5 rt 0#16 := by
  change (op ++ (rs ++ (rt ++ imm)) : BitVec (6 + (5 + (5 + 16)))) &&&
    (0x3F#6 ++ (0#5 ++ (0x1F#5 ++ 0#16)) : BitVec (6 + (5 + (5 + 16)))) = op ++ (0#5 ++ (rt ++ 0#16))
  rw [BitVec.and_append, BitVec.and_append, BitVec.and_append, and_ones6, and_ones5,
    BitVec.and_zero, BitVec.and_zero]

/-- The mask of the special rows keeps `op` and `funct`. -/
theorem encR_and_mask :
    encR rs rt rd sh funct &&& 0xFC00003F#32 = encR 0#5 0#5 0#5 0#5 funct := by
  change (0#6 ++ (rs ++ (rt ++ (rd ++ (sh ++ funct)))) : BitVec (6 + (5 + (5 + (5 + (5 + 6)))))) &&&
    (0x3F#6 ++ (0#5 ++ (0#5 ++ (0#5 ++ (0#5 ++ 0x3F#6)))) : BitVec (6 + (5 + (5 + (5 + (5 + 6)))))) =
      0#6 ++ (0#5 ++ (0#5 ++ (0#5 ++ (0#5 ++ funct))))
  simp only [BitVec.and_append, and_ones6, BitVec.and_zero]

/-- Every word is its primary opcode and the 26 bits below. -/
theorem eq_encJ (w : Word) : w = encJ (opField w) (targetField w) := by
  change w = (w.extractLsb' 26 6 ++ w.extractLsb' 0 26 : BitVec (6 + 26))
  apply BitVec.eq_of_getLsbD_eq
  intro i hi
  simp only [BitVec.getLsbD_append, BitVec.getLsbD_extractLsb']
  split
  · next h => simp [h]
  · next h => simp [show i - 26 < 6 by omega, show 26 + (i - 26) = i by omega]

end

end Sys2Proof
end

