-- ==== Sys2Proof/Laws/Host.lean ====
section
/-! SUPPORT. What the host's acts between steps change (`Sys2Proof/Machine/Inspect.lean`): one lemma per
field of a poke and of a BIOS load, the frame of a poke, and the canonical form of memory. -/

namespace Sys2Proof.Machine

@[simp] theorem poke_regs (s : State) (a : Word) (b : Byte) : (poke s a b).regs = s.regs := rfl
@[simp] theorem poke_pc (s : State) (a : Word) (b : Byte) : (poke s a b).pc = s.pc := rfl
@[simp] theorem poke_pend (s : State) (a : Word) (b : Byte) : (poke s a b).pend = s.pend := rfl
@[simp] theorem poke_halted (s : State) (a : Word) (b : Byte) : (poke s a b).halted = s.halted := rfl
@[simp] theorem poke_params (s : State) (a : Word) (b : Byte) : (poke s a b).params = s.params := rfl
@[simp] theorem poke_mem (s : State) (a : Word) (b : Byte) : (poke s a b).mem = writeU8 s.mem a b := rfl
@[simp] theorem poke_diags (s : State) (a : Word) (b : Byte) :
    (poke s a b).diags = s.diags ++ writeDiag a b := rfl

/-- What a byte peeks as after a poke (R75). -/
theorem peek_poke (s : State) (a c : Word) (b : Byte) (h : writable a = true) :
    peek (poke s a b) c = if c = a then b else peek s c := by
  simp [peek, readU8_writeU8, h]

/-- A poke of a byte that cannot be written changes the diagnostics alone (log entry 18). -/
theorem poke_not_writable (s : State) {a : Word} (b : Byte) (h : writable a = false) :
    poke s a b = { s with diags := s.diags ++ [.unmappedWrite a b] } := by
  simp [poke, writeU8, writeDiag, h]

/-- A poke keeps memory in its canonical form. -/
theorem wf_poke (s : State) (a : Word) (b : Byte) (h : Memory.wf s.mem = true) :
    Memory.wf (poke s a b).mem = true := wf_writeU8 s.mem a b h

/-- Storing an image keeps memory in its canonical form. -/
theorem wf_loadBytes (m : Memory) (a : Word) (bs : List Byte) (h : Memory.wf m = true) :
    Memory.wf (loadBytes m a bs) = true := by
  induction bs generalizing m a with
  | nil => exact h
  | cons b bs ih => exact ih _ _ (wf_loadU8 m a b h)

@[simp] theorem loadBios_regs (s : State) (bs : List Byte) : (loadBios s bs).regs = s.regs := by
  unfold loadBios; split <;> rfl
@[simp] theorem loadBios_pc (s : State) (bs : List Byte) : (loadBios s bs).pc = s.pc := by
  unfold loadBios; split <;> rfl
@[simp] theorem loadBios_pend (s : State) (bs : List Byte) : (loadBios s bs).pend = s.pend := by
  unfold loadBios; split <;> rfl
@[simp] theorem loadBios_halted (s : State) (bs : List Byte) :
    (loadBios s bs).halted = s.halted := by
  unfold loadBios; split <;> rfl
@[simp] theorem loadBios_params (s : State) (bs : List Byte) :
    (loadBios s bs).params = s.params := by
  unfold loadBios; split <;> rfl

/-- A BIOS load, accepted or not, keeps memory in its canonical form. -/
theorem wf_loadBios (s : State) (bs : List Byte) (h : Memory.wf s.mem = true) :
    Memory.wf (loadBios s bs).mem = true := by
  unfold loadBios
  split
  · exact wf_loadBytes _ _ _ h
  · exact h

end Sys2Proof.Machine
end

