-- ==== Sys2Proof/Laws/PerInstr.lean ====
section
/-! SUPPORT. Statements made once per instruction, for the host's case split over all of them. -/

namespace Sys2Proof

/-- The canonical word of an instruction is selected by a row of the opcode table with the
instruction's mnemonic and option mark (`30_encoding.md` R108). -/
def Laws.EncodesItsRow.Statement (i : Instr) : Prop :=
  ∃ r ∈ opcodeRows, r.mnemonic = i.mnemonic ∧ r.isOption = i.isOption ∧ r.selects (encode i) = true

/-- The row at place `n` of the table is the instruction's. -/
theorem encodesItsRow_of_row {i : Instr} (r : OpcodeRow) (hr : r ∈ opcodeRows)
    (hm : r.mnemonic = i.mnemonic) (ho : r.isOption = i.isOption)
    (hw : encode i &&& r.mask = r.pattern) : Laws.EncodesItsRow.Statement i :=
  ⟨r, hr, hm, ho, by simp [OpcodeRow.selects, hw]⟩

theorem Laws.EncodesItsRow.j (target26 : BitVec 26) : Laws.EncodesItsRow.Statement (.j target26) :=
  encodesItsRow_of_row ⟨"j", 0x08000000, 0xFC000000, false⟩ (by decide) rfl rfl
    (encJ_and_mask _ _)

theorem Laws.EncodesItsRow.jal (target26 : BitVec 26) : Laws.EncodesItsRow.Statement (.jal target26) :=
  encodesItsRow_of_row ⟨"jal", 0x0C000000, 0xFC000000, false⟩ (by decide) rfl rfl
    (encJ_and_mask _ _)

theorem Laws.EncodesItsRow.beq (rs rt : Reg) (imm16 : Half) : Laws.EncodesItsRow.Statement (.beq rs rt imm16) :=
  encodesItsRow_of_row ⟨"beq", 0x10000000, 0xFC000000, false⟩ (by decide) rfl rfl
    (encI_and_mask _ _ _ _)

theorem Laws.EncodesItsRow.bne (rs rt : Reg) (imm16 : Half) : Laws.EncodesItsRow.Statement (.bne rs rt imm16) :=
  encodesItsRow_of_row ⟨"bne", 0x14000000, 0xFC000000, false⟩ (by decide) rfl rfl
    (encI_and_mask _ _ _ _)

theorem Laws.EncodesItsRow.blez (rs : Reg) (imm16 : Half) : Laws.EncodesItsRow.Statement (.blez rs imm16) :=
  encodesItsRow_of_row ⟨"blez", 0x18000000, 0xFC000000, false⟩ (by decide) rfl rfl
    (encI_and_mask _ _ _ _)

theorem Laws.EncodesItsRow.bgtz (rs : Reg) (imm16 : Half) : Laws.EncodesItsRow.Statement (.bgtz rs imm16) :=
  encodesItsRow_of_row ⟨"bgtz", 0x1C000000, 0xFC000000, false⟩ (by decide) rfl rfl
    (encI_and_mask _ _ _ _)

theorem Laws.EncodesItsRow.addi (rs rt : Reg) (imm16 : Half) : Laws.EncodesItsRow.Statement (.addi rs rt imm16) :=
  encodesItsRow_of_row ⟨"addi", 0x20000000, 0xFC000000, false⟩ (by decide) rfl rfl
    (encI_and_mask _ _ _ _)

theorem Laws.EncodesItsRow.addiu (rs rt : Reg) (imm16 : Half) : Laws.EncodesItsRow.Statement (.addiu rs rt imm16) :=
  encodesItsRow_of_row ⟨"addiu", 0x24000000, 0xFC000000, false⟩ (by decide) rfl rfl
    (encI_and_mask _ _ _ _)

theorem Laws.EncodesItsRow.slti (rs rt : Reg) (imm16 : Half) : Laws.EncodesItsRow.Statement (.slti rs rt imm16) :=
  encodesItsRow_of_row ⟨"slti", 0x28000000, 0xFC000000, false⟩ (by decide) rfl rfl
    (encI_and_mask _ _ _ _)

theorem Laws.EncodesItsRow.sltiu (rs rt : Reg) (imm16 : Half) : Laws.EncodesItsRow.Statement (.sltiu rs rt imm16) :=
  encodesItsRow_of_row ⟨"sltiu", 0x2C000000, 0xFC000000, false⟩ (by decide) rfl rfl
    (encI_and_mask _ _ _ _)

theorem Laws.EncodesItsRow.andi (rs rt : Reg) (imm16 : Half) : Laws.EncodesItsRow.Statement (.andi rs rt imm16) :=
  encodesItsRow_of_row ⟨"andi", 0x30000000, 0xFC000000, false⟩ (by decide) rfl rfl
    (encI_and_mask _ _ _ _)

theorem Laws.EncodesItsRow.ori (rs rt : Reg) (imm16 : Half) : Laws.EncodesItsRow.Statement (.ori rs rt imm16) :=
  encodesItsRow_of_row ⟨"ori", 0x34000000, 0xFC000000, false⟩ (by decide) rfl rfl
    (encI_and_mask _ _ _ _)

theorem Laws.EncodesItsRow.xori (rs rt : Reg) (imm16 : Half) : Laws.EncodesItsRow.Statement (.xori rs rt imm16) :=
  encodesItsRow_of_row ⟨"xori", 0x38000000, 0xFC000000, false⟩ (by decide) rfl rfl
    (encI_and_mask _ _ _ _)

theorem Laws.EncodesItsRow.lui (rt : Reg) (imm16 : Half) : Laws.EncodesItsRow.Statement (.lui rt imm16) :=
  encodesItsRow_of_row ⟨"lui", 0x3C000000, 0xFC000000, false⟩ (by decide) rfl rfl
    (encI_and_mask _ _ _ _)

theorem Laws.EncodesItsRow.lb (rs rt : Reg) (imm16 : Half) : Laws.EncodesItsRow.Statement (.lb rs rt imm16) :=
  encodesItsRow_of_row ⟨"lb", 0x80000000, 0xFC000000, false⟩ (by decide) rfl rfl
    (encI_and_mask _ _ _ _)

theorem Laws.EncodesItsRow.lh (rs rt : Reg) (imm16 : Half) : Laws.EncodesItsRow.Statement (.lh rs rt imm16) :=
  encodesItsRow_of_row ⟨"lh", 0x84000000, 0xFC000000, false⟩ (by decide) rfl rfl
    (encI_and_mask _ _ _ _)

theorem Laws.EncodesItsRow.lwl (rs rt : Reg) (imm16 : Half) : Laws.EncodesItsRow.Statement (.lwl rs rt imm16) :=
  encodesItsRow_of_row ⟨"lwl", 0x88000000, 0xFC000000, false⟩ (by decide) rfl rfl
    (encI_and_mask _ _ _ _)

theorem Laws.EncodesItsRow.lw (rs rt : Reg) (imm16 : Half) : Laws.EncodesItsRow.Statement (.lw rs rt imm16) :=
  encodesItsRow_of_row ⟨"lw", 0x8C000000, 0xFC000000, false⟩ (by decide) rfl rfl
    (encI_and_mask _ _ _ _)

theorem Laws.EncodesItsRow.lbu (rs rt : Reg) (imm16 : Half) : Laws.EncodesItsRow.Statement (.lbu rs rt imm16) :=
  encodesItsRow_of_row ⟨"lbu", 0x90000000, 0xFC000000, false⟩ (by decide) rfl rfl
    (encI_and_mask _ _ _ _)

theorem Laws.EncodesItsRow.lhu (rs rt : Reg) (imm16 : Half) : Laws.EncodesItsRow.Statement (.lhu rs rt imm16) :=
  encodesItsRow_of_row ⟨"lhu", 0x94000000, 0xFC000000, false⟩ (by decide) rfl rfl
    (encI_and_mask _ _ _ _)

theorem Laws.EncodesItsRow.lwr (rs rt : Reg) (imm16 : Half) : Laws.EncodesItsRow.Statement (.lwr rs rt imm16) :=
  encodesItsRow_of_row ⟨"lwr", 0x98000000, 0xFC000000, false⟩ (by decide) rfl rfl
    (encI_and_mask _ _ _ _)

theorem Laws.EncodesItsRow.sb (rs rt : Reg) (imm16 : Half) : Laws.EncodesItsRow.Statement (.sb rs rt imm16) :=
  encodesItsRow_of_row ⟨"sb", 0xA0000000, 0xFC000000, false⟩ (by decide) rfl rfl
    (encI_and_mask _ _ _ _)

theorem Laws.EncodesItsRow.sh (rs rt : Reg) (imm16 : Half) : Laws.EncodesItsRow.Statement (.sh rs rt imm16) :=
  encodesItsRow_of_row ⟨"sh", 0xA4000000, 0xFC000000, false⟩ (by decide) rfl rfl
    (encI_and_mask _ _ _ _)

theorem Laws.EncodesItsRow.swl (rs rt : Reg) (imm16 : Half) : Laws.EncodesItsRow.Statement (.swl rs rt imm16) :=
  encodesItsRow_of_row ⟨"swl", 0xA8000000, 0xFC000000, false⟩ (by decide) rfl rfl
    (encI_and_mask _ _ _ _)

theorem Laws.EncodesItsRow.sw (rs rt : Reg) (imm16 : Half) : Laws.EncodesItsRow.Statement (.sw rs rt imm16) :=
  encodesItsRow_of_row ⟨"sw", 0xAC000000, 0xFC000000, false⟩ (by decide) rfl rfl
    (encI_and_mask _ _ _ _)

theorem Laws.EncodesItsRow.swr (rs rt : Reg) (imm16 : Half) : Laws.EncodesItsRow.Statement (.swr rs rt imm16) :=
  encodesItsRow_of_row ⟨"swr", 0xB8000000, 0xFC000000, false⟩ (by decide) rfl rfl
    (encI_and_mask _ _ _ _)

theorem Laws.EncodesItsRow.jr (rs : Reg) : Laws.EncodesItsRow.Statement (.jr rs) :=
  encodesItsRow_of_row ⟨"jr", 0x00000008, 0xFC00003F, false⟩ (by decide) rfl rfl
    (encR_and_mask _ _ _ _ _)

theorem Laws.EncodesItsRow.jalr (rs rd : Reg) : Laws.EncodesItsRow.Statement (.jalr rs rd) :=
  encodesItsRow_of_row ⟨"jalr", 0x00000009, 0xFC00003F, false⟩ (by decide) rfl rfl
    (encR_and_mask _ _ _ _ _)

theorem Laws.EncodesItsRow.bltz (rs : Reg) (imm16 : Half) : Laws.EncodesItsRow.Statement (.bltz rs imm16) :=
  encodesItsRow_of_row ⟨"bltz", 0x04000000, 0xFC1F0000, false⟩ (by decide) rfl rfl
    (encI_and_bcond_mask _ _ _ _)

theorem Laws.EncodesItsRow.bgez (rs : Reg) (imm16 : Half) : Laws.EncodesItsRow.Statement (.bgez rs imm16) :=
  encodesItsRow_of_row ⟨"bgez", 0x04010000, 0xFC1F0000, false⟩ (by decide) rfl rfl
    (encI_and_bcond_mask _ _ _ _)

theorem Laws.EncodesItsRow.bltzal (rs : Reg) (imm16 : Half) : Laws.EncodesItsRow.Statement (.bltzal rs imm16) :=
  encodesItsRow_of_row ⟨"bltzal", 0x04100000, 0xFC1F0000, false⟩ (by decide) rfl rfl
    (encI_and_bcond_mask _ _ _ _)

theorem Laws.EncodesItsRow.bgezal (rs : Reg) (imm16 : Half) : Laws.EncodesItsRow.Statement (.bgezal rs imm16) :=
  encodesItsRow_of_row ⟨"bgezal", 0x04110000, 0xFC1F0000, false⟩ (by decide) rfl rfl
    (encI_and_bcond_mask _ _ _ _)

theorem Laws.EncodesItsRow.sll (rt rd : Reg) (shamt : BitVec 5) : Laws.EncodesItsRow.Statement (.sll rt rd shamt) :=
  encodesItsRow_of_row ⟨"sll", 0x00000000, 0xFC00003F, true⟩ (by decide) rfl rfl
    (encR_and_mask _ _ _ _ _)

theorem Laws.EncodesItsRow.srl (rt rd : Reg) (shamt : BitVec 5) : Laws.EncodesItsRow.Statement (.srl rt rd shamt) :=
  encodesItsRow_of_row ⟨"srl", 0x00000002, 0xFC00003F, true⟩ (by decide) rfl rfl
    (encR_and_mask _ _ _ _ _)

theorem Laws.EncodesItsRow.sra (rt rd : Reg) (shamt : BitVec 5) : Laws.EncodesItsRow.Statement (.sra rt rd shamt) :=
  encodesItsRow_of_row ⟨"sra", 0x00000003, 0xFC00003F, true⟩ (by decide) rfl rfl
    (encR_and_mask _ _ _ _ _)

theorem Laws.EncodesItsRow.sllv (rs rt rd : Reg) : Laws.EncodesItsRow.Statement (.sllv rs rt rd) :=
  encodesItsRow_of_row ⟨"sllv", 0x00000004, 0xFC00003F, true⟩ (by decide) rfl rfl
    (encR_and_mask _ _ _ _ _)

theorem Laws.EncodesItsRow.srlv (rs rt rd : Reg) : Laws.EncodesItsRow.Statement (.srlv rs rt rd) :=
  encodesItsRow_of_row ⟨"srlv", 0x00000006, 0xFC00003F, true⟩ (by decide) rfl rfl
    (encR_and_mask _ _ _ _ _)

theorem Laws.EncodesItsRow.srav (rs rt rd : Reg) : Laws.EncodesItsRow.Statement (.srav rs rt rd) :=
  encodesItsRow_of_row ⟨"srav", 0x00000007, 0xFC00003F, true⟩ (by decide) rfl rfl
    (encR_and_mask _ _ _ _ _)

theorem Laws.EncodesItsRow.add (rs rt rd : Reg) : Laws.EncodesItsRow.Statement (.add rs rt rd) :=
  encodesItsRow_of_row ⟨"add", 0x00000020, 0xFC00003F, true⟩ (by decide) rfl rfl
    (encR_and_mask _ _ _ _ _)

theorem Laws.EncodesItsRow.addu (rs rt rd : Reg) : Laws.EncodesItsRow.Statement (.addu rs rt rd) :=
  encodesItsRow_of_row ⟨"addu", 0x00000021, 0xFC00003F, true⟩ (by decide) rfl rfl
    (encR_and_mask _ _ _ _ _)

theorem Laws.EncodesItsRow.sub (rs rt rd : Reg) : Laws.EncodesItsRow.Statement (.sub rs rt rd) :=
  encodesItsRow_of_row ⟨"sub", 0x00000022, 0xFC00003F, true⟩ (by decide) rfl rfl
    (encR_and_mask _ _ _ _ _)

theorem Laws.EncodesItsRow.subu (rs rt rd : Reg) : Laws.EncodesItsRow.Statement (.subu rs rt rd) :=
  encodesItsRow_of_row ⟨"subu", 0x00000023, 0xFC00003F, true⟩ (by decide) rfl rfl
    (encR_and_mask _ _ _ _ _)

theorem Laws.EncodesItsRow.and (rs rt rd : Reg) : Laws.EncodesItsRow.Statement (.and rs rt rd) :=
  encodesItsRow_of_row ⟨"and", 0x00000024, 0xFC00003F, true⟩ (by decide) rfl rfl
    (encR_and_mask _ _ _ _ _)

theorem Laws.EncodesItsRow.or (rs rt rd : Reg) : Laws.EncodesItsRow.Statement (.or rs rt rd) :=
  encodesItsRow_of_row ⟨"or", 0x00000025, 0xFC00003F, true⟩ (by decide) rfl rfl
    (encR_and_mask _ _ _ _ _)

theorem Laws.EncodesItsRow.xor (rs rt rd : Reg) : Laws.EncodesItsRow.Statement (.xor rs rt rd) :=
  encodesItsRow_of_row ⟨"xor", 0x00000026, 0xFC00003F, true⟩ (by decide) rfl rfl
    (encR_and_mask _ _ _ _ _)

theorem Laws.EncodesItsRow.nor (rs rt rd : Reg) : Laws.EncodesItsRow.Statement (.nor rs rt rd) :=
  encodesItsRow_of_row ⟨"nor", 0x00000027, 0xFC00003F, true⟩ (by decide) rfl rfl
    (encR_and_mask _ _ _ _ _)

theorem Laws.EncodesItsRow.slt (rs rt rd : Reg) : Laws.EncodesItsRow.Statement (.slt rs rt rd) :=
  encodesItsRow_of_row ⟨"slt", 0x0000002A, 0xFC00003F, true⟩ (by decide) rfl rfl
    (encR_and_mask _ _ _ _ _)

theorem Laws.EncodesItsRow.sltu (rs rt rd : Reg) : Laws.EncodesItsRow.Statement (.sltu rs rt rd) :=
  encodesItsRow_of_row ⟨"sltu", 0x0000002B, 0xFC00003F, true⟩ (by decide) rfl rfl
    (encR_and_mask _ _ _ _ _)

end Sys2Proof
end

