-- ==== Sys2Proof/Laws/Step.lean ====
section
/-! SUPPORT. What a cycle and the slot of a taken transfer can be, said once for proofs about `step`. -/

namespace Sys2Proof.Machine

/-- A cycle either has a decoded instruction, or halts as undefined. -/
theorem cycle_cases (slot : Bool) (s : State) :
    (∃ i, decode s.params.specialAlu s.iw = .ok i ∧ cycle slot s =
      if slot && i.isTransfer then .refused (.transferInDelaySlot s.iw) else exec i s) ∨
    (∃ e, decode s.params.specialAlu s.iw = .error e ∧
      cycle slot s = raiseHalt .undefinedInstruction s) := by
  unfold cycle
  split
  · next e h => exact .inr ⟨e, h, rfl⟩
  · next i h => exact .inl ⟨i, h, rfl⟩

/-- The fetched instruction is what the cycle after the fetch decodes. -/
theorem decode_fetch {s : State} {r : Except DecodeError Instr} (h : fetchedInstr s = r) :
    decode (fetch s).params.specialAlu (fetch s).iw = r := by
  simpa [fetchedInstr] using h

/-- From a state with no transfer asked for, only a jump or branch asks for one. -/
theorem isTransfer_of_transfer {i : Instr} {s u : State} {t : Word} (hs : s.transfer = none)
    (he : exec i s = .next u) (hu : u.transfer = some t) : i.isTransfer = true := by
  by_contra hc
  have h := exec_transfer_of_not_isTransfer (by simpa using hc) he
  rw [h, hs] at hu
  cases hu

/-- The slot's state after a fetched instruction: the primed word, read before the instruction ran. -/
theorem enterSlot_eq {i : Instr} {s u : State} (he : exec i (fetch s) = .next u) :
    u.enterSlot = { u with iw := readLE s.mem (s.pc + 4#32) 4, transfer := none } := by
  have h := (exec_sameFixed he).2.2.2.1
  unfold State.enterSlot
  rw [h, fetch_ds]

/-- The word of the slot decodes to the primed instruction. -/
theorem decode_enterSlot {i : Instr} {s u : State} {r : Except DecodeError Instr}
    (he : exec i (fetch s) = .next u) (h : primedInstr s = r) :
    decode u.enterSlot.params.specialAlu u.enterSlot.iw = r := by
  have hp := (exec_sameFixed he).2.2.2.2.2
  rw [enterSlot_eq he]
  simpa [hp, primedInstr] using h

/-- An instruction that halts changes no register but by the landing. -/
theorem exec_x_of_halted {i : Instr} {s t : State} (hs : s.halted = .running)
    (he : exec i s = .next t) (ht : t.halted ≠ .running) (q : Reg) : t.x q = landedX s q := by
  cases exec_shape i s with
  | halt h => rw [h] at he; cases he; simp [x_land]
  | write _ _ h | load _ _ _ _ h => rw [h] at he; cases he; simp [hs] at ht
  | store _ _ _ u h hu => rw [h] at he; cases he; rcases hu with rfl | rfl <;> simp [hs] at ht
  | transfer taken _ h | link taken _ _ h =>
    rw [h] at he; cases he; cases taken <;> simp [hs] at ht

end Sys2Proof.Machine
end

