-- ==== Sys2Proof/Tests/Slice0.lean ====
section
/-! SUPPORT. The model's own tests. The expected values are those of `spec/95_test_vectors.md` (V and E
numbers), of the examples in the rules, or words written out from the encodings of
`spec/30_encoding.md`; a witness shows that the hypotheses of an obligation can be met together. -/

namespace Sys2Proof.Machine.Tests

/-! ### Helpers -/

/-- The decoder reads `i` from `w`. -/
def reads (specialAlu : Bool) (w : Word) (i : Instr) : Bool :=
  match decode specialAlu w with
  | .ok j => decide (j = i)
  | .error _ => false

/-- The decoder reads `i` from `w`, and `w` is the canonical word of `i`. -/
def isWordOf (specialAlu : Bool) (w : Word) (i : Instr) : Bool := reads specialAlu w i && (encode i == w)

/-- Store words from an address up. -/
def storeWords : Memory → Word → List Word → Memory
  | m, _, [] => m
  | m, a, w :: ws => storeWords (loadWord m a w) (a + 4#32) ws

/-- The bytes `IMG` of the vectors, at 0xA0000000 (the tenth is 0 and unlisted). -/
def img : Memory :=
  [(0xA0000000, 0x11), (0xA0000001, 0x22), (0xA0000002, 0x33), (0xA0000003, 0x44),
   (0xA0000004, 0x55), (0xA0000005, 0x66), (0xA0000006, 0x77), (0xA0000007, 0x88),
   (0xA0000008, 0x80), (0xA0000009, 0xFF), (0xA000000B, 0x80)]

/-- The start state of the vectors: words in the ROM from offset 0, a no-op after them, registers. -/
def start (specialAlu : Bool) (m : Memory) (ws : List Word) (rs : List (Reg × Word)) : State :=
  rs.foldl (fun s p => s.setX p.1 p.2)
    { State.reset with
      params := { Params.default with specialAlu := specialAlu }
      mem := storeWords m 0xBFC00000#32 (ws ++ [0x24000000#32]) }

/-- What `f` says of the state after one step. -/
def after {α : Type} (s : State) (f : State → α) : Option α :=
  match step s with
  | .next t => some (f t)
  | _ => none

/-- The program counter and one register after a step. -/
def pcAndX (q : Reg) (t : State) : Word × Word := (t.pc, t.x q)

/-- A load in flight, as a register and a value. -/
def inFlight (t : State) : Option (Reg × Word) := t.pend.map (fun p => (p.reg, p.val))

/-- Four bytes of memory. -/
def bytes4 (a : Word) (t : State) : List Byte :=
  [readU8 t.mem a, readU8 t.mem (a + 1#32), readU8 t.mem (a + 2#32), readU8 t.mem (a + 3#32)]

/-! ### WellFormed -/

/-- The one check of `Instr.wellFormed`: an option instruction is ill-formed with the option off. -/
theorem test_wellFormed_refuses_option_off :
    Instr.wellFormed false (.addu 8 9 10) = false ∧ Instr.wellFormed false (.sll 0 0 0#5) = false ∧
    Instr.wellFormed true (.addu 8 9 10) = true ∧ Instr.wellFormed false (.addiu 0 8 5#16) = true := by
  decide

/-! ### Decode: words written out field by field from `30_encoding.md` R91, R97 to R99, R107 -/

/-- `j`, `jal`, `jr`, `jalr` (V1, V3, V4, V6). -/
theorem test_decode_jumps :
    isWordOf false 0b000010_11111100000000000001000000#32 (.j 0x3F00040#26) = true ∧
    isWordOf false 0b000011_11111100000000000001000000#32 (.jal 0x3F00040#26) = true ∧
    isWordOf false 0b000000_01000_00000_00000_00000_001000#32 (.jr 8) = true ∧
    isWordOf false 0b000000_01000_00000_11111_00000_001001#32 (.jalr 8 31) = true := by
  decide

/-- The primary-opcode branches. -/
theorem test_decode_branches :
    isWordOf false 0b000100_01000_01001_0000000000000100#32 (.beq 8 9 4#16) = true ∧
    isWordOf false 0b000101_01000_01001_1111111111111110#32 (.bne 8 9 0xFFFE#16) = true ∧
    isWordOf false 0b000110_01001_00000_0000000000000001#32 (.blez 9 1#16) = true ∧
    isWordOf false 0b000111_01001_00000_0000000000000001#32 (.bgtz 9 1#16) = true := by
  decide

/-- The four bcond variants, selected by the `rt` field (R99). -/
theorem test_decode_bcond :
    isWordOf false 0b000001_01001_00000_0000000000000010#32 (.bltz 9 2#16) = true ∧
    isWordOf false 0b000001_01001_00001_0000000000000010#32 (.bgez 9 2#16) = true ∧
    isWordOf false 0b000001_01001_10000_0000000000000100#32 (.bltzal 9 4#16) = true ∧
    isWordOf false 0b000001_01001_10001_0000000000000011#32 (.bgezal 9 3#16) = true := by
  decide

/-- The ALU-immediate instructions. -/
theorem test_decode_alu_immediate :
    isWordOf false 0b001000_01000_01001_1111111111111110#32 (.addi 8 9 0xFFFE#16) = true ∧
    isWordOf false 0b001001_01000_01001_0000000000000101#32 (.addiu 8 9 0x0005#16) = true ∧
    isWordOf false 0b001010_01000_01001_1000000000000000#32 (.slti 8 9 0x8000#16) = true ∧
    isWordOf false 0b001011_01000_01001_1111111111111111#32 (.sltiu 8 9 0xFFFF#16) = true ∧
    isWordOf false 0b001100_01000_01001_1111111100000000#32 (.andi 8 9 0xFF00#16) = true ∧
    isWordOf false 0b001101_01000_01001_0011001101000100#32 (.ori 8 9 0x3344#16) = true ∧
    isWordOf false 0b001110_01000_01001_0000000011111111#32 (.xori 8 9 0x00FF#16) = true ∧
    isWordOf false 0b001111_00000_10000_1010000000000000#32 (.lui 16 0xA000#16) = true := by
  decide

/-- The loads. -/
theorem test_decode_loads :
    isWordOf false 0b100000_10000_01001_0000000000000101#32 (.lb 16 9 5#16) = true ∧
    isWordOf false 0b100001_10000_01001_0000000000000101#32 (.lh 16 9 5#16) = true ∧
    isWordOf false 0b100010_10000_01001_0000000000000101#32 (.lwl 16 9 5#16) = true ∧
    isWordOf false 0b100011_10000_01001_0000000000000101#32 (.lw 16 9 5#16) = true ∧
    isWordOf false 0b100100_10000_01001_0000000000000101#32 (.lbu 16 9 5#16) = true ∧
    isWordOf false 0b100101_10000_01001_0000000000000101#32 (.lhu 16 9 5#16) = true ∧
    isWordOf false 0b100110_10000_01001_0000000000000101#32 (.lwr 16 9 5#16) = true := by
  decide

/-- The stores. -/
theorem test_decode_stores :
    isWordOf false 0b101000_10000_01000_0000000000000010#32 (.sb 16 8 2#16) = true ∧
    isWordOf false 0b101001_10000_01000_0000000000000010#32 (.sh 16 8 2#16) = true ∧
    isWordOf false 0b101010_10000_01000_0000000000000010#32 (.swl 16 8 2#16) = true ∧
    isWordOf false 0b101011_10000_01000_0000000000000010#32 (.sw 16 8 2#16) = true ∧
    isWordOf false 0b101110_10000_01000_0000000000000010#32 (.swr 16 8 2#16) = true := by
  decide

/-- The shifts of the option. -/
theorem test_decode_shifts :
    isWordOf true 0b000000_00000_01001_01010_00100_000000#32 (.sll 9 10 4#5) = true ∧
    isWordOf true 0b000000_00000_01001_01010_00100_000010#32 (.srl 9 10 4#5) = true ∧
    isWordOf true 0b000000_00000_01001_01010_00100_000011#32 (.sra 9 10 4#5) = true ∧
    isWordOf true 0b000000_01000_01001_01010_00000_000100#32 (.sllv 8 9 10) = true ∧
    isWordOf true 0b000000_01000_01001_01010_00000_000110#32 (.srlv 8 9 10) = true ∧
    isWordOf true 0b000000_01000_01001_01010_00000_000111#32 (.srav 8 9 10) = true := by
  decide

/-- The three-register instructions of the option. -/
theorem test_decode_three_register :
    isWordOf true 0b000000_01000_01001_01010_00000_100000#32 (.add 8 9 10) = true ∧
    isWordOf true 0b000000_01000_01001_01010_00000_100001#32 (.addu 8 9 10) = true ∧
    isWordOf true 0b000000_01000_01001_01010_00000_100010#32 (.sub 8 9 10) = true ∧
    isWordOf true 0b000000_01000_01001_01010_00000_100011#32 (.subu 8 9 10) = true ∧
    isWordOf true 0b000000_01000_01001_01010_00000_100100#32 (.and 8 9 10) = true ∧
    isWordOf true 0b000000_01000_01001_01010_00000_100101#32 (.or 8 9 10) = true ∧
    isWordOf true 0b000000_01000_01001_01010_00000_100110#32 (.xor 8 9 10) = true ∧
    isWordOf true 0b000000_01000_01001_01010_00000_100111#32 (.nor 8 9 10) = true ∧
    isWordOf true 0b000000_01000_01001_01010_00000_101010#32 (.slt 8 9 10) = true ∧
    isWordOf true 0b000000_01000_01001_01010_00000_101011#32 (.sltu 8 9 10) = true := by
  decide

/-- Unpopulated entries are refused by name: V151, V152, V154, V35, and the option off (R100). -/
theorem test_decode_undefined :
    decode false 0xFFFFFFFF#32 = .error (.primary 0x3F#6) ∧ decode true 0x40806000#32 = .error (.primary 0x10#6) ∧
    decode true 0x01090018#32 = .error (.special 0x18#6) ∧ decode false 0x0000000C#32 = .error (.special 0x0C#6) ∧
    decode false 0x04020004#32 = .error (.bcond 0x02#5) ∧ decode false 0x00000000#32 = .error (.optionOff 0x00#6) :=
  ⟨rfl, rfl, rfl, rfl, rfl, rfl⟩

/-- Ignored fields do not matter (R101): `jr`, `lui` and `blez` with every ignored bit set. -/
theorem test_decode_ignored_fields :
    reads false 0x011FFFC8#32 (.jr 8) = true ∧ reads false 0x3FF0A000#32 (.lui 16 0xA000#16) = true ∧
    reads false 0x193F0001#32 (.blez 9 1#16) = true ∧ reads true 0x010957E1#32 (.addu 8 9 10) = true := by
  decide

/-- The bytes of E7's word, lowest address first, and what follows them; too few bytes are refused. -/
theorem test_decodeBytes :
    decodeBytes false [0x05#8, 0x00#8, 0x08#8, 0x24#8, 0xAA#8] = .ok (.addiu 0 8 5#16, [0xAA#8]) ∧
    decodeBytes false [0x05#8, 0x00#8, 0x08#8] = .error .truncated := ⟨rfl, rfl⟩

/-- The host's two views of an opcode-table row. -/
theorem test_host_views :
    decodeTableWord 32 0x24080005 = some (.addiu 0 8 5#16) ∧ decodeTableWord 32 0x01095021 = some (.addu 8 9 10) ∧
    after (State.reset.withFetchWord 32 0x24080005) (pcAndX 8) = some (0xBFC00004#32, 5#32) ∧
    after (State.reset.withFetchWord 32 0x01095027) (pcAndX 10) = some (0xBFC00004#32, 0xFFFFFFFF#32) := by
  decide

/-! ### Memory primitives (`95_test_vectors.md` 2.7) -/

/-- V190 to V193: reads, within RAM, over its end, and over the wrap of the address space. -/
theorem test_memRead :
    readLE img 0xA0000000#32 4 = 0x44332211#32 ∧ readLE img 0xA0000002#32 2 = 0x4433#32 ∧
    readLE [] 0xA01FFFFE#32 4 = 0xFFFF0000#32 ∧ (readDiags 0xA01FFFFE#32 4).length = 2 ∧
    readLE img 0xFFFFFFFE#32 4 = 0xFFFFFFFF#32 ∧ (readDiags 0xFFFFFFFE#32 4).length = 4 := by
  decide

/-- V194, and the canonical form: writing the reset content takes the cell out again. -/
theorem test_memWrite :
    writeLE [] 0xA0000000#32 4 0xAABBCCDD#32 =
      [(0xA0000000, 0xDD), (0xA0000001, 0xCC), (0xA0000002, 0xBB), (0xA0000003, 0xAA)] ∧
    writeLE (writeLE [] 0xA0000000#32 4 0xAABBCCDD#32) 0xA0000000#32 4 0#32 = [] ∧ Memory.wf img = true := by
  decide

/-- V195 to V198: routing at the boundaries; no mirrors. -/
theorem test_route :
    route 0xBF800000#32 = some (.scratchpad, 0) ∧ route 0xBF801000#32 = some (.ioPorts, 0) ∧
    route 0xBFC7FFFF#32 = some (.biosRom, 0x7FFFF) ∧ route 0xBFC80000#32 = none ∧
    route 0x00000000#32 = none ∧ route 0x80000000#32 = none ∧ route 0x1F801000#32 = none := by
  decide

/-- V199: sign and zero extension. -/
theorem test_extension :
    sext16 0x8000#16 = 0xFFFF8000#32 ∧ sext16 0x7FFF#16 = 0x00007FFF#32 ∧ zext16 0x8000#16 = 0x00008000#32 ∧
    sext8 0x80#8 = 0xFFFFFF80#32 := by
  decide

/-! ### One step of each instruction -/

/-- V1. -/
theorem test_j_v1 :
    after (start false [] [0x0BF00040#32] []) (pcAndX 31) =
      some (0xBFC00100#32, 0x00000000#32) := by
  decide

/-- V2: the top four bits come from pc. -/
theorem test_j_v2 :
    after (start false [] [0x0BFFFFFF#32] []) (pcAndX 31) =
      some (0xBFFFFFFC#32, 0x00000000#32) := by
  decide

/-- V3. -/
theorem test_jal_v3 :
    after (start false [] [0x0FF00040#32] []) (pcAndX 31) =
      some (0xBFC00100#32, 0xBFC00008#32) := by
  decide

/-- V5: the slot changes `rs` after the target was read. -/
theorem test_jr_v5 :
    after (start false [] [0x01000008#32, 0x24080000#32] [(8, 0xA0000100#32)]) (pcAndX 8) =
      some (0xA0000100#32, 0x00000000#32) := by
  decide

/-- V9: a misaligned target is not checked. -/
theorem test_jr_v9 :
    after (start false [] [0x01000008#32] [(8, 0xA0000102#32)]) (pcAndX 8) =
      some (0xA0000102#32, 0xA0000102#32) := by
  decide

/-- V7: `rd` = `rs` jumps to the old value. -/
theorem test_jalr_v7 :
    after (start false [] [0x01004009#32] [(8, 0xA0000100#32)]) (pcAndX 8) =
      some (0xA0000100#32, 0xBFC00008#32) := by
  decide

/-- V8: a link to register 0 is discarded. -/
theorem test_jalr_v8 :
    after (start false [] [0x01000009#32] [(8, 0xA0000100#32)]) (pcAndX 0) =
      some (0xA0000100#32, 0x00000000#32) := by
  decide

/-- V10. -/
theorem test_beq_v10 :
    after (start false [] [0x11090004#32] [(8, 0x00000005#32), (9, 0x00000005#32)]) (pcAndX 31) =
      some (0xBFC00014#32, 0x00000000#32) := by
  decide

/-- V11: not taken. -/
theorem test_beq_v11 :
    after (start false [] [0x11090004#32] [(8, 0x00000005#32), (9, 0x00000006#32)]) (pcAndX 31) =
      some (0xBFC00004#32, 0x00000000#32) := by
  decide

/-- V12: backward. -/
theorem test_bne_v12 :
    after (start false [] [0x1509FFFE#32] [(8, 0x00000005#32), (9, 0x00000006#32)]) (pcAndX 31) =
      some (0xBFBFFFFC#32, 0x00000000#32) := by
  decide

/-- V15: the most negative value. -/
theorem test_blez_v15 :
    after (start false [] [0x19000004#32] [(8, 0x80000000#32)]) (pcAndX 31) =
      some (0xBFC00014#32, 0x00000000#32) := by
  decide

/-- V14: zero. -/
theorem test_blez_v14 :
    after (start false [] [0x19000004#32] [(8, 0x00000000#32)]) (pcAndX 31) =
      some (0xBFC00014#32, 0x00000000#32) := by
  decide

/-- V17. -/
theorem test_bgtz_v17 :
    after (start false [] [0x1D000004#32] [(8, 0x00000001#32)]) (pcAndX 31) =
      some (0xBFC00014#32, 0x00000000#32) := by
  decide

/-- V18: zero is not taken. -/
theorem test_bgtz_v18 :
    after (start false [] [0x1D000004#32] [(8, 0x00000000#32)]) (pcAndX 31) =
      some (0xBFC00004#32, 0x00000000#32) := by
  decide

/-- V20. -/
theorem test_bltz_v20 :
    after (start false [] [0x05000004#32] [(8, 0xFFFFFFFF#32)]) (pcAndX 31) =
      some (0xBFC00014#32, 0x00000000#32) := by
  decide

/-- V22: zero is taken. -/
theorem test_bgez_v22 :
    after (start false [] [0x05010004#32] [(8, 0x00000000#32)]) (pcAndX 31) =
      some (0xBFC00014#32, 0x00000000#32) := by
  decide

/-- V25: not taken, link written. -/
theorem test_bltzal_v25 :
    after (start false [] [0x05100004#32] [(8, 0x00000001#32)]) (pcAndX 31) =
      some (0xBFC00004#32, 0xBFC00008#32) := by
  decide

/-- V28: `rs` = 31 tests the new link. -/
theorem test_bltzal_v28 :
    after (start false [] [0x07F00004#32] [(31, 0x00000001#32)]) (pcAndX 31) =
      some (0xBFC00014#32, 0xBFC00008#32) := by
  decide

/-- V26. -/
theorem test_bgezal_v26 :
    after (start false [] [0x04110004#32] []) (pcAndX 31) =
      some (0xBFC00014#32, 0xBFC00008#32) := by
  decide

/-- V29: `rs` = 31 tests the new link. -/
theorem test_bgezal_v29 :
    after (start false [] [0x07F10004#32] [(31, 0x00000001#32)]) (pcAndX 31) =
      some (0xBFC00004#32, 0xBFC00008#32) := by
  decide

/-- V125. -/
theorem test_addi_v125 :
    after (start false [] [0x2128FFFF#32] [(9, 0x00000005#32)]) (pcAndX 8) =
      some (0xBFC00004#32, 0x00000004#32) := by
  decide

/-- V126: overflow halts with the destination unwritten. -/
theorem test_addi_v126 :
    after (start false [] [0x21280001#32] [(9, 0x7FFFFFFF#32), (8, 0x00000099#32)]) (fun t => (t.halted, t.x 8)) =
      some (.halted .integerOverflow 0x21280001#32, 0x00000099#32) := by
  decide

/-- V120, the document's example E7. -/
theorem test_addiu_v120 :
    after (start false [] [0x24080005#32] []) (pcAndX 8) =
      some (0xBFC00004#32, 0x00000005#32) := by
  decide

/-- V122: wraps without a halt. -/
theorem test_addiu_v122 :
    after (start false [] [0x25280001#32] [(9, 0x7FFFFFFF#32)]) (pcAndX 8) =
      some (0xBFC00004#32, 0x80000000#32) := by
  decide

/-- V130. -/
theorem test_slti_v130 :
    after (start false [] [0x2928FFFF#32] [(9, 0x80000000#32)]) (pcAndX 8) =
      some (0xBFC00004#32, 0x00000001#32) := by
  decide

/-- V131: equal operands. -/
theorem test_slti_v131 :
    after (start false [] [0x2928FFFF#32] [(9, 0xFFFFFFFF#32), (8, 0x00000009#32)]) (pcAndX 8) =
      some (0xBFC00004#32, 0x00000000#32) := by
  decide

/-- V133. -/
theorem test_sltiu_v133 :
    after (start false [] [0x2D28FFFF#32] [(9, 0x7FFFFFFF#32)]) (pcAndX 8) =
      some (0xBFC00004#32, 0x00000001#32) := by
  decide

/-- V138: the immediate is zero-extended. -/
theorem test_andi_v138 :
    after (start false [] [0x3128FFFF#32] [(9, 0xFFFFFFFF#32)]) (pcAndX 8) =
      some (0xBFC00004#32, 0x0000FFFF#32) := by
  decide

/-- V139. -/
theorem test_ori_v139 :
    after (start false [] [0x35288000#32] [(9, 0x12340000#32)]) (pcAndX 8) =
      some (0xBFC00004#32, 0x12348000#32) := by
  decide

/-- V140. -/
theorem test_xori_v140 :
    after (start false [] [0x3928FFFF#32] [(9, 0x1234FFFF#32)]) (pcAndX 8) =
      some (0xBFC00004#32, 0x12340000#32) := by
  decide

/-- V141. -/
theorem test_lui_v141 :
    after (start false [] [0x3C088000#32] [(8, 0x0000FFFF#32)]) (pcAndX 8) =
      some (0xBFC00004#32, 0x80000000#32) := by
  decide

/-- V40. -/
theorem test_lb_v40 :
    after (start false img [0x82090008#32] [(16, 0xA0000000#32)]) inFlight =
      some (some (9, 0xFFFFFF80#32)) := by
  decide

/-- V42. -/
theorem test_lbu_v42 :
    after (start false img [0x92090008#32] [(16, 0xA0000000#32)]) inFlight =
      some (some (9, 0x00000080#32)) := by
  decide

/-- V52: unmapped. -/
theorem test_lbu_v52 :
    after (start false [] [0x92090000#32] [(16, 0x00001000#32)]) inFlight =
      some (some (9, 0x000000FF#32)) := by
  decide

/-- V44. -/
theorem test_lh_v44 :
    after (start false img [0x8609000A#32] [(16, 0xA0000000#32)]) inFlight =
      some (some (9, 0xFFFF8000#32)) := by
  decide

/-- V46: an odd address. -/
theorem test_lh_v46 :
    after (start false img [0x86090001#32] [(16, 0xA0000000#32)]) inFlight =
      some (some (9, 0x00003322#32)) := by
  decide

/-- V45. -/
theorem test_lhu_v45 :
    after (start false img [0x9609000A#32] [(16, 0xA0000000#32)]) inFlight =
      some (some (9, 0x00008000#32)) := by
  decide

/-- V48: misaligned. -/
theorem test_lw_v48 :
    after (start false img [0x8E090001#32] [(16, 0xA0000000#32)]) inFlight =
      some (some (9, 0x55443322#32)) := by
  decide

/-- V49: a negative offset. -/
theorem test_lw_v49 :
    after (start false img [0x8E09FFFC#32] [(16, 0xA0000008#32)]) inFlight =
      some (some (9, 0x88776655#32)) := by
  decide

/-- V62. -/
theorem test_lwl_v62 :
    after (start false img [0x8A080005#32] [(16, 0xA0000000#32), (8, 0xAABBCCDD#32)]) inFlight =
      some (some (8, 0x6655CCDD#32)) := by
  decide

/-- V66. -/
theorem test_lwr_v66 :
    after (start false img [0x9A080001#32] [(16, 0xA0000000#32), (8, 0xAABBCCDD#32)]) inFlight =
      some (some (8, 0xAA443322#32)) := by
  decide

/-- V68. -/
theorem test_lwr_v68 :
    after (start false img [0x9A080003#32] [(16, 0xA0000000#32), (8, 0xAABBCCDD#32)]) inFlight =
      some (some (8, 0xAABBCC44#32)) := by
  decide

/-- V80. -/
theorem test_sb_v80 :
    after (start false img [0xA2080001#32] [(16, 0xA0000000#32), (8, 0xAABBCCDD#32)]) (bytes4 0xA0000000#32) =
      some [0x11#8, 0xDD#8, 0x33#8, 0x44#8] := by
  decide

/-- V82: an odd address. -/
theorem test_sh_v82 :
    after (start false img [0xA6080001#32] [(16, 0xA0000000#32), (8, 0xAABBCCDD#32)]) (bytes4 0xA0000000#32) =
      some [0x11#8, 0xDD#8, 0xCC#8, 0x44#8] := by
  decide

/-- V84: misaligned. -/
theorem test_sw_v84 :
    after (start false img [0xAE080001#32] [(16, 0xA0000000#32), (8, 0xAABBCCDD#32)]) (bytes4 0xA0000001#32) =
      some [0xDD#8, 0xCC#8, 0xBB#8, 0xAA#8] := by
  decide

/-- V86: a store to the ROM is discarded. -/
theorem test_sw_v86 :
    after (start false [] [0xAE080000#32] [(16, 0xBFC00000#32), (8, 0xAABBCCDD#32)]) (bytes4 0xBFC00000#32) =
      some [0x00#8, 0x00#8, 0x08#8, 0xAE#8] := by
  decide

/-- V101. -/
theorem test_swl_v101 :
    after (start false img [0xAA080005#32] [(16, 0xA0000000#32), (8, 0xAABBCCDD#32)]) (bytes4 0xA0000004#32) =
      some [0xBB#8, 0xAA#8, 0x77#8, 0x88#8] := by
  decide

/-- V105. -/
theorem test_swr_v105 :
    after (start false img [0xBA080001#32] [(16, 0xA0000000#32), (8, 0xAABBCCDD#32)]) (bytes4 0xA0000000#32) =
      some [0x11#8, 0xDD#8, 0xCC#8, 0xBB#8] := by
  decide

/-- V106. -/
theorem test_swr_v106 :
    after (start false img [0xBA080002#32] [(16, 0xA0000000#32), (8, 0xAABBCCDD#32)]) (bytes4 0xA0000000#32) =
      some [0x11#8, 0x22#8, 0xDD#8, 0xCC#8] := by
  decide

/-- V161. -/
theorem test_sll_v161 :
    after (start true [] [0x00095100#32] [(9, 0xF000000F#32)]) (pcAndX 10) =
      some (0xBFC00004#32, 0x000000F0#32) := by
  decide

/-- V160: the all-zero word is a no-op with the option on. -/
theorem test_sll_v160 :
    after (start true [] [0x00000000#32] []) (pcAndX 0) =
      some (0xBFC00004#32, 0x00000000#32) := by
  decide

/-- V162. -/
theorem test_srl_v162 :
    after (start true [] [0x00095102#32] [(9, 0xF000000F#32)]) (pcAndX 10) =
      some (0xBFC00004#32, 0x0F000000#32) := by
  decide

/-- V163. -/
theorem test_sra_v163 :
    after (start true [] [0x00095103#32] [(9, 0xF000000F#32)]) (pcAndX 10) =
      some (0xBFC00004#32, 0xFF000000#32) := by
  decide

/-- V164. -/
theorem test_sra_v164 :
    after (start true [] [0x000957C3#32] [(9, 0x80000000#32)]) (pcAndX 10) =
      some (0xBFC00004#32, 0xFFFFFFFF#32) := by
  decide

/-- V165: the amount is the low five bits. -/
theorem test_sllv_v165 :
    after (start true [] [0x01095004#32] [(9, 0x00000001#32), (8, 0x00000021#32)]) (pcAndX 10) =
      some (0xBFC00004#32, 0x00000002#32) := by
  decide

/-- V166. -/
theorem test_srlv_v166 :
    after (start true [] [0x01095006#32] [(9, 0x80000000#32), (8, 0x0000001F#32)]) (pcAndX 10) =
      some (0xBFC00004#32, 0x00000001#32) := by
  decide

/-- V167. -/
theorem test_srav_v167 :
    after (start true [] [0x01095007#32] [(9, 0x80000000#32), (8, 0x0000003F#32)]) (pcAndX 10) =
      some (0xBFC00004#32, 0xFFFFFFFF#32) := by
  decide

/-- V168. -/
theorem test_add_v168 :
    after (start true [] [0x01095020#32] [(8, 0x7FFFFFFF#32), (9, 0x00000001#32), (10, 0x00000009#32)]) (fun t => (t.halted, t.x 10)) =
      some (.halted .integerOverflow 0x01095020#32, 0x00000009#32) := by
  decide

/-- V169. -/
theorem test_add_v169 :
    after (start true [] [0x01095020#32] [(8, 0xFFFFFFFF#32), (9, 0x00000001#32), (10, 0x00000009#32)]) (pcAndX 10) =
      some (0xBFC00004#32, 0x00000000#32) := by
  decide

/-- V170. -/
theorem test_addu_v170 :
    after (start true [] [0x01095021#32] [(8, 0x7FFFFFFF#32), (9, 0x00000001#32)]) (pcAndX 10) =
      some (0xBFC00004#32, 0x80000000#32) := by
  decide

/-- V171. -/
theorem test_sub_v171 :
    after (start true [] [0x01095022#32] [(8, 0x80000000#32), (9, 0x00000001#32), (10, 0x00000009#32)]) (fun t => (t.halted, t.x 10)) =
      some (.halted .integerOverflow 0x01095022#32, 0x00000009#32) := by
  decide

/-- V172. -/
theorem test_sub_v172 :
    after (start true [] [0x01095022#32] [(8, 0x00000005#32), (9, 0x00000007#32)]) (pcAndX 10) =
      some (0xBFC00004#32, 0xFFFFFFFE#32) := by
  decide

/-- V173. -/
theorem test_subu_v173 :
    after (start true [] [0x01095023#32] [(8, 0x80000000#32), (9, 0x00000001#32)]) (pcAndX 10) =
      some (0xBFC00004#32, 0x7FFFFFFF#32) := by
  decide

/-- V174. -/
theorem test_and_v174 :
    after (start true [] [0x01095024#32] [(8, 0xFF00FF00#32), (9, 0x0FF00FF0#32)]) (pcAndX 10) =
      some (0xBFC00004#32, 0x0F000F00#32) := by
  decide

/-- V175. -/
theorem test_or_v175 :
    after (start true [] [0x01095025#32] [(8, 0xFF00FF00#32), (9, 0x0FF00FF0#32)]) (pcAndX 10) =
      some (0xBFC00004#32, 0xFFF0FFF0#32) := by
  decide

/-- V176. -/
theorem test_xor_v176 :
    after (start true [] [0x01095026#32] [(8, 0xFF00FF00#32), (9, 0x0FF00FF0#32)]) (pcAndX 10) =
      some (0xBFC00004#32, 0xF0F0F0F0#32) := by
  decide

/-- V177. -/
theorem test_nor_v177 :
    after (start true [] [0x01095027#32] [(8, 0xFF00FF00#32), (9, 0x0FF00FF0#32)]) (pcAndX 10) =
      some (0xBFC00004#32, 0x000F000F#32) := by
  decide

/-- V178. -/
theorem test_slt_v178 :
    after (start true [] [0x0109502A#32] [(8, 0x80000000#32), (9, 0x00000001#32)]) (pcAndX 10) =
      some (0xBFC00004#32, 0x00000001#32) := by
  decide

/-- V179. -/
theorem test_sltu_v179 :
    after (start true [] [0x0109502B#32] [(8, 0x80000000#32), (9, 0x00000001#32), (10, 0x00000009#32)]) (pcAndX 10) =
      some (0xBFC00004#32, 0x00000000#32) := by
  decide

/-! ### The cycle: load delay, delay slot, halt -/

/-- V144: a load in flight is not seen by the next instruction and lands after it. -/
theorem test_load_delay_v144 :
    after ((start false [] [0x25090001#32] [(8, 7#32)]).setPend (some ⟨8, 0x55#32⟩))
      (fun t => (t.x 8, t.x 9, t.pend)) = some (0x55#32, 8#32, none) := by
  decide

/-- V143: the instruction's own write wins over the load in flight. -/
theorem test_load_dropped_v143 :
    after ((start false [] [0x25080001#32] [(8, 7#32)]).setPend (some ⟨8, 0x55#32⟩))
      (fun t => (t.x 8, t.pend)) = some (8#32, none) := by
  decide

/-- V75's second step: `lwl` merges into the value in flight for its register. -/
theorem test_lwl_in_flight_v75 :
    after ((start false img [0x8A080005#32] [(16, 0xA0000000#32), (8, 0xAABBCCDD#32)]).setPend
      (some ⟨8, 0x8000FF80#32⟩)) inFlight = some (some (8, 0x6655FF80#32)) := by
  decide

/-- V155: the load in flight lands before an undefined instruction halts. -/
theorem test_halt_lands_v155 :
    after ((start false [] [0x00000000#32] []).setPend (some ⟨8, 0x55#32⟩))
      (fun t => (t.pc, t.x 8, t.halted)) =
      some (0xBFC00004#32, 0x55#32, .halted .undefinedInstruction 0#32) := by
  decide

/-- V156: a halt in the delay slot keeps the link and pc at the slot. -/
theorem test_halt_in_slot_v156 :
    after (start false [] [0x04110004#32, 0x00000000#32] []) (fun t => (t.pc, t.x 31, t.halted)) =
      some (0xBFC00004#32, 0xBFC00008#32, .halted .undefinedInstruction 0#32) := by
  decide

/-- V33: a jump in the slot of a taken branch is refused. -/
theorem test_transfer_in_slot_v33 :
    (match step (start false [] [0x10000004#32, 0x0BF00040#32] []) with
      | .refused r => some r
      | _ => none) = some (.transferInDelaySlot 0x0BF00040#32) := by
  decide

/-- V114: `swl` to unmapped memory emits four read and four write events and changes nothing. -/
theorem test_diagnostics_v114 :
    after (start false [] [0xAA080001#32] [(16, 0x1000#32), (8, 0xAABBCCDD#32)])
      (fun t => (t.diags.length, readU8 t.mem 0x1000#32)) = some (8, 0xFF#8) := by
  decide

/-- U5: from reset with no image loaded the first step halts on the zero word. -/
theorem test_reset_first_step :
    after State.reset (fun t => (t.pc, t.halted)) =
      some (0xBFC00004#32, .halted .undefinedInstruction 0#32) := by
  decide

/-! ### Witnesses: the hypotheses of the obligations can be met together -/

/-- `addiu $t0, $zero, 5` at the reset vector, the state of E7. -/
def sE7 : State := start false [] [0x24080005#32] []

/-- `beq $zero, $zero, +4` with the slot `addiu $t0, $zero, 5`. -/
def sTaken : State := start false [] [0x10000004#32, 0x24080005#32] []

/-- `bgezal $zero, +4` with a slot `addi $t0, $t1, 1` that overflows. -/
def sSlotHalts : State := start false [] [0x04110004#32, 0x21280001#32] [(9, 0x7FFFFFFF#32)]

/-- A halted machine. -/
def sHalted : State := sE7.setHalted (.halted .undefinedInstruction 0#32)

theorem witness_ResetHasStepInvariant : (State.resetWith Params.default).Inv ∧ State.reset.Inv := by
  unfold State.Inv
  decide

theorem witness_ConstructionZeroesMemory :
    mapped 0xA0000000#32 = true ∧ mapped 0xA01FFFFF#32 = true ∧ mapped 0xBF000000#32 = true ∧
    mapped 0xBF800FFF#32 = true ∧ mapped 0xBF802FFF#32 = true ∧ mapped 0xBFC7FFFF#32 = true := by
  decide

theorem witness_StepKeepsInvariant : sE7.Inv ∧ ∃ t, step sE7 = .next t :=
  ⟨by unfold State.Inv; decide, _, rfl⟩

theorem witness_DecodeInvertsEncode :
    Instr.wellFormed false (.jalr 8 31) = true ∧ Instr.wellFormed true (.sra 31 31 31#5) = true := by
  decide

theorem witness_DecodeAgreesWithOpcodeRows :
    decode false 0x011FFFC8#32 = .ok (.jr 8) ∧ decode true 0xFFFFFFFF#32 = .error (.primary 0x3F#6) :=
  ⟨rfl, rfl⟩

theorem witness_OpcodeRowsNeverOverlap :
    ∃ r ∈ opcodeRows, ∃ q ∈ opcodeRows,
      r.selects 0x03E00008#32 = true ∧ q.selects 0x03E00008#32 = true := by
  decide

theorem witness_IgnoredFieldsDoNotMatter :
    decode false 0x3C10A000#32 = .ok (.lui 16 0xA000#16) ∧ (0x3FF0A000#32 : Word) ≠ 0x3C10A000#32 ∧
    0x3FF0A000#32 &&& (Instr.lui 16 0xA000#16).usedBits =
      0x3C10A000#32 &&& (Instr.lui 16 0xA000#16).usedBits :=
  ⟨rfl, by decide, by decide⟩

theorem witness_RoutingFollowsRegionTable :
    route 0xA01FFFFF#32 = some (.mainRam, 0x1FFFFF) ∧ route 0xBF7FFFFF#32 = some (.expansion1, 0x7FFFFF) ∧
    route 0xBF800FFF#32 = some (.scratchpad, 0xFFF) ∧ route 0xBF802FFF#32 = some (.ioPorts, 0x1FFF) ∧
    route 0xBFC00000#32 = some (.biosRom, 0) ∧
    (writable 0xBF7FFFFF#32 = true ∧ writable 0xBF802FFF#32 = true) ∧
    (writable 0xBF803000#32 = false ∧ writable 0xBFC00000#32 = false) := by
  decide

/-- Both ends of each unmapped range. -/
theorem witness_UnmappedAddressesAreTheseRanges :
    mapped 0x00000000#32 = false ∧ mapped 0x9FFFFFFF#32 = false ∧ mapped 0xA0200000#32 = false ∧
    mapped 0xBEFFFFFF#32 = false ∧ mapped 0xBF803000#32 = false ∧ mapped 0xBFBFFFFF#32 = false ∧
    mapped 0xBFC80000#32 = false ∧ mapped 0xFFFFFFFF#32 = false := by
  decide

theorem witness_ByteReadRoutesOrGivesSentinel :
    route 0xA01FFFFF#32 = some (.mainRam, 0x1FFFFF) ∧ route 0xBFC80000#32 = none := by
  decide

/-- A word that decodes and one that does not, at `pc`. -/
theorem witness_InstructionIsOneLittleEndianWord :
    (readLE sE7.mem sE7.pc 4 = 0x24080005#32 ∧ decode false 0x24080005#32 = .ok (.addiu 0 8 5#16)) ∧
    (readLE State.reset.mem State.reset.pc 4 = 0#32 ∧
      decode false 0#32 = .error (.optionOff 0x00#6)) :=
  ⟨⟨by decide, rfl⟩, by decide, rfl⟩

/-- An instruction whose destination is register 0 (V124). -/
theorem witness_RegisterZeroIsConstant : ∃ t, exec (.addiu 9 0 7#16) sE7 = .next t := ⟨_, rfl⟩

theorem witness_BusRoundTrip :
    writable 0xBF7FFFFF#32 = true ∧ mapped 0xBFC00000#32 = true ∧ mapped 0xA0200000#32 = false ∧
    writable 0xBFC00000#32 = false ∧ (0xA0000001#32 : Word) ≠ 0xA0000000#32 := by
  decide

theorem witness_StoredWordReadsBackAtEveryWidth :
    ∀ k, k < 4 → writable (0xA01FFFFC#32 + BitVec.ofNat 32 k) = true := by
  decide

/-- Both ends of a region, the ROM and unmapped space, and another address. -/
theorem witness_HostPeekAndPoke :
    (route 0xA0000000#32 = some (.mainRam, 0) ∧ route 0xBFC7FFFF#32 = some (.biosRom, 0x7FFFF)) ∧
    route 0xA0200000#32 = none ∧ (writable 0xA0000000#32 = true ∧ writable 0xA01FFFFF#32 = true) ∧
    (writable 0xBFC00000#32 = false ∧ writable 0xA0200000#32 = false) ∧
    Memory.wf sE7.mem = true := by
  decide

/-- A poke is seen by a peek (R75). -/
theorem test_poke_peek : peek (poke State.reset 0xA01FFFFF#32 0x5A#8) 0xA01FFFFF#32 = 0x5A#8 := by
  decide

theorem witness_BiosLoadFillsRomOrIsRejected :
    (∃ image : List Byte, image.length = 0x80000) ∧ ([0x05#8] : List Byte).length ≠ 0x80000 :=
  ⟨⟨List.replicate 0x80000 0#8, List.length_replicate⟩, by decide⟩

theorem witness_StepRunsFetchedInstruction :
    sE7.halted = .running ∧ fetchedInstr sE7 = .ok (.addiu 0 8 5#16) := ⟨rfl, rfl⟩

theorem witness_OrdinaryInstructionStep :
    sE7.halted = .running ∧ fetchedInstr sE7 = .ok (.addiu 0 8 5#16) ∧
    (Instr.addiu 0 8 5#16).isTransfer = false := ⟨rfl, rfl, rfl⟩

/-- `bne $t0, $t0, -2` and `addiu`; then the same branch, and `bltzal $zero`, before a jump with a
slot of its own. -/
theorem witness_UntakenBranchStep :
    (∃ s, s.halted = .running ∧ fetchedInstr s = .ok (.bne 8 8 0xFFFE#16) ∧
      conditionFalse (fetch s) (.bne 8 8 0xFFFE#16) ∧ primedInstr s = .ok (.addiu 0 8 5#16)) ∧
    (∃ s, s.halted = .running ∧ fetchedInstr s = .ok (.bltzal 0 4#16) ∧
      conditionFalse (fetch s) (.bltzal 0 4#16) ∧ primedInstr s = .ok (.j 0x3F00040#26)) :=
  ⟨⟨start false [] [0x1508FFFE#32, 0x24080005#32] [], rfl, rfl, rfl, rfl⟩,
    start false [] [0x04100004#32, 0x0BF00040#32, 0x24080005#32] [], rfl, rfl,
    by unfold conditionFalse; decide, rfl⟩

/-- The jump after an untaken branch transfers in the next step; with a jump in its own slot that step
is refused. -/
theorem test_jump_after_untaken_branch :
    (∃ u, step (start false [] [0x04100004#32, 0x0BF00040#32, 0x24080005#32] []) = .next u ∧
      after u State.pc = some 0xBFC00100#32) ∧
    (∃ u, step (start false [] [0x04100004#32, 0x0BF00040#32, 0x0BF00040#32] []) = .next u ∧
      step u = .refused (.transferInDelaySlot 0x0BF00040#32)) :=
  ⟨⟨_, rfl, by decide⟩, _, rfl, rfl⟩

theorem witness_TakenTransferStep :
    ∃ u v i d t, sTaken.halted = .running ∧ fetchedInstr sTaken = .ok i ∧
      exec i (fetch sTaken) = .next u ∧ u.transfer = some t ∧ primedInstr sTaken = .ok d ∧
      d.isTransfer = false ∧
      exec d { u with iw := readLE sTaken.mem (sTaken.pc + 4#32) 4, transfer := none } = .next v ∧
      v.halted = .running :=
  ⟨_, _, .beq 0 0 4#16, .addiu 0 8 5#16, 0xBFC00014#32, rfl, rfl, rfl, by decide, rfl, rfl, rfl, by decide⟩

theorem witness_HaltInDelaySlotKeepsLink :
    ∃ u v i d t, sSlotHalts.halted = .running ∧ fetchedInstr sSlotHalts = .ok i ∧
      exec i (fetch sSlotHalts) = .next u ∧ u.transfer = some t ∧ primedInstr sSlotHalts = .ok d ∧
      d.isTransfer = false ∧
      exec d { u with iw := readLE sSlotHalts.mem (sSlotHalts.pc + 4#32) 4, transfer := none } = .next v ∧
      v.halted ≠ .running ∧ (31 : Reg) ∈ writtenRegs i :=
  ⟨_, _, .bgezal 0 4#16, .addi 9 8 1#16, 0xBFC00014#32, rfl, rfl, rfl, by decide, rfl, rfl, rfl, by decide,
    by decide⟩

/-- The fetched word undefined, and the slot's word undefined. -/
theorem witness_UndefinedWordHalts :
    (State.reset.halted = .running ∧
      UndefinedWord State.reset.params.specialAlu (readLE State.reset.mem State.reset.pc 4)) ∧
    (∃ s u i t, s.halted = .running ∧ fetchedInstr s = .ok i ∧ exec i (fetch s) = .next u ∧
      u.transfer = some t ∧ UndefinedWord s.params.specialAlu (readLE s.mem (s.pc + 4#32) 4)) :=
  ⟨⟨rfl, by unfold UndefinedWord; decide⟩,
    start false [] [0x04110004#32, 0x01090018#32] [], _, .bgezal 0 4#16, 0xBFC00014#32, rfl, rfl, rfl,
    by decide, by unfold UndefinedWord; decide⟩

theorem witness_TransferInTakenSlotIsRefused :
    ∃ s u i d t, s.halted = .running ∧ fetchedInstr s = .ok i ∧ exec i (fetch s) = .next u ∧
      u.transfer = some t ∧ primedInstr s = .ok d ∧ d.isTransfer = true :=
  ⟨start false [] [0x10000004#32, 0x0BF00040#32] [], _, .beq 0 0 4#16, .j 0x3F00040#26, 0xBFC00014#32,
    rfl, rfl, rfl, by decide, rfl, rfl⟩

theorem witness_HaltedMachineDoesNothing : sHalted.halted ≠ .running := by decide

theorem witness_UnmappedFetchHalts :
    ∃ s : State, s.halted = .running ∧ ∀ k, k < 4 → mapped (s.pc + BitVec.ofNat 32 k) = false :=
  ⟨inspectWritePc sE7 0x00001000#32, rfl, by decide⟩

theorem witness_AllZeroWordHaltsUnlessOptionOn :
    (∃ s : State, s.halted = .running ∧ readLE s.mem s.pc 4 = 0#32 ∧ s.params.specialAlu = false) ∧
    (∃ s : State, s.halted = .running ∧ readLE s.mem s.pc 4 = 0#32 ∧ s.params.specialAlu = true) :=
  ⟨⟨State.reset, rfl, by decide, rfl⟩, start true [] [0#32] [], rfl, by decide, rfl⟩

/-- A step that advances, and a step that transfers. -/
theorem witness_PcMovesOnlyByAdvanceOrTransfer :
    sE7.halted = .running ∧ after sE7 State.pc = some (sE7.pc + 4#32) ∧ sTaken.halted = .running ∧
    after sTaken State.pc = some 0xBFC00014#32 := by
  decide

theorem witness_AlignedPcStaysAlignedWithoutRegisterJump :
    sTaken.pc.toNat % 4 = 0 ∧ (∃ t, step sTaken = .next t) ∧
    (∀ rs, fetchedInstr sTaken ≠ .ok (.jr rs)) ∧ (∀ rs rd, fetchedInstr sTaken ≠ .ok (.jalr rs rd)) := by
  have h : fetchedInstr sTaken = .ok (.beq 0 0 4#16) := rfl
  refine ⟨by decide, ⟨_, rfl⟩, fun rs => ?_, fun rs rd => ?_⟩ <;> rw [h] <;> intro e <;> cases e

theorem witness_HiLoAndParametersNeverChange : ∃ t, step sE7 = .next t := ⟨_, rfl⟩

theorem witness_RomIsNeverWritten :
    (∃ t, step (start false [] [0xAE080000#32] [(16, 0xBFC00000#32)]) = .next t) ∧
    writable 0xBFC00000#32 = false ∧ writable 0xBFC7FFFF#32 = false ∧ writable 0xA0200000#32 = false :=
  ⟨⟨_, rfl⟩, by decide, by decide, by decide⟩

theorem witness_StepIgnoresSlotWordFromBefore : sTaken.halted = .running := rfl

/-- A step that stays running, and one that halts. -/
theorem witness_StepCostIsFetchedInstructions :
    (sE7.halted = .running ∧ fetchedInstr sE7 = .ok (.addiu 0 8 5#16) ∧
      after sE7 State.halted = some .running) ∧
    (sSlotHalts.halted = .running ∧ fetchedInstr sSlotHalts = .ok (.bgezal 0 4#16) ∧
      after sSlotHalts State.halted = some (.halted .integerOverflow 0x21280001#32)) :=
  ⟨⟨rfl, rfl, by decide⟩, rfl, rfl, by decide⟩

theorem witness_StoreIsSeenByNextFetch :
    ∃ s : State, s.halted = .running ∧ fetchedInstr s = .ok (.sw 16 8 4#16) ∧
      s.x 16 + (4#16).signExtend 32 = s.pc + 4#32 ∧
      (∀ k, k < 4 → writable (s.pc + 4#32 + BitVec.ofNat 32 k) = true) ∧ ∃ t, step s = .next t :=
  ⟨inspectWritePc (start false (storeWords [] 0xA0000000#32 [0xAE080004#32]) []
      [(16, 0xA0000000#32), (8, 0x24090007#32)]) 0xA0000000#32, rfl, rfl, by decide, by decide, _, rfl⟩

/-- A register the instruction does not write, and an instruction that halts. -/
theorem witness_UnwrittenRegistersLandOrStay :
    (∃ t, sE7.halted = .running ∧ exec (.addiu 0 8 5#16) sE7 = .next t ∧
      (9 : Reg) ∉ writtenRegs (.addiu 0 8 5#16)) ∧
    (∃ t, sSlotHalts.halted = .running ∧ exec (.addi 9 8 1#16) sSlotHalts = .next t ∧
      t.halted ≠ .running) :=
  ⟨⟨_, rfl, rfl, by decide⟩, _, rfl, rfl, by decide⟩

theorem witness_InFlightLoadIsUnseen :
    ∃ t u, sE7.halted = .running ∧ mergesInFlight (.lw 8 8 0#16) = false ∧
      exec (.lw 8 8 0#16) (sE7.setPend none) = .next t ∧
      exec (.lw 8 8 0#16) (sE7.setPend (some ⟨8, 0x55#32⟩)) = .next u :=
  ⟨_, _, rfl, rfl, rfl, rfl⟩

theorem witness_LoadVisibleAfterOneInstruction :
    ∃ s t, s.halted = .running ∧ s.pend = some ⟨9, 0x55#32⟩ ∧ (9 : Reg) ≠ 0 ∧
      fetchedInstr s = .ok (.addiu 0 8 5#16) ∧ (Instr.addiu 0 8 5#16).isTransfer = false ∧
      (9 : Reg) ∉ writtenRegs (.addiu 0 8 5#16) ∧ step s = .next t :=
  ⟨sE7.setPend (some ⟨9, 0x55#32⟩), _, rfl, rfl, by decide, rfl, rfl, by decide, rfl⟩

theorem witness_LandingOverwritesHostWrite :
    ∃ s t, s.halted = .running ∧ s.pend = some ⟨9, 0x55#32⟩ ∧ (9 : Reg) ≠ 0 ∧
      (9 : Reg) ∉ writtenRegs (.addiu 0 8 5#16) ∧
      exec (.addiu 0 8 5#16) (inspectWriteX s 9 0x77#32) = .next t :=
  ⟨sE7.setPend (some ⟨9, 0x55#32⟩), _, rfl, rfl, by decide, by decide, rfl⟩

theorem witness_InspectionPortReadsAndWrites : 32 ≤ 32 ∧ inspectWriteX sE7 32 7#32 = sE7 :=
  ⟨by decide, rfl⟩

/-- Sums at the two ends of the range and one beyond each. -/
theorem witness_AddiHaltsExactlyOnOverflow :
    (0x7FFF8000#32).toInt + (0x7FFF#16).toInt = 2 ^ 31 - 1 ∧ (0x80000001#32).toInt + (0xFFFF#16).toInt = -2 ^ 31 ∧
    (0x7FFFFFFF#32).toInt + (1#16).toInt = 2 ^ 31 ∧ (0x80000000#32).toInt + (0xFFFF#16).toInt < -2 ^ 31 := by
  decide

/-- The same for a sum and a difference of two registers. -/
theorem witness_AddAndSubHaltExactlyOnOverflow :
    (0x7FFFFFFE#32).toInt + (1#32).toInt = 2 ^ 31 - 1 ∧ (0x7FFFFFFF#32).toInt + (1#32).toInt = 2 ^ 31 ∧
    (0x80000001#32).toInt - (1#32).toInt = -2 ^ 31 ∧ (0x80000000#32).toInt - (1#32).toInt < -2 ^ 31 := by
  decide

/-- The address of `LoadResults` and `StoreResults`, with a negative offset. -/
theorem witness_LoadResults_StoreResults :
    ∃ s : State, (0x9FFF8000#32 : Word) = s.x 16 + (0x8000#16).signExtend 32 :=
  ⟨start false img [] [(16, 0xA0000000#32)], by decide⟩

/-- The lanes 0 and 3, with a load into `rt` in flight and without. -/
theorem witness_UnalignedLoadLanes_UnalignedStoreLanes :
    (∃ s : State, (0xA0000004#32 : Word) = s.x 16 + (4#16).signExtend 32 ∧
      (0xA0000004#32 : Word) = 0xA0000004#32 &&& 0xFFFFFFFC#32 ∧ 0 = (0xA0000004#32).toNat % 4 ∧
      s.pend = some ⟨8, 0x55#32⟩) ∧
    (∃ s : State, (0xA0000007#32 : Word) = s.x 16 + (7#16).signExtend 32 ∧
      (0xA0000004#32 : Word) = 0xA0000007#32 &&& 0xFFFFFFFC#32 ∧ 3 = (0xA0000007#32).toNat % 4 ∧
      s.pend = none) :=
  ⟨⟨(start false img [] [(16, 0xA0000000#32)]).setPend (some ⟨8, 0x55#32⟩), by decide, by decide, by decide, rfl⟩,
    start false img [] [(16, 0xA0000000#32)], by decide, by decide, by decide, rfl⟩

/-- A load in flight to neither register of the pair; the offsets of V71 and V111, and a sign change. -/
theorem witness_UnalignedPairs :
    (∃ s : State, (8 : Reg) ≠ 0 ∧ (∀ p, s.pend = some p → p.reg ≠ 16 ∧ p.reg ≠ 8) ∧ s.pend ≠ none ∧
      (4#16).signExtend 32 = (1#16).signExtend 32 + 3#32 ∧
      (0xA0000001#32 : Word) = s.x 16 + (1#16).signExtend 32 ∧
      ∀ j, j < 4 → writable (0xA0000001#32 + BitVec.ofNat 32 j) = true) ∧
    (2#16).signExtend 32 = (0xFFFF#16).signExtend 32 + 3#32 := by
  refine ⟨⟨(start false img [] [(16, 0xA0000000#32)]).setPend (some ⟨9, 0x55#32⟩), by decide,
    fun p h => ?_, by decide, by decide, by decide, by decide⟩, by decide⟩
  cases h
  decide

/-- The smallest jump target of a segment, and the largest backward branch from 0xBFC00000. -/
theorem witness_JumpTransfers_BranchTransfers :
    (∃ s : State, (0xB0000000#32 : Word) = (s.pc &&& 0xF0000000#32) ||| ((0#26).setWidth 32 <<< 2)) ∧
    (∃ s : State, (0xBFBE0000#32 : Word) = s.pc + ((0x8000#16).signExtend 32 <<< 2)) :=
  ⟨⟨State.reset, by decide⟩, State.reset, by decide⟩

/-- `rs` = 31 tests the link; any other register tests its content. -/
theorem witness_LinkingBranchTransfers :
    (∃ s : State, (0xBFC00004#32 : Word) = (if (31 : Reg) = 31 then s.pc + 4#32 else s.x 31)) ∧
    (∃ s : State, (7#32 : Word) = (if (9 : Reg) = 31 then s.pc + 4#32 else s.x 9)) :=
  ⟨⟨State.reset, by decide⟩, start false [] [] [(9, 7#32)], by decide⟩

/-- Both disjuncts of `StepAnswersUnlessTransferInSlot` happen. -/
theorem witness_StepAnswersUnlessTransferInSlot :
    (∃ t, step sE7 = .next t) ∧
    step (start false [] [0x10000004#32, 0x0BF00040#32] []) =
      .refused (.transferInDelaySlot 0x0BF00040#32) :=
  ⟨⟨_, rfl⟩, rfl⟩

end Sys2Proof.Machine.Tests
end

section
/-! PROOFS. The scope's extensions (`00_scope.md` R11): the bit-by-bit meaning of sign extension agrees
with the shift left and arithmetic shift right that the document gives. -/

namespace Sys2Proof.Machine

/-- Shifting the low `n` bits to the top of the width brings their sign bit to the top. -/
theorem msb_setWidth_eq_msb_shiftLeft {w n : Nat} (hn : n ≤ w) (v : BitVec w) :
    (v.setWidth n).msb = (v <<< (w - n)).msb := by
  have hpos : 0 < n ↔ w - n < w := by omega
  have hidx : w - 1 - (w - n) = n - 1 := by omega
  rw [BitVec.msb_setWidth, BitVec.msb_shiftLeft, BitVec.getMsbD_eq_getLsbD, hidx,
    decide_eq_decide.mpr hpos]

/-- Bit `i` of both sides is bit `i` of `v` below `n`, and the sign bit of the low `n` bits from `n` on. -/
theorem signExtend_setWidth_eq_sshiftRight {w n : Nat} (hn : n ≤ w) (v : BitVec w) :
    (v.setWidth n).signExtend w = (v <<< (w - n)).sshiftRight (w - n) := by
  refine BitVec.eq_of_getElem_eq fun i hi => ?_
  rw [BitVec.getElem_signExtend, BitVec.getElem_sshiftRight]
  by_cases h : i < n
  · have hs : w - n + i < w := by omega
    simp [h, hs, BitVec.getLsbD_eq_getElem hi]
  · have hs : ¬ w - n + i < w := by omega
    rw [dif_neg h, dif_neg hs, msb_setWidth_eq_msb_shiftLeft hn]

theorem sext8_setWidth (v : Word) : sext8 (v.setWidth 8) = (v <<< 24).sshiftRight 24 :=
  signExtend_setWidth_eq_sshiftRight (by decide) v

theorem sext16_setWidth (v : Word) : sext16 (v.setWidth 16) = (v <<< 16).sshiftRight 16 :=
  signExtend_setWidth_eq_sshiftRight (by decide) v

theorem toNat_zext8 (v : Byte) : (zext8 v).toNat = v.toNat :=
  BitVec.toNat_setWidth_of_le (by decide)

theorem toNat_zext16 (v : Half) : (zext16 v).toNat = v.toNat :=
  BitVec.toNat_setWidth_of_le (by decide)

/-- Settles O12: sign extension by the agreement of the two bit by bit, zero extension because it keeps
the value of a byte or halfword, which is the word's remainder. -/
theorem extensionsAreShiftsAndRemainders : Obligations.ExtensionsAreShiftsAndRemainders := by
  refine ⟨fun v => ⟨sext8_setWidth v, sext16_setWidth v, ?_, ?_⟩, by decide⟩
  · rw [toNat_zext8, BitVec.toNat_setWidth]
  · rw [toNat_zext16, BitVec.toNat_setWidth]

end Sys2Proof.Machine
end

section
/-! PROOFS. What a step that answers a next state did, said once, and the rule that follows from it: a
predicate kept by every stage of a step is kept by the step (`40_execution_cycle.md` R120 to R127). -/

namespace Sys2Proof.Machine

/-! ### What a cycle and a step did -/

/-- A cycle that answers a next state executed the decoded instruction, which in a slot is no jump or
branch, or halted on an undefined word. -/
theorem cycle_next_cases {slot : Bool} {s t : State} (h : cycle slot s = .next t) :
    (∃ i, decode s.params.specialAlu s.iw = .ok i ∧ (slot && i.isTransfer) = false ∧
      exec i s = .next t) ∨
    t = (s.land []).setHalted (.halted .undefinedInstruction s.iw) := by
  obtain ⟨i, hd, hc⟩ | ⟨e, -, hc⟩ := cycle_cases slot s
  · rw [hc] at h
    split at h
    · cases h
    · next hs => exact .inl ⟨i, hd, by simpa using hs, h⟩
  · rw [hc] at h
    cases h
    exact .inr rfl

/-- The delay slot of a transfer to `a` answers the state of the slot's cycle, and moves `pc` to `a`
unless the slot halted (R126, R132). -/
theorem delaySlot_next_cases {a : Word} {u t : State} (h : delaySlot a u = .next t) :
    ∃ v, cycle true u.enterSlot = .next v ∧ t = if v.halted = .running then v.setPc a else v := by
  unfold delaySlot at h
  split at h
  · next v hv => cases h; exact ⟨v, hv, rfl⟩
  · cases h
  · cases h

/-- The three ways a step from `s` answers the next state `t`. -/
inductive StepShape (s t : State) : Prop where
  | idle (hs : s.halted ≠ .running) (ht : t = s)
  | plain (hs : s.halted = .running) (hc : cycle false (fetch s) = .next t) (ht : t.transfer = none)
  | taken (u v : State) (a : Word) (hs : s.halted = .running)
      (hc : cycle false (fetch s) = .next u) (hu : u.transfer = some a)
      (hv : cycle true u.enterSlot = .next v)
      (ht : t = if v.halted = .running then v.setPc a else v)

theorem step_shape {s t : State} (h : step s = .next t) : StepShape s t := by
  by_cases hs : s.halted = .running
  · rw [step_running hs] at h
    unfold runFetched at h
    split at h
    · next u hc =>
      split at h
      · next hu => cases h; exact .plain hs hc hu
      · next a hu =>
        obtain ⟨v, hv, ht⟩ := delaySlot_next_cases h
        exact .taken u v a hs hc hu hv ht
    · cases h
    · cases h
  · rw [step_halted hs] at h
    cases h
    exact .idle hs rfl

/-- A fetched instruction that asks for no transfer ends the step (R123). -/
theorem step_of_exec {i : Instr} {s t : State} (hs : s.halted = .running)
    (hi : fetchedInstr s = .ok i) (he : exec i (fetch s) = .next t) (ht : t.transfer = none) :
    step s = .next t := by
  have hc : cycle false (fetch s) = .next t := (cycle_of_decode (decode_fetch hi) rfl).trans he
  simp [step_running hs, runFetched, hc, ht]

/-! ### What a cycle keeps -/

/-- A cycle moves no `pc` and touches none of the other fixed fields (R125, R132). -/
theorem cycle_sameFixed {slot : Bool} {s t : State} (h : cycle slot s = .next t) :
    SameFixed s t := by
  obtain ⟨i, -, -, he⟩ | rfl := cycle_next_cases h
  · exact exec_sameFixed he
  · simp [SameFixed]

theorem cycle_pc {slot : Bool} {s t : State} (h : cycle slot s = .next t) : t.pc = s.pc := by
  obtain ⟨-, -, hpc, -⟩ := cycle_sameFixed h
  exact hpc

/-- A slot's cycle asks for no transfer: a jump or branch there is refused (R128). -/
theorem slotCycle_transfer {s t : State} (h : cycle true s = .next t) :
    t.transfer = s.transfer := by
  obtain ⟨i, -, hi, he⟩ | rfl := cycle_next_cases h
  · exact exec_transfer_of_not_isTransfer (by simpa using hi) he
  · simp

/-- When the cycle of the fetched word asks for a transfer, the word is a jump or branch that asked for
it. -/
theorem fetchedTransfer_of_cycle {s u : State} {a : Word} (h : cycle false (fetch s) = .next u)
    (hu : u.transfer = some a) :
    ∃ i, fetchedInstr s = .ok i ∧ i.isTransfer = true ∧ exec i (fetch s) = .next u := by
  obtain ⟨i, hd, -, he⟩ | rfl := cycle_next_cases h
  · exact ⟨i, by simpa [fetchedInstr] using hd, isTransfer_of_transfer rfl he hu, he⟩
  · simp at hu

/-! ### Predicates kept by every stage -/

/-- Every stage of a step keeps `P`: the fetch, a meaning, the halt on an undefined word, the entry to
the delay slot and the move of `pc` to the target. -/
structure KeptByStages (P : State → Prop) : Prop where
  of_fetch : ∀ {s}, P s → P (fetch s)
  of_exec : ∀ {i s t}, exec i s = .next t → P s → P t
  of_halt : ∀ {s h}, P s → P ((s.land []).setHalted h)
  of_enterSlot : ∀ {s}, P s → P s.enterSlot
  of_setPc : ∀ {s a}, P s → P (s.setPc a)

theorem KeptByStages.of_cycle {P : State → Prop} (hP : KeptByStages P) {slot : Bool} {s t : State}
    (h : cycle slot s = .next t) (hs : P s) : P t := by
  obtain ⟨i, -, -, he⟩ | rfl := cycle_next_cases h
  · exact hP.of_exec he hs
  · exact hP.of_halt hs

theorem KeptByStages.of_step {P : State → Prop} (hP : KeptByStages P) {s t : State}
    (h : step s = .next t) (hs : P s) : P t := by
  cases step_shape h with
  | idle _ ht => exact ht ▸ hs
  | plain _ hc => exact hP.of_cycle hc (hP.of_fetch hs)
  | taken u v a _ hc _ hv ht =>
    have hu : P u := hP.of_cycle hc (hP.of_fetch hs)
    have hPv : P v := hP.of_cycle hv (hP.of_enterSlot hu)
    subst ht
    split
    · exact hP.of_setPc hPv
    · exact hPv

end Sys2Proof.Machine
end

section
/-! PROOFS. The state (`10_state.md`): the invariant of a step, register 0, and which fields a step can
change. -/

namespace Sys2Proof.Machine

/-! ### The invariant of a step -/

theorem keptByStages_wf : KeptByStages fun s => Memory.wf s.mem = true where
  of_fetch h := h
  of_exec he h := exec_wf he h
  of_halt h := by simpa using h
  of_enterSlot h := h
  of_setPc h := h

theorem keptByStages_get_zero : KeptByStages fun s => s.regs.get 0 = 0#32 where
  of_fetch h := h
  of_exec he h := (exec_get_zero he).trans h
  of_halt h := (get_zero_land _ _).trans h
  of_enterSlot h := h
  of_setPc h := h

/-- A step leaves no transfer over: without one it ends at once, and after one the slot, which starts
with none, asks for none. -/
theorem step_transfer {s t : State} (h : step s = .next t) (hs : s.transfer = none) :
    t.transfer = none := by
  cases step_shape h with
  | idle _ ht => exact ht ▸ hs
  | plain _ _ ht => exact ht
  | taken u v a _ _ _ hv ht =>
    have hv0 : v.transfer = none := slotCycle_transfer hv
    subst ht
    split <;> exact hv0

/-- Settles O4: memory and register 0 by the stages of a step, the transfer by its shape. -/
theorem stepKeepsInvariant : Obligations.StepKeepsInvariant := by
  rintro s t ⟨hmem, hzero, htransfer⟩ h
  exact ⟨keptByStages_wf.of_step h hmem, keptByStages_get_zero.of_step h hzero,
    step_transfer h htransfer⟩

/-! ### `pc` (R27) -/

/-- Settles O22: the meaning asks for no transfer, so it ends the step, and it moves no `pc`. -/
theorem ordinaryInstructionStep : Obligations.OrdinaryInstructionStep := by
  intro s i hs hi hord
  obtain ⟨t, he⟩ := exec_next i (fetch s)
  have ht : t.transfer = none := exec_transfer_of_not_isTransfer hord he
  obtain ⟨-, -, hpc, -⟩ := exec_sameFixed he
  exact ⟨t, step_of_exec hs hi he ht, he, hpc⟩

/-- Settles O32: no cycle moves `pc` from A + 4, so only the end of a taken transfer whose slot did not
halt does. -/
theorem pcMovesOnlyByAdvanceOrTransfer : Obligations.PcMovesOnlyByAdvanceOrTransfer := by
  intro s t hrun h
  cases step_shape h with
  | idle hs => exact absurd hrun hs
  | plain _ hc => exact .inl (cycle_pc hc)
  | taken u v a _ hc hu hv ht =>
    by_cases hv0 : v.halted = .running
    · obtain ⟨i, hi, htr, he⟩ := fetchedTransfer_of_cycle hc hu
      rw [if_pos hv0] at ht
      subst ht
      exact .inr ⟨hv0, i, u, hi, htr, he, hu⟩
    · rw [if_neg hv0] at ht
      subst ht
      exact .inl ((cycle_pc hv).trans (cycle_pc hc))

/-! ### `hi`, `lo` and the parameters (R20, R25) -/

/-- `hi`, `lo` and the parameters are those of `s`. -/
def SameUnused (s t : State) : Prop := t.hi = s.hi ∧ t.lo = s.lo ∧ t.params = s.params

theorem exec_sameUnused {i : Instr} {s t : State} (h : exec i s = .next t) : SameUnused s t := by
  obtain ⟨hhi, hlo, -, -, -, hparams⟩ := exec_sameFixed h
  exact ⟨hhi, hlo, hparams⟩

theorem SameUnused.trans {s t u : State} (h : SameUnused s t) (h' : SameUnused t u) :
    SameUnused s u := by
  obtain ⟨hhi, hlo, hparams⟩ := h
  obtain ⟨hhi', hlo', hparams'⟩ := h'
  exact ⟨hhi'.trans hhi, hlo'.trans hlo, hparams'.trans hparams⟩

theorem keptByStages_sameUnused (s : State) : KeptByStages (SameUnused s) where
  of_fetch h := h
  of_exec he h := h.trans (exec_sameUnused he)
  of_halt h := h.trans (by simp [SameUnused])
  of_enterSlot h := h
  of_setPc h := h

/-- Settles O34, by the stages of a step. -/
theorem hiLoAndParametersNeverChange : Obligations.HiLoAndParametersNeverChange :=
  fun s _ h => (keptByStages_sameUnused s).of_step h ⟨rfl, rfl, rfl⟩

/-! ### Register 0 (R22) -/

@[simp] theorem setX_zero (s : State) (v : Word) : s.setX 0 v = s := if_pos rfl

@[simp] theorem inspectWriteX_zero (s : State) (v : Word) : inspectWriteX s 0 v = s :=
  (dif_pos (by decide)).trans (setX_zero s v)

/-- A load in flight for register 0 lands nowhere. -/
theorem x_land_pend_zero (s : State) (v : Word) (q : Reg) :
    ((s.setPend (some ⟨0, v⟩)).land []).x q = s.x q := by
  simp [State.land]

/-- Settles O5: the write, the host's write and the landing are discarded, and the register view gives 0
for register 0 in every state. -/
theorem registerZeroIsConstant : Obligations.RegisterZeroIsConstant := fun s v =>
  ⟨x_zero s, setX_zero s v, inspectWriteX_zero s v, x_land_pend_zero s v, fun _ t _ => x_zero t⟩

/-! ### The delay-slot word between steps (R32) -/

/-- The fetch overwrites `ds`, `iw` and `transfer` and reads none of them. -/
theorem fetch_overwrites (s : State) (a b : Word) (c : Option Word) :
    fetch { s with ds := a, iw := b, transfer := c } = fetch s := rfl

/-- Settles O36: a running machine's step starts with the fetch, which overwrites the three fields. -/
theorem stepIgnoresSlotWordFromBefore : Obligations.StepIgnoresSlotWordFromBefore := by
  intro s a b c hs
  have hs' : State.halted { s with ds := a, iw := b, transfer := c } = .running := hs
  rw [step_running hs, step_running hs', fetch_overwrites]

end Sys2Proof.Machine
end

section
/-! PROOFS. The bytes of the bus (`20_memory.md` sections 1 and 2): routing, the byte primitives and their
diagnostics, the BIOS load, and the host's peek and poke. -/

namespace Sys2Proof.Machine

/-! ### Routing (R51 to R53) -/

theorem route_eq_some_iff (a : Word) (r : Region) (off : Nat) : route a = some (r, off) ↔
    regionBase r ≤ a.toNat ∧ a.toNat < regionBase r + regionSize r ∧ off = a.toNat - regionBase r := by
  simp only [route, Option.map_eq_some_iff, regionAt_iff, regionContains_iff, Prod.mk.injEq]
  constructor
  · rintro ⟨q, ⟨hlo, hhi⟩, rfl, rfl⟩
    exact ⟨hlo, hhi, rfl⟩
  · rintro ⟨hlo, hhi, rfl⟩
    exact ⟨r, ⟨hlo, hhi⟩, rfl, rfl⟩

theorem route_eq_none_iff (a : Word) : route a = none ↔ mapped a = false := by simp [mapped]

theorem writable_iff_route (a : Word) :
    writable a = true ↔ ∃ r off, route a = some (r, off) ∧ regionWritable r = true := by
  simp only [writable_iff, regionContains_iff, route_eq_some_iff]
  constructor
  · rintro ⟨r, ⟨hlo, hhi⟩, hw⟩
    exact ⟨r, _, ⟨hlo, hhi, rfl⟩, hw⟩
  · rintro ⟨r, off, ⟨hlo, hhi, -⟩, hw⟩
    exact ⟨r, ⟨hlo, hhi⟩, hw⟩

theorem mapped_iff (a : Word) : mapped a = true ↔ ∃ r, regionContains r a.toNat = true := by
  rw [mapped_eq, regionAt_isSome_iff]

theorem unmapped_iff (a : Word) : mapped a = false ↔
    ∀ r, a.toNat < regionBase r ∨ regionBase r + regionSize r ≤ a.toNat := by
  simp [← Bool.not_eq_true, mapped_iff, regionContains_iff, or_iff_not_imp_left]

/-- A routed address is its region's base plus the offset. -/
theorem base_add_of_route {a : Word} {r : Region} {off : Nat} (h : route a = some (r, off)) :
    regionBase r + off = a.toNat := by
  obtain ⟨hlo, -, rfl⟩ := (route_eq_some_iff a r off).1 h
  exact Nat.add_sub_of_le hlo

/-- Settles O13: `Route` finds the one region that contains the address; the table and the four
boundary addresses are computed. -/
theorem routingFollowsRegionTable : Obligations.RoutingFollowsRegionTable :=
  ⟨route_eq_some_iff, ⟨rfl, rfl, rfl⟩, ⟨rfl, rfl, rfl⟩, ⟨rfl, rfl, rfl⟩, ⟨rfl, rfl, rfl⟩,
    ⟨rfl, rfl, rfl⟩, writable_iff_route, by decide⟩

/-- Settles O14: the ranges are what the five regions leave of the address space. -/
theorem unmappedAddressesAreTheseRanges : Obligations.UnmappedAddressesAreTheseRanges := by
  intro a
  rw [unmapped_iff]
  constructor
  · intro h
    have hram := h .mainRam
    have hexp := h .expansion1
    have hpad := h .scratchpad
    have hio := h .ioPorts
    have hrom := h .biosRom
    simp only [regionBase, regionSize] at hram hexp hpad hio hrom
    omega
  · intro h r
    cases r <;> simp only [regionBase, regionSize] <;> omega

/-! ### The byte primitives (R57 to R59) -/

theorem readU8_of_route (m : Memory) {a : Word} {r : Region} {off : Nat}
    (h : route a = some (r, off)) : readU8 m a = Memory.get m (regionBase r + off) := by
  simp [readU8, mapped, base_add_of_route h, h]

theorem readDiag_mapped {a : Word} (h : mapped a = true) : readDiag a = [] := by
  simp [readDiag, h]

theorem readDiag_unmapped {a : Word} (h : mapped a = false) : readDiag a = [.unmappedRead a] := by
  simp [readDiag, h]

theorem writeDiag_writable {a : Word} (b : Byte) (h : writable a = true) : writeDiag a b = [] := by
  simp [writeDiag, h]

theorem writeDiag_not_writable {a : Word} (b : Byte) (h : writable a = false) :
    writeDiag a b = [.unmappedWrite a b] := by
  simp [writeDiag, h]

/-- Settles O15: the routed content sits at the region's base plus the offset. -/
theorem byteReadRoutesOrGivesSentinel : Obligations.ByteReadRoutesOrGivesSentinel := by
  refine fun m a => ⟨fun r off h => ⟨readU8_of_route m h, ?_⟩, fun h => ?_⟩
  · exact readDiag_mapped (by simp [mapped, h])
  · have hu : mapped a = false := (route_eq_none_iff a).1 h
    exact ⟨readU8_unmapped m hu, readDiag_unmapped hu⟩

/-- Settles O16, from the rules of the two byte primitives. -/
theorem busRoundTrip : Obligations.BusRoundTrip := fun m a _ b =>
  ⟨fun h => ⟨readU8_writeU8_same m b h, writeDiag_writable b h⟩, readDiag_mapped,
    fun h => ⟨readU8_unmapped m h, readDiag_unmapped h⟩,
    fun h => ⟨by rw [writeU8_not_writable m b h], writeDiag_not_writable b h⟩,
    readU8_writeU8_other m b⟩

/-! ### Construction and reset (R55) -/

theorem readU8_nil {a : Word} (h : mapped a = true) : readU8 [] a = 0x00#8 := if_pos h

/-- Settles O2: memory is the empty list at construction, and a CPU reset keeps it. -/
theorem constructionZeroesMemoryAndResetKeepsIt :
    Obligations.ConstructionZeroesMemoryAndResetKeepsIt :=
  ⟨fun _ _ h => readU8_nil h, fun _ _ => rfl⟩

/-! ### Host access (R75) -/

/-- Settles O60: a peek is a byte read and a poke a byte write, so their rules are those of the bus. -/
theorem hostPeekAndPoke : Obligations.HostPeekAndPoke := by
  refine fun s a c b => ⟨fun r off h => readU8_of_route s.mem h, fun h => ?_, fun h => ⟨?_, ?_⟩,
    poke_not_writable s b, rfl, wf_poke s a b⟩
  · exact readU8_unmapped s.mem ((route_eq_none_iff a).1 h)
  · simp [writeDiag_writable b h]
  · exact peek_poke s a c b h

/-! ### The BIOS load (R56) -/

theorem add_ofNat_succ (a : Word) (k : Nat) :
    a + BitVec.ofNat 32 (k + 1) = a + 1#32 + BitVec.ofNat 32 k := by
  rw [Nat.add_comm k 1, BitVec.ofNat_add, ← BitVec.add_assoc]

/-- Addresses closer than 2^32 above an address do not wrap onto it. -/
theorem ne_add_one_add_ofNat (a : Word) {k : Nat} (h : k + 1 < 2 ^ 32) :
    a ≠ a + 1#32 + BitVec.ofNat 32 k := by
  rw [← add_ofNat_succ]
  intro e
  have hnat := congrArg BitVec.toNat e
  rw [BitVec.toNat_add, BitVec.toNat_ofNat] at hnat
  omega

theorem readU8_loadBytes_outside (m : Memory) (a : Word) (bs : List Byte) {c : Word}
    (h : ∀ k, k < bs.length → c ≠ a + BitVec.ofNat 32 k) :
    readU8 (loadBytes m a bs) c = readU8 m c := by
  induction bs generalizing m a with
  | nil => rfl
  | cons b bs ih =>
    have hfirst : c ≠ a := by simpa using h 0 (Nat.zero_lt_succ _)
    have hrest : ∀ k, k < bs.length → c ≠ a + 1#32 + BitVec.ofNat 32 k := fun k hk =>
      add_ofNat_succ a k ▸ h (k + 1) (Nat.succ_lt_succ hk)
    rw [loadBytes, ih _ _ hrest, readU8_loadU8_other m b hfirst]

theorem readU8_loadBytes_inside (m : Memory) (a : Word) (bs : List Byte) {k : Nat}
    (hlen : bs.length ≤ 2 ^ 32) (hk : k < bs.length) (hm : mapped (a + BitVec.ofNat 32 k) = true) :
    readU8 (loadBytes m a bs) (a + BitVec.ofNat 32 k) = bs[k] := by
  induction bs generalizing m a k with
  | nil => cases hk
  | cons b bs ih =>
    rw [List.length_cons] at hlen
    cases k with
    | zero =>
      rw [BitVec.add_zero] at hm ⊢
      rw [loadBytes, readU8_loadBytes_outside _ _ _ fun j hj => ne_add_one_add_ofNat a (by omega),
        readU8_loadU8_same m b hm, List.getElem_cons_zero]
    | succ k =>
      rw [add_ofNat_succ] at hm ⊢
      rw [loadBytes, ih _ _ (by omega) (Nat.lt_of_succ_lt_succ hk) hm, List.getElem_cons_succ]

theorem mapped_biosRom {k : Nat} (hk : k < 0x80000) :
    mapped (0xBFC00000#32 + BitVec.ofNat 32 k) = true := by
  refine (mapped_iff _).2 ⟨.biosRom, (regionContains_iff _ _).2 ?_⟩
  rw [BitVec.toNat_add, BitVec.toNat_ofNat, BitVec.toNat_ofNat]
  simp only [regionBase, regionSize]
  omega

theorem loadBios_mem_of_length {s : State} {image : List Byte} (h : image.length = 0x80000) :
    (loadBios s image).mem = loadBytes s.mem 0xBFC00000#32 image := congrArg State.mem (if_pos h)

theorem loadBios_rejected {s : State} {image : List Byte} (h : image.length ≠ 0x80000) :
    loadBios s image = { s with diags := s.diags ++ [.biosRejected image.length] } := if_neg h

/-- Settles O19: storing the image sets its bytes, all of them in the ROM, and no other byte; a rejected
image leaves memory, and with it an earlier image, as it was (log entry 14). -/
theorem biosLoadFillsRomOrIsRejected : Obligations.BiosLoadFillsRomOrIsRejected := by
  refine fun s image => ⟨fun h => ⟨fun k hk => ?_, fun a ha => ?_⟩, fun h => ?_⟩
  · rw [loadBios_mem_of_length h]
    exact readU8_loadBytes_inside _ _ _ (by omega) (by omega) (mapped_biosRom hk)
  · rw [loadBios_mem_of_length h]
    exact readU8_loadBytes_outside _ _ _ (h ▸ ha)
  · rw [loadBios_rejected h]
    exact ⟨rfl, rfl⟩

end Sys2Proof.Machine
end

section
/-! PROOFS. Wider accesses (`20_memory.md` section 3): a read as the sum of its bytes (R61), and what a read
sees of a word just stored (R60, R62, R72). -/

namespace Sys2Proof.Machine

/-! ### A wide read as a sum -/

/-- A byte below a number that is a multiple of 256: the two parts share no bit. -/
theorem toNat_setWidth_or_shiftLeft (b : Byte) {w : Word} (hw : w.toNat < 2 ^ 24) :
    (b.setWidth 32 ||| w <<< 8).toNat = b.toNat + 2 ^ 8 * w.toNat := by
  have hb : b.toNat < 2 ^ 8 := b.isLt
  have hshift : (w <<< 8).toNat = 2 ^ 8 * w.toNat := by
    rw [BitVec.toNat_shiftLeft, Nat.shiftLeft_eq]
    omega
  rw [BitVec.toNat_or, BitVec.toNat_setWidth_of_le (by decide), hshift, Nat.or_comm,
    ← Nat.two_pow_add_eq_or_of_lt hb, Nat.add_comm]

theorem toNat_readLE_lt (m : Memory) (a : Word) {n : Nat} (hn : n ≤ 4) :
    (readLE m a n).toNat < 2 ^ (8 * n) := by
  induction n generalizing a with
  | zero => exact Nat.one_pos
  | succ n ih =>
    have hrest : (readLE m (a + 1#32) n).toNat < 2 ^ (8 * n) := ih _ (by omega)
    have hpow : 2 ^ (8 * n) ≤ 2 ^ 24 := Nat.pow_le_pow_right (by decide) (by omega)
    have hb : (readU8 m a).toNat < 2 ^ 8 := (readU8 m a).isLt
    rw [readLE, toNat_setWidth_or_shiftLeft _ (by omega), Nat.mul_succ, Nat.pow_add]
    omega

/-- The recursion of a wide read, in numbers. -/
theorem toNat_readLE_succ (m : Memory) (a : Word) {n : Nat} (hn : n ≤ 3) :
    (readLE m a (n + 1)).toNat = (readU8 m a).toNat + 2 ^ 8 * (readLE m (a + 1#32) n).toNat := by
  have hrest : (readLE m (a + 1#32) n).toNat < 2 ^ (8 * n) := toNat_readLE_lt m _ (by omega)
  have hpow : 2 ^ (8 * n) ≤ 2 ^ 24 := Nat.pow_le_pow_right (by decide) (by omega)
  rw [readLE, toNat_setWidth_or_shiftLeft _ (by omega)]

theorem toNat_readLE_one (m : Memory) (a : Word) : (readLE m a 1).toNat = (readU8 m a).toNat := by
  rw [toNat_readLE_succ m a (by decide)]
  rfl

/-- Settles O17: the recursion of a wide read, unrolled. -/
theorem wideReadsAreLittleEndian : Obligations.WideReadsAreLittleEndian := by
  intro m a
  have htwo : a + 1#32 + 1#32 = a + 2#32 := BitVec.add_assoc ..
  have hthree : a + 2#32 + 1#32 = a + 3#32 := BitVec.add_assoc ..
  refine ⟨toNat_readLE_one m a, ?_, ?_, ?_, ?_, ?_⟩
  · rw [toNat_readLE_succ m a (by decide), toNat_readLE_one]
  · rw [toNat_readLE_succ m a (by decide), toNat_readLE_succ m _ (by decide), htwo,
      toNat_readLE_succ m _ (by decide), hthree, toNat_readLE_one]
    omega
  · simp [readDiags]
  · simp [readDiags]
  · simp [readDiags, htwo, hthree]

/-! ### Reading back a stored word -/

/-- The four bytes of a stored word, where they can be written. -/
theorem readU8_writeLE_word (m : Memory) (a v : Word) {k : Nat} (hk : k < 4)
    (hw : writable (a + BitVec.ofNat 32 k) = true) :
    readU8 (writeLE m a 4 v) (a + BitVec.ofNat 32 k) = byteOf v k := by
  rw [readU8_writeLE_inside m a 4 v hk (by decide), if_pos hw]

theorem readLE_writeLE_word (m : Memory) (a v : Word)
    (hw : ∀ k, k < 4 → writable (a + BitVec.ofNat 32 k) = true) :
    readLE (writeLE m a 4 v) a 4 = v :=
  eq_of_bytes fun k hk => by
    rw [byteOf_readLE _ _ 4 k hk (by decide), readU8_writeLE_word m a v hk (hw k hk)]

/-- A read of `n` bytes gives zeros above them. -/
theorem byteOf_readLE_ge (m : Memory) (a : Word) {n k : Nat} (hn : n ≤ 4) (hk : n ≤ k) :
    byteOf (readLE m a n) k = 0#8 := by
  have hlt : (readLE m a n).toNat < 2 ^ (8 * k) :=
    (toNat_readLE_lt m a hn).trans_le (Nat.pow_le_pow_right (by decide) (by omega))
  apply BitVec.eq_of_toNat_eq
  rw [byteOf, BitVec.extractLsb'_toNat, Nat.shiftRight_eq_div_pow, Nat.div_eq_of_lt hlt]
  rfl

/-- The upper halfword of a stored word. -/
theorem readLE_writeLE_upperHalf (m : Memory) (a v : Word)
    (hw : ∀ k, k < 4 → writable (a + BitVec.ofNat 32 k) = true) :
    readLE (writeLE m a 4 v) (a + 2#32) 2 = v >>> 16 := by
  refine eq_of_bytes fun k _ => ?_
  have hright : byteOf (v >>> 16) k = byteOf v (k + 2) := byteOf_shr v 2 k
  rw [hright]
  by_cases hk : k < 2
  · have haddr : a + 2#32 + BitVec.ofNat 32 k = a + BitVec.ofNat 32 (k + 2) := by
      rw [Nat.add_comm k 2, BitVec.ofNat_add, ← BitVec.add_assoc]
    rw [byteOf_readLE _ _ 2 k hk (by decide), haddr,
      readU8_writeLE_word m a v (by omega) (hw _ (by omega))]
  · rw [byteOf_readLE_ge _ _ (by decide) (by omega), byteOf_ge v (by omega)]

/-- Settles O18. -/
theorem storedWordReadsBackAtEveryWidth : Obligations.StoredWordReadsBackAtEveryWidth :=
  fun m a v hw => ⟨readLE_writeLE_word m a v hw,
    fun k hk => readU8_writeLE_word m a v hk (hw k hk), readLE_writeLE_upperHalf m a v hw⟩

/-- Settles O39: `sw` is no transfer, so the next step fetches at A + 4, from the memory it wrote. -/
theorem storeIsSeenByNextFetch : Obligations.StoreIsSeenByNextFetch := by
  intro s t rs rt imm16 hrun hi haddr hw hstep
  obtain ⟨u, hu, he, hpc⟩ := ordinaryInstructionStep s _ hrun hi rfl
  obtain rfl : u = t := by simpa [hu] using hstep
  have hea : (fetch s).ea rs imm16 = s.pc + 4#32 := haddr
  have hmem : u.mem = writeLE s.mem (s.pc + 4#32) 4 (s.x rt) := by
    simp only [exec, execSw, retireStore, hea] at he
    cases he
    simp
  rw [fetch_iw, hpc, hmem, readLE_writeLE_word _ _ _ hw]

end Sys2Proof.Machine
end

section
/-! PROOFS. Memory under a step (`20_memory.md` R56, R58): no stage of a step writes the ROM or unmapped
space. -/

namespace Sys2Proof.Machine

theorem keptByStages_not_writable {a : Word} (ha : writable a = false) (b : Byte) :
    KeptByStages fun s => readU8 s.mem a = b where
  of_fetch h := h
  of_exec he h := (exec_not_writable he ha).trans h
  of_halt h := by simpa using h
  of_enterSlot h := h
  of_setPc h := h

/-- Settles O35, by the stages of a step. -/
theorem romIsNeverWritten : Obligations.RomIsNeverWritten :=
  fun _ _ _ h ha => (keptByStages_not_writable ha _).of_step h rfl

end Sys2Proof.Machine
end

section
/-! PROOFS. The alignment of `pc` (`20_memory.md` R64): a step adds 4 to `pc` or moves it to the target of
a jump or branch, and every target but a register jump's is a multiple of 4. -/

namespace Sys2Proof.Machine

/-- A multiple of 4, as an address. -/
def Aligned (a : Word) : Prop := a.toNat % 4 = 0

theorem Aligned.add {a b : Word} (ha : Aligned a) (hb : Aligned b) : Aligned (a + b) := by
  unfold Aligned at *
  rw [BitVec.toNat_add]
  omega

theorem aligned_shiftLeft_two (v : Word) : Aligned (v <<< 2) := by
  unfold Aligned
  rw [BitVec.toNat_shiftLeft, Nat.shiftLeft_eq]
  omega

/-- A branch target lies a multiple of 4 away from A + 4 (R140). -/
theorem aligned_btarget {s : State} (hpc : Aligned s.pc) (imm16 : Half) :
    Aligned (s.btarget imm16) :=
  hpc.add (aligned_shiftLeft_two _)

/-- A jump target is a multiple of 4 wherever the jump stands: of `pc` it keeps the top bits (R140). -/
theorem aligned_jtarget (s : State) (target26 : BitVec 26) : Aligned (s.jtarget target26) := by
  have htop : (s.pc &&& 0xF0000000#32).toNat % 2 ^ 2 = 0 := by
    rw [BitVec.toNat_and, Nat.and_mod_two_pow]
    exact Nat.and_zero _
  have hlow : (target26.setWidth 32 <<< 2 : Word).toNat % 2 ^ 2 = 0 := aligned_shiftLeft_two _
  change (s.jtarget target26).toNat % 2 ^ 2 = 0
  rw [State.jtarget, BitVec.toNat_or, Nat.or_mod_two_pow, htop, hlow]
  rfl

/-- The transfer a jump or branch asks for is to its target. -/
theorem target_of_retireTransfer {taken : Bool} {target a : Word} {ws : List Reg} {s u : State}
    (hs : s.transfer = none) (h : retireTransfer taken target ws s = .next u)
    (hu : u.transfer = some a) : a = target := by
  cases h
  cases taken
  · simp [hs] at hu
  · simpa using hu.symm

/-- Every jump or branch but the two register jumps asks for a transfer to a multiple of 4. -/
theorem aligned_transfer {i : Instr} {s u : State} {a : Word} (hpc : Aligned s.pc)
    (hs : s.transfer = none) (htr : i.isTransfer = true) (hjr : ∀ rs, i ≠ .jr rs)
    (hjalr : ∀ rs rd, i ≠ .jalr rs rd) (h : exec i s = .next u) (hu : u.transfer = some a) :
    Aligned a := by
  have hlink : (s.setX 31 s.link).transfer = none := (setX_transfer ..).trans hs
  have hlinkpc : Aligned (s.setX 31 s.link).pc := (setX_pc s 31 s.link).symm ▸ hpc
  cases i with
  | jr rs => exact absurd rfl (hjr rs)
  | jalr rs rd => exact absurd rfl (hjalr rs rd)
  | j t => exact target_of_retireTransfer hs h hu ▸ aligned_jtarget s t
  | jal t => exact target_of_retireTransfer hlink h hu ▸ aligned_jtarget s t
  | beq _ _ imm | bne _ _ imm | blez _ imm | bgtz _ imm | bltz _ imm | bgez _ imm =>
    exact target_of_retireTransfer hs h hu ▸ aligned_btarget hpc imm
  | bltzal _ imm | bgezal _ imm =>
    exact target_of_retireTransfer hlink h hu ▸ aligned_btarget hlinkpc imm
  | _ => cases htr

/-- Settles O33: `pc` moves by the advance of the fetch or to a transfer's target; a halted machine's
stays. -/
theorem alignedPcStaysAlignedWithoutRegisterJump :
    Obligations.AlignedPcStaysAlignedWithoutRegisterJump := by
  intro s t hpc h hjr hjalr
  have hnext : Aligned (s.pc + 4#32) := Aligned.add hpc rfl
  by_cases hrun : s.halted = .running
  · obtain ht | ⟨-, i, u, hi, htr, he, hu⟩ := pcMovesOnlyByAdvanceOrTransfer s t hrun h
    · exact ht ▸ hnext
    · exact aligned_transfer hnext rfl htr (fun rs e => hjr rs (e ▸ hi))
        (fun rs rd e => hjalr rs rd (e ▸ hi)) he hu
  · rw [step_halted hrun] at h
    cases h
    exact hpc

end Sys2Proof.Machine
end

section
/-! PROOFS. Diagnostics influence nothing (`20_memory.md` R59): no stage of a step reads the stream, so two
states that differ only there are taken to outcomes that differ only there. -/

namespace Sys2Proof.Machine

/-! ### States that differ only in the stream -/

/-- `diags <- d`: another diagnostic stream on the same machine. -/
def State.setDiags (s : State) (d : List Diag) : State := { s with diags := d }

theorem sameButDiags_setDiags (s : State) (d : List Diag) : SameButDiags s (s.setDiags d) := rfl

theorem SameButDiags.eq_setDiags {s t : State} (h : SameButDiags s t) : t = s.setDiags t.diags :=
  (congrArg (State.setDiags · t.diags) h).symm

/-- Outcomes that are alike are both next states, or the same refusal: there is no fault. -/
theorem OutcomesAlike.cases {R : State → State → Prop} {x y : Result} (h : OutcomesAlike R x y) :
    (∃ t u, x = .next t ∧ y = .next u ∧ R t u) ∨ ∃ r, x = .refused r ∧ y = .refused r := by
  match x, y with
  | .next t, .next u => exact .inl ⟨t, u, rfl, rfl, h⟩
  | .refused r, .refused q => exact .inr ⟨r, rfl, congrArg _ (Eq.symm h)⟩

/-- A stage that does not read the stream: on another stream its outcome is alike. -/
def DiagsUnread (f : State → Result) : Prop :=
  ∀ s d, OutcomesAlike SameButDiags (f s) (f (s.setDiags d))

theorem DiagsUnread.alike {f : State → Result} (hf : DiagsUnread f) {s t : State}
    (h : SameButDiags s t) : OutcomesAlike SameButDiags (f s) (f t) :=
  h.eq_setDiags ▸ hf s t.diags

theorem DiagsUnread.ite {f g : State → Result} (hf : DiagsUnread f) (c : Bool)
    (hg : DiagsUnread g) : DiagsUnread fun s => if c then f s else g s := by
  cases c
  · exact hg
  · exact hf

/-! ### The shared operations on another stream -/

theorem setX_setDiags (s : State) (d : List Diag) (i : Reg) (v : Word) :
    (s.setDiags d).setX i v = (s.setX i v).setDiags d := by
  unfold State.setX
  split <;> rfl

theorem sameButDiags_setX (s : State) (d : List Diag) (i : Reg) (v : Word) :
    SameButDiags (s.setX i v) ((s.setDiags d).setX i v) :=
  setX_setDiags s d i v ▸ sameButDiags_setDiags _ d

theorem land_setDiags (s : State) (d : List Diag) (ws : List Reg) :
    (s.setDiags d).land ws = (s.land ws).setDiags d := by
  have hpend : (s.setDiags d).pend = s.pend := rfl
  unfold State.land
  rw [hpend]
  cases s.pend with
  | none => rfl
  | some p =>
    dsimp only
    split
    · rfl
    · exact setX_setDiags (s.setPend none) d p.reg p.val

theorem SameButDiags.land {s t : State} (h : SameButDiags s t) (ws : List Reg) :
    SameButDiags (s.land ws) (t.land ws) := by
  rw [h.eq_setDiags, land_setDiags]
  rfl

/-! ### The endings on another stream -/

theorem diagsUnread_retireWrite (rd : Reg) (v : Word) : DiagsUnread (retireWrite rd v) := fun s d =>
  (sameButDiags_setX s d rd v).land [rd]

theorem diagsUnread_retireLoad (rt : Reg) (v a : Word) (n : Nat) :
    DiagsUnread (retireLoad rt v a n) := by
  intro s d
  have h : SameButDiags (s.noteRead a n) ((s.setDiags d).noteRead a n) := rfl
  exact congrArg (State.setPend · (some ⟨rt, v⟩)) (h.land [])

theorem diagsUnread_retireStore (a : Word) (n : Nat) (v : Word) :
    DiagsUnread (retireStore a n v) := by
  intro s d
  have h : SameButDiags (s.memWrite a n v) ((s.setDiags d).memWrite a n v) := rfl
  exact h.land []

theorem diagsUnread_retireTransfer (taken : Bool) (target : Word) (ws : List Reg) :
    DiagsUnread (retireTransfer taken target ws) := by
  intro s d
  have h : SameButDiags (s.land ws) ((s.setDiags d).land ws) :=
    (sameButDiags_setDiags s d).land ws
  cases taken
  · exact h
  · exact congrArg (State.setTransfer · (some target)) h

/-- An and-link branch tests, and takes its target from, the state after the link is written. -/
theorem diagsUnread_linkingBranch (p : Int → Bool) (rs : Reg) (imm16 : Half) :
    DiagsUnread fun s => let u := s.setX 31 s.link
      retireTransfer (p (u.x rs).toInt) (u.btarget imm16) [31] u := by
  intro s d
  have hlink : (s.setDiags d).setX 31 (s.setDiags d).link = (s.setX 31 s.link).setDiags d :=
    setX_setDiags s d 31 s.link
  simp only [hlink]
  exact diagsUnread_retireTransfer _ _ _ (s.setX 31 s.link) d

theorem diagsUnread_raiseHalt (cause : HaltCause) : DiagsUnread (raiseHalt cause) := by
  intro s d
  have h : SameButDiags (s.land []) ((s.setDiags d).land []) := (sameButDiags_setDiags s d).land []
  exact congrArg (State.setHalted · (.halted cause s.iw)) h

/-! ### The stages of a step -/

/-- A meaning computes what it hands to its ending from other fields than the stream. -/
theorem diagsUnread_exec (i : Instr) : DiagsUnread (exec i) := by
  intro s d
  cases i with
  | addi rs rt imm =>
    exact (diagsUnread_raiseHalt _).ite (addOverflows (s.x rs) (sext16 imm))
      (diagsUnread_retireWrite rt (s.x rs + sext16 imm)) s d
  | add rs rt rd =>
    exact (diagsUnread_raiseHalt _).ite (addOverflows (s.x rs) (s.x rt))
      (diagsUnread_retireWrite rd (s.x rs + s.x rt)) s d
  | sub rs rt rd =>
    exact (diagsUnread_raiseHalt _).ite (subOverflows (s.x rs) (s.x rt))
      (diagsUnread_retireWrite rd (s.x rs - s.x rt)) s d
  | addiu | slti | sltiu | andi | ori | xori | lui => exact diagsUnread_retireWrite _ _ s d
  | sll | srl | sra | sllv | srlv | srav => exact diagsUnread_retireWrite _ _ s d
  | addu | subu | and | or | xor | nor | slt | sltu => exact diagsUnread_retireWrite _ _ s d
  | lb | lh | lwl | lw | lbu | lhu | lwr => exact diagsUnread_retireLoad _ _ _ _ s d
  | sb | sh | sw => exact diagsUnread_retireStore _ _ _ s d
  | swl | swr => exact (diagsUnread_retireStore _ _ _).alike rfl
  | j | jr | beq | bne | blez | bgtz | bltz | bgez => exact diagsUnread_retireTransfer _ _ _ s d
  | jalr _ rd => exact (diagsUnread_retireTransfer _ _ _).alike (sameButDiags_setX s d rd s.link)
  | jal => exact (diagsUnread_retireTransfer _ _ _).alike (sameButDiags_setX s d 31 s.link)
  | bltzal rs imm => exact diagsUnread_linkingBranch (fun v => decide (v < 0)) rs imm s d
  | bgezal rs imm => exact diagsUnread_linkingBranch (fun v => decide (0 ≤ v)) rs imm s d

theorem diagsUnread_cycle (slot : Bool) : DiagsUnread (cycle slot) := by
  intro s d
  obtain ⟨i, hd, -⟩ | ⟨e, hd, -⟩ := cycle_cases slot s
  · have hd' : decode (s.setDiags d).params.specialAlu (s.setDiags d).iw = .ok i := hd
    simp only [cycle, hd, hd']
    split
    · rfl
    · exact diagsUnread_exec i s d
  · have hd' : decode (s.setDiags d).params.specialAlu (s.setDiags d).iw = .error e := hd
    rw [cycle_of_undefined hd, cycle_of_undefined hd']
    exact diagsUnread_raiseHalt .undefinedInstruction s d

theorem diagsUnread_delaySlot (target : Word) : DiagsUnread (delaySlot target) := by
  intro s d
  have hslot := (diagsUnread_cycle true) s.enterSlot d
  obtain ⟨t, u, ht, hu, h⟩ | ⟨r, ht, hu⟩ := hslot.cases
  · have hu' : cycle true (s.setDiags d).enterSlot = .next u := hu
    rw [h.eq_setDiags] at hu'
    simp only [delaySlot, ht, hu']
    change SameButDiags (if t.halted = .running then _ else _) (if t.halted = .running then _ else _)
    split <;> rfl
  · have hu' : cycle true (s.setDiags d).enterSlot = .refused r := hu
    simp only [delaySlot, ht, hu']
    rfl

theorem diagsUnread_runFetched : DiagsUnread runFetched := by
  intro s d
  obtain ⟨t, u, ht, hu, h⟩ | ⟨r, ht, hu⟩ := (diagsUnread_cycle false s d).cases
  · rw [h.eq_setDiags] at hu
    simp only [runFetched, ht, hu]
    have htr : (t.setDiags u.diags).transfer = t.transfer := rfl
    rw [htr]
    cases t.transfer with
    | none => rfl
    | some a => exact diagsUnread_delaySlot a t u.diags
  · simp only [runFetched, ht, hu]
    rfl

/-- Settles O37: the fetch reads another stream no more than the stages after it. -/
theorem diagnosticsInfluenceNothing : Obligations.DiagnosticsInfluenceNothing := by
  intro s d
  by_cases hs : s.halted = .running
  · have hs' : (s.setDiags d).halted = .running := hs
    have hfetch : SameButDiags (fetch s) (fetch (s.setDiags d)) := rfl
    rw [step_running hs]
    exact (step_running hs').symm ▸ diagsUnread_runFetched.alike hfetch
  · have hs' : (s.setDiags d).halted ≠ .running := hs
    rw [step_halted hs]
    exact (step_halted hs').symm ▸ sameButDiags_setDiags s d

end Sys2Proof.Machine
end

section
/-! PROOFS. The decoder (`30_encoding.md` R91, R97 to R101): a word decodes to a populated instruction exactly
when it has the instruction's used fields, and then it is of the instruction's row. -/

namespace Sys2Proof

/-! ### Words by their fields (R91) -/

/-- A field that a mask keeps whole is that of the masked word. -/
theorem extract_of_and_eq {w m v : Word} {start len : Nat} (h : w &&& m = v)
    (hm : m.extractLsb' start len = BitVec.allOnes len) :
    w.extractLsb' start len = v.extractLsb' start len := by
  rw [← h, BitVec.extractLsb'_and, hm, BitVec.and_allOnes]

/-- Every word in the fields of the I format. -/
theorem eq_encI (w : Word) : w = encI (opField w) (rsBits w) (rtBits w) (immField w) := by
  simp only [encI, opField, rsBits, rtBits, immField]
  rw [BitVec.extractLsb'_append_extractLsb'_eq_extractLsb' (by decide),
    BitVec.extractLsb'_append_extractLsb'_eq_extractLsb' (by decide)]
  exact eq_encJ w

/-- Every word with `op` = 0 in the fields of the R format. -/
theorem eq_encR {w : Word} (h : opField w = 0#6) :
    w = encR (rsBits w) (rtBits w) (rdBits w) (shamtField w) (functField w) := by
  simp only [encR, ← h, opField, rsBits, rtBits, rdBits, shamtField, functField]
  rw [BitVec.extractLsb'_append_extractLsb'_eq_extractLsb' (by decide),
    BitVec.extractLsb'_append_extractLsb'_eq_extractLsb' (by decide),
    BitVec.extractLsb'_append_extractLsb'_eq_extractLsb' (by decide),
    BitVec.extractLsb'_append_extractLsb'_eq_extractLsb' (by decide)]
  exact eq_encJ w

/-! ### Used fields (R101): what each mask of `Instr.usedBits` leaves of a word -/

section
variable (op : BitVec 6) (rs rt rd sh : BitVec 5) (funct : BitVec 6) (imm : Half)

theorem and_ones16 (v : Half) : v &&& 0xFFFF#16 = v := BitVec.and_allOnes

theorem and_maskOpRsRtImm (w : Word) : w &&& maskOpRsRtImm = w := BitVec.and_allOnes

/-- A mask of the I format that keeps `op` and `imm16`, and keeps or drops `rs` and `rt`. -/
theorem encI_and (mrs mrt : BitVec 5) :
    encI op rs rt imm &&& encI 0x3F#6 mrs mrt 0xFFFF#16 = encI op (rs &&& mrs) (rt &&& mrt) imm := by
  change (op ++ (rs ++ (rt ++ imm)) : BitVec (6 + (5 + (5 + 16)))) &&&
    (0x3F#6 ++ (mrs ++ (mrt ++ 0xFFFF#16)) : BitVec (6 + (5 + (5 + 16)))) = _
  simp only [BitVec.and_append, and_ones6, and_ones16]
  rfl

theorem encI_and_maskOpRsImm : encI op rs rt imm &&& maskOpRsImm = encI op rs 0#5 imm :=
  (encI_and op rs rt imm 0x1F#5 0#5).trans (by simp only [and_ones5, BitVec.and_zero])

theorem encI_and_maskOpRtImm : encI op rs rt imm &&& maskOpRtImm = encI op 0#5 rt imm :=
  (encI_and op rs rt imm 0#5 0x1F#5).trans (by simp only [and_ones5, BitVec.and_zero])

/-- A mask of the R format that keeps `op` and `funct`, and keeps or drops each of the other fields. -/
theorem encR_and (mrs mrt mrd msh : BitVec 5) :
    encR rs rt rd sh funct &&& (0x3F#6 ++ (mrs ++ (mrt ++ (mrd ++ (msh ++ 0x3F#6)))) :
      BitVec (6 + (5 + (5 + (5 + (5 + 6)))))) =
    encR (rs &&& mrs) (rt &&& mrt) (rd &&& mrd) (sh &&& msh) funct := by
  change (0#6 ++ (rs ++ (rt ++ (rd ++ (sh ++ funct)))) : BitVec (6 + (5 + (5 + (5 + (5 + 6)))))) &&& _ =
    _
  simp only [BitVec.and_append, and_ones6]
  rfl

theorem encR_and_maskShift : encR rs rt rd sh funct &&& maskShift = encR 0#5 rt rd sh funct :=
  (encR_and rs rt rd sh funct 0#5 0x1F#5 0x1F#5 0x1F#5).trans
    (by simp only [and_ones5, BitVec.and_zero])

theorem encR_and_maskThreeReg : encR rs rt rd sh funct &&& maskThreeReg = encR rs rt rd 0#5 funct :=
  (encR_and rs rt rd sh funct 0x1F#5 0x1F#5 0x1F#5 0#5).trans
    (by simp only [and_ones5, BitVec.and_zero])

/-- The used fields of `jr`. -/
theorem encR_and_op_rs_funct :
    encR rs rt rd sh funct &&& 0xFFE0003F#32 = encR rs 0#5 0#5 0#5 funct :=
  (encR_and rs rt rd sh funct 0x1F#5 0#5 0#5 0#5).trans (by simp only [and_ones5, BitVec.and_zero])

/-- The used fields of `jalr`. -/
theorem encR_and_op_rs_rd_funct :
    encR rs rt rd sh funct &&& 0xFFE0F83F#32 = encR rs 0#5 rd 0#5 funct :=
  (encR_and rs rt rd sh funct 0x1F#5 0#5 0x1F#5 0#5).trans
    (by simp only [and_ones5, BitVec.and_zero])

end

/-! ### A word with the used fields of an instruction decodes to it -/

section
variable {o : Bool} {op funct : BitVec 6} {cc : BitVec 5} {rs rt rd : Reg} {sh : BitVec 5} {imm : Half}
  {w : Word}

theorem decode_of_iFormat {c : Reg → Reg → Half → Instr}
    (hc : ∀ v, opField v = op → decode o v = iFormat c v)
    (hw : w &&& maskOpRsRtImm = encI op (regBits rs) (regBits rt) imm) :
    decode o w = .ok (c rs rt imm) := by
  obtain rfl := (and_maskOpRsRtImm w).symm.trans hw
  simp [hc, iFormat, rsField, rtField]

theorem decode_of_rsFormat {c : Reg → Half → Instr}
    (hc : ∀ v, opField v = op → decode o v = rsFormat c v)
    (hw : w &&& maskOpRsImm = encI op (regBits rs) 0#5 imm) : decode o w = .ok (c rs imm) := by
  have hop : opField w = op := (extract_of_and_eq hw rfl).trans (opField_encI ..)
  have hrs : rsBits w = regBits rs := (extract_of_and_eq hw rfl).trans (rsBits_encI ..)
  have himm : immField w = imm := (extract_of_and_eq hw rfl).trans (immField_encI ..)
  simp [hc w hop, rsFormat, rsField, hrs, himm]

theorem decode_of_lui (hw : w &&& maskOpRtImm = encI 0x0F#6 0#5 (regBits rt) imm) :
    decode o w = .ok (.lui rt imm) := by
  have hop : opField w = 0x0F#6 := (extract_of_and_eq hw rfl).trans (opField_encI ..)
  have hrt : rtBits w = regBits rt := (extract_of_and_eq hw rfl).trans (rtBits_encI ..)
  have himm : immField w = imm := (extract_of_and_eq hw rfl).trans (immField_encI ..)
  simp [decode, hop, rtField, hrt, himm]

theorem decode_of_bcond {c : Reg → Half → Instr}
    (hc : ∀ v, rtBits v = cc → decodeBcond v = rsFormat c v)
    (hw : w &&& maskOpRsRtImm = encI 0x01#6 (regBits rs) cc imm) : decode o w = .ok (c rs imm) := by
  obtain rfl := (and_maskOpRsRtImm w).symm.trans hw
  simp [decode, hc, rsFormat, rsField]

theorem decode_of_jr (hw : w &&& 0xFFE0003F#32 = encR (regBits rs) 0#5 0#5 0#5 0x08#6) :
    decode o w = .ok (.jr rs) := by
  have hop : opField w = 0#6 := (extract_of_and_eq hw rfl).trans (opField_encR ..)
  have hfunct : functField w = 0x08#6 := (extract_of_and_eq hw rfl).trans (functField_encR ..)
  have hrs : rsBits w = regBits rs := (extract_of_and_eq hw rfl).trans (rsBits_encR ..)
  simp [decode, hop, decodeSpecial, hfunct, rsField, hrs]

theorem decode_of_jalr (hw : w &&& 0xFFE0F83F#32 = encR (regBits rs) 0#5 (regBits rd) 0#5 0x09#6) :
    decode o w = .ok (.jalr rs rd) := by
  have hop : opField w = 0#6 := (extract_of_and_eq hw rfl).trans (opField_encR ..)
  have hfunct : functField w = 0x09#6 := (extract_of_and_eq hw rfl).trans (functField_encR ..)
  have hrs : rsBits w = regBits rs := (extract_of_and_eq hw rfl).trans (rsBits_encR ..)
  have hrd : rdBits w = regBits rd := (extract_of_and_eq hw rfl).trans (rdBits_encR ..)
  simp [decode, hop, decodeSpecial, hfunct, rsField, hrs, rdField, hrd]

theorem decode_of_shiftFormat {c : Reg → Reg → BitVec 5 → Instr}
    (hc : ∀ v, functField v = funct → decodeSpecial true v = shiftFormat true c v)
    (hw : w &&& maskShift = encR 0#5 (regBits rt) (regBits rd) sh funct) :
    decode true w = .ok (c rt rd sh) := by
  have hop : opField w = 0#6 := (extract_of_and_eq hw rfl).trans (opField_encR ..)
  have hfunct : functField w = funct := (extract_of_and_eq hw rfl).trans (functField_encR ..)
  have hrt : rtBits w = regBits rt := (extract_of_and_eq hw rfl).trans (rtBits_encR ..)
  have hrd : rdBits w = regBits rd := (extract_of_and_eq hw rfl).trans (rdBits_encR ..)
  have hsh : shamtField w = sh := (extract_of_and_eq hw rfl).trans (shamtField_encR ..)
  simp [decode, hop, hc w hfunct, shiftFormat, rtField, hrt, rdField, hrd, hsh]

theorem decode_of_rFormat {c : Reg → Reg → Reg → Instr}
    (hc : ∀ v, functField v = funct → decodeSpecial true v = rFormat true c v)
    (hw : w &&& maskThreeReg = encR (regBits rs) (regBits rt) (regBits rd) 0#5 funct) :
    decode true w = .ok (c rs rt rd) := by
  have hop : opField w = 0#6 := (extract_of_and_eq hw rfl).trans (opField_encR ..)
  have hfunct : functField w = funct := (extract_of_and_eq hw rfl).trans (functField_encR ..)
  have hrs : rsBits w = regBits rs := (extract_of_and_eq hw rfl).trans (rsBits_encR ..)
  have hrt : rtBits w = regBits rt := (extract_of_and_eq hw rfl).trans (rtBits_encR ..)
  have hrd : rdBits w = regBits rd := (extract_of_and_eq hw rfl).trans (rdBits_encR ..)
  simp [decode, hop, hc w hfunct, rFormat, rsField, hrs, rtField, hrt, rdField, hrd]

/-- A word that has the used fields of a populated instruction decodes to it. -/
theorem decode_of_usedBits {i : Instr} (hi : i.wellFormed o = true)
    (hw : w &&& i.usedBits = encode i) : decode o w = .ok i := by
  cases i
  case j t | jal t =>
    obtain rfl := (and_maskOpRsRtImm w).symm.trans hw
    simp [encode, decode]
  case blez | bgtz => exact decode_of_rsFormat (fun v h => by simp [decode, h]) hw
  case lui => exact decode_of_lui hw
  case jr => exact decode_of_jr hw
  case jalr => exact decode_of_jalr hw
  case bltz | bgez | bltzal | bgezal =>
    exact decode_of_bcond (fun v h => by simp [decodeBcond, h]) hw
  case sll | srl | sra =>
    obtain rfl : o = true := hi
    exact decode_of_shiftFormat (fun v h => by simp [decodeSpecial, h]) hw
  case sllv | srlv | srav | add | addu | sub | subu | and | or | xor | nor | slt | sltu =>
    obtain rfl : o = true := hi
    exact decode_of_rFormat (fun v h => by simp [decodeSpecial, h]) hw
  all_goals exact decode_of_iFormat (fun v h => by simp [decode, h]) hw

end

/-! ### What the decoder answers has the word's used fields, and its row matches the word -/

/-- Every instruction that `d` answers for the word `w` is populated, has the used fields of `w`, and is of
a row that matches `w`. -/
def SoundFor (o : Bool) (w : Word) (d : Except DecodeError Instr) : Prop :=
  ∀ i, d = .ok i → i.wellFormed o = true ∧ w &&& i.usedBits = encode i ∧
    ∃ r ∈ opcodeRows, r.mnemonic = i.mnemonic ∧ r.isOption = i.isOption ∧ w &&& r.mask = r.pattern

theorem soundFor_error (o : Bool) (w : Word) (e : DecodeError) : SoundFor o w (.error e) := by
  intro i h
  cases h

section
variable {o : Bool} {w : Word} {op funct : BitVec 6} {i : Instr}

theorem soundFor_ok {mask pattern : Word} (hi : i.wellFormed o = true)
    (hused : w &&& i.usedBits = encode i) (hsel : w &&& mask = pattern)
    (hrow : opcodeRows.contains ⟨i.mnemonic, pattern, mask, i.isOption⟩ = true) :
    SoundFor o w (.ok i) := by
  rintro _ ⟨⟩
  exact ⟨hi, hused, _, List.contains_iff_mem.1 hrow, rfl, rfl, hsel⟩

theorem and_op_mask (hop : opField w = op) : w &&& 0xFC000000#32 = encJ op 0#26 := by
  rw [eq_encJ w, encJ_and_mask, hop]

theorem and_op_target26 (hop : opField w = op) : w &&& 0xFFFFFFFF#32 = encJ op (targetField w) := by
  rw [← hop, ← eq_encJ]
  exact and_maskOpRsRtImm w

theorem and_op_rs_rt_imm (hop : opField w = op) :
    w &&& maskOpRsRtImm = encI op (rsBits w) (rtBits w) (immField w) := by
  rw [and_maskOpRsRtImm, ← hop]
  exact eq_encI w

theorem and_op_rs_imm (hop : opField w = op) :
    w &&& maskOpRsImm = encI op (rsBits w) 0#5 (immField w) := by
  rw [← hop, ← encI_and_maskOpRsImm, ← eq_encI]

theorem and_op_rt_imm (hop : opField w = op) :
    w &&& maskOpRtImm = encI op 0#5 (rtBits w) (immField w) := by
  rw [← hop, ← encI_and_maskOpRtImm, ← eq_encI]

theorem and_op_funct (hop : opField w = 0#6) (hfunct : functField w = funct) :
    w &&& 0xFC00003F#32 = encR 0#5 0#5 0#5 0#5 funct := by
  rw [← hfunct, ← encR_and_mask, ← eq_encR hop]

theorem and_op_rs_funct (hop : opField w = 0#6) (hfunct : functField w = funct) :
    w &&& 0xFFE0003F#32 = encR (rsBits w) 0#5 0#5 0#5 funct := by
  rw [← hfunct, ← encR_and_op_rs_funct, ← eq_encR hop]

theorem and_op_rs_rd_funct (hop : opField w = 0#6) (hfunct : functField w = funct) :
    w &&& 0xFFE0F83F#32 = encR (rsBits w) 0#5 (rdBits w) 0#5 funct := by
  rw [← hfunct, ← encR_and_op_rs_rd_funct, ← eq_encR hop]

theorem and_shift (hop : opField w = 0#6) (hfunct : functField w = funct) :
    w &&& maskShift = encR 0#5 (rtBits w) (rdBits w) (shamtField w) funct := by
  rw [← hfunct, ← encR_and_maskShift, ← eq_encR hop]

theorem and_threeReg (hop : opField w = 0#6) (hfunct : functField w = funct) :
    w &&& maskThreeReg = encR (rsBits w) (rtBits w) (rdBits w) 0#5 funct := by
  rw [← hfunct, ← encR_and_maskThreeReg, ← eq_encR hop]

theorem soundFor_decodeBcond (hop : opField w = 0x01#6) : SoundFor o w (decodeBcond w) := by
  have hused := and_op_rs_rt_imm hop
  have hsel : w &&& 0xFC1F0000#32 = encI 0x01#6 0#5 (rtBits w) 0#16 := by
    rw [eq_encI w, encI_and_bcond_mask, hop, rtBits_encI]
  unfold decodeBcond
  split
  case h_5 => exact soundFor_error o w _
  all_goals
    next hcc =>
    rw [hcc] at hused hsel
    exact soundFor_ok rfl hused hsel rfl

/-- An option entry answers nothing with the option off. -/
theorem soundFor_rFormat {c : Reg → Reg → Reg → Instr}
    (h : SoundFor true w (.ok (c (rsField w) (rtField w) (rdField w)))) :
    SoundFor o w (rFormat o c w) := by
  cases o
  · exact soundFor_error false w _
  · exact h

theorem soundFor_shiftFormat {c : Reg → Reg → BitVec 5 → Instr}
    (h : SoundFor true w (.ok (c (rtField w) (rdField w) (shamtField w)))) :
    SoundFor o w (shiftFormat o c w) := by
  cases o
  · exact soundFor_error false w _
  · exact h

theorem soundFor_decodeSpecial (hop : opField w = 0#6) : SoundFor o w (decodeSpecial o w) := by
  unfold decodeSpecial
  split
  case h_1 hf => exact soundFor_ok rfl (and_op_rs_funct hop hf) (and_op_funct hop hf) rfl
  case h_2 hf => exact soundFor_ok rfl (and_op_rs_rd_funct hop hf) (and_op_funct hop hf) rfl
  case h_3 hf | h_4 hf | h_5 hf =>
    exact soundFor_shiftFormat (soundFor_ok rfl (and_shift hop hf) (and_op_funct hop hf) rfl)
  case h_19 => exact soundFor_error o w _
  all_goals
    next hf =>
    exact soundFor_rFormat (soundFor_ok rfl (and_threeReg hop hf) (and_op_funct hop hf) rfl)

theorem soundFor_decode (o : Bool) (w : Word) : SoundFor o w (decode o w) := by
  unfold decode
  split
  case h_1 hop => exact soundFor_decodeSpecial hop
  case h_2 hop => exact soundFor_decodeBcond hop
  case h_3 hop | h_4 hop => exact soundFor_ok rfl (and_op_target26 hop) (and_op_mask hop) rfl
  case h_7 hop | h_8 hop => exact soundFor_ok rfl (and_op_rs_imm hop) (and_op_mask hop) rfl
  case h_16 hop => exact soundFor_ok rfl (and_op_rt_imm hop) (and_op_mask hop) rfl
  case h_29 => exact soundFor_error o w _
  all_goals next hop => exact soundFor_ok rfl (and_op_rs_rt_imm hop) (and_op_mask hop) rfl

/-- The decoder in one line: a word decodes to the populated instruction whose used fields it has. -/
theorem decode_eq_ok_iff :
    decode o w = .ok i ↔ i.wellFormed o = true ∧ w &&& i.usedBits = encode i := by
  constructor
  · intro h
    obtain ⟨hi, hused, -⟩ := soundFor_decode o w i h
    exact ⟨hi, hused⟩
  · rintro ⟨hi, hused⟩
    exact decode_of_usedBits hi hused

end

/-- Settles O9: `decode_eq_ok_iff` looks at the used bits of the word alone. -/
theorem ignoredFieldsDoNotMatter : Obligations.IgnoredFieldsDoNotMatter := by
  intro o w w' i h hw
  rw [decode_eq_ok_iff] at h ⊢
  rwa [hw]

end Sys2Proof
end

section
/-! PROOFS. The opcode rows (`30_encoding.md` R104, R107, R108): the decoder agrees with them, and no word is
of two rows. -/

namespace Sys2Proof

section
variable {o : Bool} {w : Word}

/-! ### A word of a row decodes to the row's mnemonic -/

theorem decodeBcond_mnemonic_congr {v : Word} (hrt : rtBits w = rtBits v) :
    (decodeBcond w).map Instr.mnemonic = (decodeBcond v).map Instr.mnemonic := by
  unfold decodeBcond
  rw [hrt]
  split <;> rfl

theorem decodeSpecial_mnemonic_congr {v : Word} (hfunct : functField w = functField v) :
    (decodeSpecial o w).map Instr.mnemonic = (decodeSpecial o v).map Instr.mnemonic := by
  unfold decodeSpecial rFormat shiftFormat
  rw [hfunct]
  cases o <;> split <;> rfl

/-- The mnemonic depends on `op`, and on `funct` or `rt` when `op` is 0 or 1 (R97 to R99). -/
theorem decode_mnemonic_congr {v : Word} (hop : opField w = opField v)
    (hfunct : opField v = 0#6 → functField w = functField v)
    (hrt : opField v = 1#6 → rtBits w = rtBits v) :
    (decode o w).map Instr.mnemonic = (decode o v).map Instr.mnemonic := by
  unfold decode
  rw [hop]
  split
  case h_1 h => exact decodeSpecial_mnemonic_congr (hfunct h)
  case h_2 h => exact decodeBcond_mnemonic_congr (hrt h)
  all_goals rfl

/-- Every row's mask keeps `op`, and `funct` or `rt` when `op` is 0 or 1. -/
theorem row_mask_keeps : ∀ r ∈ opcodeRows, opField r.mask = BitVec.allOnes 6 ∧
    (opField r.pattern = 0#6 → functField r.mask = BitVec.allOnes 6) ∧
    (opField r.pattern = 1#6 → rtBits r.mask = BitVec.allOnes 5) := by decide

theorem decode_row_pattern : ∀ r ∈ opcodeRows, ∀ o : Bool, (r.isOption = true → o = true) →
    ((decode o r.pattern).map Instr.mnemonic).toOption = some r.mnemonic := by decide

theorem decode_of_row {r : OpcodeRow} (hr : r ∈ opcodeRows) (ho : r.isOption = true → o = true)
    (hw : w &&& r.mask = r.pattern) : ∃ i, decode o w = .ok i ∧ i.mnemonic = r.mnemonic := by
  obtain ⟨hop, hfunct, hrt⟩ := row_mask_keeps r hr
  have hrow := decode_row_pattern r hr o ho
  rw [← decode_mnemonic_congr (w := w) (extract_of_and_eq hw hop)
    (fun h => extract_of_and_eq hw (hfunct h)) (fun h => extract_of_and_eq hw (hrt h))] at hrow
  cases h : decode o w with
  | error e => simp [h, Except.map, Except.toOption] at hrow
  | ok i => exact ⟨i, rfl, by simpa [h, Except.map, Except.toOption] using hrow⟩

end

/-! ### Decoder and rows -/

/-- Settles O7: the decoder is sound for the rows, each row's words decode, and the used fields are those of
`decode_eq_ok_iff`. -/
theorem decodeAgreesWithOpcodeRows : Obligations.DecodeAgreesWithOpcodeRows := by
  refine ⟨fun o w name => ⟨?_, ?_⟩, fun o w i h => ?_⟩
  · rintro ⟨i, h, rfl⟩
    obtain ⟨hi, -, r, hr, hname, hopt, hsel⟩ := soundFor_decode o w i h
    exact ⟨r, hr, hname, fun ho => by simpa [Instr.wellFormed, ← hopt, ho] using hi, hsel⟩
  · rintro ⟨r, hr, rfl, ho, hsel⟩
    exact decode_of_row hr ho hsel
  · obtain ⟨-, hused⟩ := decode_eq_ok_iff.1 h
    rw [← hused, BitVec.and_assoc, BitVec.and_self]

/-- No two rows' patterns agree under both masks. -/
theorem row_eq_of_patterns_agree : ∀ r ∈ opcodeRows, ∀ q ∈ opcodeRows,
    r.pattern &&& q.mask = q.pattern &&& r.mask → r = q := by decide

/-- Settles O8: the patterns of two rows that match one word agree under both masks. -/
theorem opcodeRowsNeverOverlap : Obligations.OpcodeRowsNeverOverlap := by
  intro r hr q hq w hrw hqw
  have hr' : w &&& r.mask = r.pattern := beq_iff_eq.1 hrw
  have hq' : w &&& q.mask = q.pattern := beq_iff_eq.1 hqw
  refine row_eq_of_patterns_agree r hr q hq ?_
  rw [← hr', ← hq', BitVec.and_assoc, BitVec.and_assoc, BitVec.and_comm r.mask]

end Sys2Proof
end

section
/-! PROOFS. The fetched word (`30_encoding.md` R90, R100, R102): its bytes, and the step whose fetched word or
slot word is undefined. -/

namespace Sys2Proof.Machine

/-! ### The word and its bytes (R90) -/

/-- The opcode is the top six bits of the byte at the highest address. -/
theorem opField_eq_byteOf (w : Word) : opField w = (byteOf w 3).extractLsb' 2 6 := by
  unfold opField byteOf
  ext i hi
  simp [show 2 + i < 8 by omega, ← Nat.add_assoc]

/-- Decoding the four bytes of a word in front of others decodes the word and leaves the others. -/
theorem decodeBytes_byteOf (o : Bool) (w : Word) (rest : List Byte) :
    decodeBytes o (byteOf w 0 :: byteOf w 1 :: byteOf w 2 :: byteOf w 3 :: rest) =
      (decode o w).map fun i => (i, rest) := by
  rw [decodeBytes, wordOfBytes_byteOf]
  cases decode o w <;> rfl

/-- Settles O10, by the bytes of a read and the bytes of a word. -/
theorem instructionIsOneLittleEndianWord : Obligations.InstructionIsOneLittleEndianWord := by
  rintro o s w rest rfl
  have hbyte : ∀ k, k < 4 → byteOf (readLE s.mem s.pc 4) k = readU8 s.mem (s.pc + BitVec.ofNat 32 k) :=
    fun k hk => byteOf_readLE _ _ 4 k hk (by decide)
  refine ⟨fetch_iw s, hbyte, ?_, fun i h => ?_, fun e h => ?_⟩
  · rw [opField_eq_byteOf, hbyte 3 (by decide)]
  · rw [decodeBytes_byteOf, h]
    rfl
  · rw [decodeBytes_byteOf, h]
    rfl

/-! ### Undefined words (R100) -/

/-- A word that no populated row matches does not decode, since what decodes is of a populated row. -/
theorem decode_of_undefinedWord {o : Bool} {w : Word} (h : UndefinedWord o w) :
    ∃ e, decode o w = .error e := by
  cases hd : decode o w with
  | error e => exact ⟨e, rfl⟩
  | ok i =>
    obtain ⟨hrows, -⟩ := decodeAgreesWithOpcodeRows
    obtain ⟨r, hr, -, ho, hsel⟩ := (hrows o w i.mnemonic).1 ⟨i, hd, rfl⟩
    exact absurd hsel (by simpa [OpcodeRow.selects] using h r hr ho)

/-- The cycle of a word that does not decode halts the machine on it (R132). -/
theorem cycle_halts {slot : Bool} {s : State} {e : DecodeError}
    (h : decode s.params.specialAlu s.iw = .error e) :
    ∃ t, cycle slot s = .next t ∧ Halts s t .undefinedInstruction := by
  rw [cycle_of_undefined h]
  exact raiseHalt_spec .undefinedInstruction s

theorem step_halts_of_fetched {s : State} {e : DecodeError} (hs : s.halted = .running)
    (h : fetchedInstr s = .error e) :
    ∃ t, step s = .next t ∧ Halts (fetch s) t .undefinedInstruction := by
  obtain ⟨t, hc, hhalts⟩ := cycle_halts (slot := false) (decode_fetch h)
  have htransfer : t.transfer = none := by
    obtain ⟨-, -, -, -, htransfer, -⟩ := hhalts
    exact htransfer
  exact ⟨t, by simp [step_running hs, runFetched, hc, htransfer], hhalts⟩

/-- A fetched instruction that asks for a transfer hands the step to its delay slot (R126). -/
theorem step_of_transfer {s u : State} {i : Instr} {a : Word} (hs : s.halted = .running)
    (hi : fetchedInstr s = .ok i) (he : exec i (fetch s) = .next u) (hu : u.transfer = some a) :
    step s = delaySlot a u := by
  have hc : cycle false (fetch s) = .next u := (cycle_of_decode (decode_fetch hi) rfl).trans he
  simp [step_running hs, runFetched, hc, hu]

/-- A slot that halts ends the step: `pc` does not receive the target (R132). -/
theorem delaySlot_halts {u v : State} {a : Word} {cause : HaltCause}
    (hc : cycle true u.enterSlot = .next v) (hv : Halts u.enterSlot v cause) :
    delaySlot a u = .next v := by
  obtain ⟨-, -, -, hhalted, -⟩ := hv
  simp [delaySlot, hc, hhalted]

/-- Settles O26: neither word decodes, so its cycle halts, and a halted slot ends the step. -/
theorem undefinedWordHalts : Obligations.UndefinedWordHalts := by
  refine ⟨fun s hs hw => ?_, fun s u i a hs hi he hu hw => ?_⟩
  · obtain ⟨e, hd⟩ := decode_of_undefinedWord hw
    exact step_halts_of_fetched hs hd
  · obtain ⟨e, hd⟩ := decode_of_undefinedWord hw
    obtain ⟨v, hc, hv⟩ := cycle_halts (slot := true) (decode_enterSlot he hd)
    have hpc : v.pc = s.pc + 4#32 := by
      obtain ⟨-, -, hpc, -⟩ := exec_sameFixed he
      exact (cycle_pc hc).trans hpc
    rw [← enterSlot_eq he]
    exact ⟨v, (step_of_transfer hs hi he hu).trans (delaySlot_halts hc hv), hpc, hv⟩

/-! ### The all-zero word (R102, R230) -/

/-- Settles O31: with the option off the word does not decode; with it on it is `sll $zero, $zero, 0`, which
writes 0 to register 0. -/
theorem allZeroWordHaltsUnlessOptionOn : Obligations.AllZeroWordHaltsUnlessOptionOn := by
  intro s hs hzero
  refine ⟨fun hopt => ?_, fun hopt => ?_⟩
  · have hd : fetchedInstr s = .error (.optionOff 0x00#6) := by
      rw [fetchedInstr, hzero, hopt]
      rfl
    exact step_halts_of_fetched hs hd
  · have hi : fetchedInstr s = .ok (.sll 0 0 0#5) := by
      rw [fetchedInstr, hzero, hopt]
      rfl
    have he : exec (.sll 0 0 0#5) (fetch s) = retireWrite 0 0#32 (fetch s) := rfl
    obtain ⟨t, ht, hw⟩ := retireWrite_spec 0 0#32 (fetch s)
    have htransfer : t.transfer = none := by
      obtain ⟨-, -, -, -, htransfer, -⟩ := hw
      exact htransfer
    exact ⟨t, step_of_exec hs hi (he.trans ht) htransfer, hw⟩

end Sys2Proof.Machine
end

section
/-! PROOFS. The instruction cycle (`40_execution_cycle.md` R120 to R132): the fetch, the step as the meaning of
the fetched instruction, and the delay slot of a taken transfer. -/

namespace Sys2Proof.Machine

/-! ### Fetch (R120 to R122) -/

@[simp] theorem fetch_diags (s : State) :
    (fetch s).diags = s.diags ++ readDiags s.pc 4 ++ readDiags (s.pc + 4#32) 4 := rfl

/-- Settles O20, field by field. -/
theorem fetchReadsWordAndPrimesNext : Obligations.FetchReadsWordAndPrimesNext := fun s =>
  ⟨fetch_iw s, fetch_pc s, fetch_ds s, fetch_diags s, x_fetch s, fetch_hi s, fetch_lo s, fetch_pend s,
    fetch_halted s, fetch_mem s, fetch_params s, fetch_transfer s⟩

/-- A word of four unmapped bytes is four sentinels. -/
theorem readLE_unmapped (m : Memory) {a : Word}
    (h : ∀ k, k < 4 → mapped (a + BitVec.ofNat 32 k) = false) : readLE m a 4 = 0xFFFFFFFF#32 := by
  have hbyte : ∀ k, k < 4 → readU8 m (a + BitVec.ofNat 32 k) = 0xFF#8 := fun k hk => by
    simp [readU8, h k hk, sentinel]
  have hzero : readU8 m a = 0xFF#8 := by simpa using hbyte 0 (by decide)
  rw [readLE_word, hzero, hbyte 1 (by decide), hbyte 2 (by decide), hbyte 3 (by decide)]
  rfl

theorem decode_allOnes (o : Bool) : decode o 0xFFFFFFFF#32 = .error (.primary 0x3F#6) := rfl

/-- Settles O30: the fetched word is all ones, which is undefined, so the step halts on it. -/
theorem unmappedFetchHalts : Obligations.UnmappedFetchHalts := by
  intro s hs hunmapped
  have hword : readLE s.mem s.pc 4 = 0xFFFFFFFF#32 := readLE_unmapped s.mem hunmapped
  have hfetched : fetchedInstr s = .error (.primary 0x3F#6) := by
    rw [fetchedInstr, hword, decode_allOnes]
  obtain ⟨t, ht, hx, -, ⟨-, -, hpc, -⟩, hhalted, -, hmem, -⟩ := step_halts_of_fetched hs hfetched
  exact ⟨t, ht, hpc, by rw [hhalted, fetch_iw, hword], hx, hmem⟩

/-! ### The step as the meaning of the fetched instruction (R123, R126, R129) -/

/-- Settles O21: the step ends with the meaning, or hands over to the slot. -/
theorem stepRunsFetchedInstruction : Obligations.StepRunsFetchedInstruction := by
  intro s i hs hi
  obtain ⟨u, he⟩ := exec_next i (fetch s)
  rw [he]
  cases hu : u.transfer with
  | none => simpa [hu] using step_of_exec hs hi he hu
  | some a => simpa [hu] using step_of_transfer hs hi he hu

theorem stepCost_of_step {s t : State} {i : Instr} (hs : s.halted = .running)
    (hi : fetchedInstr s = .ok i) (h : step s = .next t) :
    stepCost s = if t.halted = .running then some (Config.cycles i.mnemonic) else none := by
  have hd : decode s.params.specialAlu (fetch s).iw = .ok i := decode_fetch hi
  rw [stepCost, hs, hd, h]

/-- Settles O38, by whether the step ended running. -/
theorem stepCostIsFetchedInstructions : Obligations.StepCostIsFetchedInstructions := by
  intro s t i hs hi h
  rw [stepCost_of_step hs hi h]
  exact ⟨fun ht => if_pos ht, fun ht => if_neg ht⟩

/-! ### The delay slot of a taken transfer (R126, R128, R132) -/

/-- The slot's cycle is refused exactly on a jump or branch. -/
theorem slotCycle_refused_iff {s : State} {r : Refusal} : cycle true s = .refused r ↔
    r = .transferInDelaySlot s.iw ∧
      ∃ d, decode s.params.specialAlu s.iw = .ok d ∧ d.isTransfer = true := by
  obtain ⟨i, hd, hc⟩ | ⟨e, hd, hc⟩ := cycle_cases true s
  · cases htr : i.isTransfer with
    | true => simp [hc, hd, htr, eq_comm (a := r)]
    | false =>
      obtain ⟨t, he⟩ := exec_next i s
      simp [hc, hd, htr, he]
  · simp [hc, hd, raiseHalt]

theorem delaySlot_refused_iff {a : Word} {u : State} {r : Refusal} :
    delaySlot a u = .refused r ↔ cycle true u.enterSlot = .refused r := by
  unfold delaySlot
  split
  · next hc => simp [hc]
  · next hc => simp [hc]
  · next hc => simp [hc]

/-- Settles O27: the cycle of the slot is refused, and with it the step. -/
theorem transferInTakenSlotIsRefused : Obligations.TransferInTakenSlotIsRefused := by
  intro s u i d a hs hi he hu hd htr
  have hiw : u.enterSlot.iw = readLE s.mem (s.pc + 4#32) 4 := by rw [enterSlot_eq he]
  rw [← hiw, step_of_transfer hs hi he hu, delaySlot_refused_iff, slotCycle_refused_iff]
  exact ⟨rfl, d, decode_enterSlot he hd, htr⟩

section
variable {s u v : State} {i d : Instr} {a : Word}

/-- The step of a taken transfer whose slot holds an instruction that is no jump or branch: the state
of the slot, with `pc` moved to the target unless the slot halted. -/
theorem step_of_taken_transfer (hs : s.halted = .running) (hi : fetchedInstr s = .ok i)
    (he : exec i (fetch s) = .next u) (hu : u.transfer = some a) (hd : primedInstr s = .ok d)
    (hord : d.isTransfer = false) (hv : exec d u.enterSlot = .next v) :
    step s = .next (if v.halted = .running then v.setPc a else v) := by
  have hc : cycle true u.enterSlot = .next v :=
    (cycle_of_decode (decode_enterSlot he hd) (by simpa using hord)).trans hv
  rw [step_of_transfer hs hi he hu]
  simp [delaySlot, hc]

theorem exec_pc (he : exec i s = .next u) : u.pc = s.pc := by
  obtain ⟨-, -, hpc, -⟩ := exec_sameFixed he
  exact hpc

/-- The register a jump or branch links through holds the address after the delay slot. -/
theorem exec_x_of_link (htr : i.isTransfer = true) (he : exec i s = .next u) {q : Reg}
    (hq : q ∈ writtenRegs i) (h0 : q ≠ 0) : u.x q = s.pc + 4#32 := by
  cases exec_shape i s with
  | link taken target rd hshape hw =>
    obtain ⟨t, ht, hx, -⟩ := retireTransfer_link_spec taken target rd s
    cases he.symm.trans (hshape.trans ht)
    rw [hx, if_neg h0, if_pos (hw ▸ hq)]
  | transfer _ _ _ hw => simp [hw] at hq
  | write _ _ _ _ ht | load _ _ _ _ _ _ ht | halt _ ht => cases htr.symm.trans ht
  | store _ _ _ _ _ _ _ _ ht => cases htr.symm.trans ht

end

/-- Settles O24: the slot ends running, so `pc` moves to the target. -/
theorem takenTransferStep : Obligations.TakenTransferStep := by
  intro s u v i d a hs hi he hu hd hord hv hrun
  rw [← enterSlot_eq he] at hv
  obtain ⟨-, hpend, -⟩ := exec_of_isTransfer (isTransfer_of_transfer rfl he hu) he
  have hstep := step_of_taken_transfer hs hi he hu hd hord hv
  rw [if_pos hrun] at hstep
  exact ⟨hstep, hpend, exec_pc he, (exec_pc hv).trans (exec_pc he)⟩

/-- Settles O25: the slot starts from the transfer's state, running, with the link written and no load in
flight, and an instruction that halts changes no register but by a landing. -/
theorem haltInDelaySlotKeepsLink : Obligations.HaltInDelaySlotKeepsLink := by
  intro s u v i d a hs hi he hu hd hord hv hhalt
  rw [← enterSlot_eq he] at hv
  have htr : i.isTransfer = true := isTransfer_of_transfer rfl he hu
  obtain ⟨hrun, hpend, -⟩ := exec_of_isTransfer htr he
  have hrun' : u.enterSlot.halted = .running := hrun.trans hs
  have hstep := step_of_taken_transfer hs hi he hu hd hord hv
  rw [if_neg hhalt] at hstep
  refine ⟨hstep, (exec_pc hv).trans (exec_pc he), ?_, fun q hq h0 => ?_⟩
  · obtain hsame | hover := exec_halted hv
    · exact absurd (hsame.trans hrun') hhalt
    · rw [hover, enterSlot_eq he]
  · calc v.x q = landedX u.enterSlot q := exec_x_of_halted hrun' hv hhalt q
      _ = u.x q := landedX_of_pend_none hpend q
      _ = (fetch s).pc + 4#32 := exec_x_of_link htr he hq h0
      _ = s.pc + 8#32 := BitVec.add_assoc ..

/-! ### A branch that is not taken (R127) -/

/-- After a jump or branch has run, `pc` is at the primed word and memory is as it was: the next fetch
reads the primed word. -/
theorem fetchedInstr_of_isTransfer {s u : State} {i : Instr} (htr : i.isTransfer = true)
    (he : exec i (fetch s) = .next u) : fetchedInstr u = primedInstr s := by
  obtain ⟨-, -, hmem⟩ := exec_of_isTransfer htr he
  obtain ⟨-, -, hpc, -, -, hparams⟩ := exec_sameFixed he
  simp [fetchedInstr, primedInstr, hmem, hpc, hparams]

/-- The only refusal of a step is that of the slot of the transfer its instruction asked for. -/
theorem step_refused_of_exec {s u : State} {i : Instr} {r : Refusal} (hs : s.halted = .running)
    (hi : fetchedInstr s = .ok i) (he : exec i (fetch s) = .next u) (h : step s = .refused r) :
    u.transfer ≠ none ∧ ∃ e, primedInstr s = .ok e ∧ e.isTransfer = true := by
  cases hu : u.transfer with
  | none => cases (step_of_exec hs hi he hu).symm.trans h
  | some a =>
    rw [step_of_transfer hs hi he hu, delaySlot_refused_iff, slotCycle_refused_iff] at h
    obtain ⟨-, e, hd, htr⟩ := h
    exact ⟨nofun, e, (decode_enterSlot he rfl).symm.trans hd, htr⟩

/-- Settles O23: the branch asks for no transfer and leaves memory alone, so the next step fetches the
primed word and runs it as any other. -/
theorem untakenBranchStep : Obligations.UntakenBranchStep := by
  intro s i hs hi hc
  obtain ⟨u, he⟩ := exec_next i (fetch s)
  obtain ⟨htr, hu⟩ := exec_of_conditionFalse hc he
  obtain ⟨hrun, -, hmem⟩ := exec_of_isTransfer htr he
  have hpc : u.pc = s.pc + 4#32 := exec_pc he
  have hurun : u.halted = .running := hrun.trans hs
  refine ⟨u, he, step_of_exec hs hi he hu, hu, hpc, hurun, by simp [hmem, hpc], fun d hd => ?_⟩
  have hd' : fetchedInstr u = .ok d := (fetchedInstr_of_isTransfer htr he).trans hd
  obtain ⟨v, hv⟩ := exec_next d (fetch u)
  refine ⟨hd', v, hv, step_of_exec hurun hd' hv, fun a ha => ?_, fun r hr => ?_⟩
  · exact ⟨isTransfer_of_transfer rfl hv ha, step_of_transfer hurun hd' hv ha⟩
  · obtain ⟨hne, hslot⟩ := step_refused_of_exec hurun hd' hv hr
    obtain ⟨a, ha⟩ := Option.ne_none_iff_exists'.mp hne
    exact ⟨isTransfer_of_transfer rfl hv ha, hne, hslot⟩

end Sys2Proof.Machine
end

section
/-! PROOFS. The load delay (`40_execution_cycle.md` R123, R125): where a load in flight lands, and that no
instruction but `lwl` and `lwr` looks at it. -/

namespace Sys2Proof.Machine

/-! ### Landing (R125) -/

theorem landedX_of_pend {s : State} {r : Reg} {v : Word} (h : s.pend = some ⟨r, v⟩) (h0 : r ≠ 0) :
    landedX s r = v := by
  simp [landedX, h, h0]

/-- The case for unwritten registers in the effects of `WritesOnly` and `RequestsTransfer`; register 0 is
no exception. -/
theorem ite_landedX_of_not (s : State) (v : Word) {q : Reg} {c : Prop} [Decidable c] (hc : ¬ c) :
    (if q = 0 then 0#32 else if c then v else landedX s q) = landedX s q := by
  rw [if_neg hc]
  split
  · next h0 => rw [h0, landedX_zero]
  · rfl

/-- In every register the instruction does not write, the load in flight lands or the content stays. -/
theorem exec_x_of_not_written {i : Instr} {s t : State} (he : exec i s = .next t) {q : Reg}
    (hq : q ∉ writtenRegs i) : t.x q = landedX s q := by
  cases exec_shape i s with
  | write rd v h hw =>
    obtain ⟨u, hu, hx, -⟩ := retireWrite_spec rd v s
    cases he.symm.trans (h.trans hu)
    exact (hx q).trans (ite_landedX_of_not s v (by simpa [hw] using hq))
  | load rt v a n h =>
    obtain ⟨u, hu, hx, -⟩ := retireLoad_spec rt v a n s
    cases he.symm.trans (h.trans hu)
    exact hx q
  | store a n v r h hr hn =>
    obtain ⟨u, hu, hx, -⟩ := retireStore_spec a n v r (by omega)
    cases he.symm.trans (h.trans hu)
    rcases hr with rfl | rfl <;> exact hx q
  | transfer taken target h hw =>
    obtain ⟨u, hu, hx, -⟩ := retireTransfer_spec taken target s
    cases he.symm.trans (h.trans hu)
    exact (hx q).trans (ite_landedX_of_not s _ (by simp))
  | link taken target rd h hw =>
    obtain ⟨u, hu, hx, -⟩ := retireTransfer_link_spec taken target rd s
    cases he.symm.trans (h.trans hu)
    exact (hx q).trans (ite_landedX_of_not s _ (hw ▸ hq))
  | halt h =>
    obtain ⟨u, hu, hx, -⟩ := raiseHalt_spec .integerOverflow s
    cases he.symm.trans (h.trans hu)
    exact hx q

/-- Settles O40, by whether the register is unwritten or the instruction halted. -/
theorem unwrittenRegistersLandOrStay : Obligations.UnwrittenRegistersLandOrStay := by
  rintro i s t hs he q (hq | ht)
  · exact exec_x_of_not_written he hq
  · exact exec_x_of_halted hs he ht q

/-- Settles O42: the instruction after the load ends its step, and the load lands in it. -/
theorem loadVisibleAfterOneInstruction : Obligations.LoadVisibleAfterOneInstruction := by
  intro s t r v i hs hpend h0 hi hord hr h
  obtain ⟨u, hstep, he, -⟩ := ordinaryInstructionStep s i hs hi hord
  cases hstep.symm.trans h
  exact (exec_x_of_not_written he hr).trans (landedX_of_pend hpend h0)

/-! ### The load in flight is not looked at (R123) -/

/-- What two runs agree on whatever load was in flight for either, `ws` being the registers the
instruction writes unless it halts. -/
def AgreeOnEffects (ws : List Reg) (t u : State) : Prop :=
  t.mem = u.mem ∧ t.pend = u.pend ∧ t.transfer = u.transfer ∧ t.halted = u.halted ∧
    t.diags = u.diags ∧ t.pc = u.pc ∧ (t.halted = .running → ∀ r ∈ ws, t.x r = u.x r)

/-- A meaning that writes `ws` and does not look at the load in flight. -/
def PendUnseen (ws : List Reg) (f : State → Result) : Prop :=
  ∀ (s : State) (p q : Option PendingLoad),
    OutcomesAlike (AgreeOnEffects ws) (f (s.setPend p)) (f (s.setPend q))

theorem PendUnseen.ite {ws : List Reg} {f g : State → Result} (hf : PendUnseen ws f) (c : Bool)
    (hg : PendUnseen ws g) : PendUnseen ws fun s => if c then f s else g s := by
  cases c
  · exact hg
  · exact hf

theorem setX_setPend (s : State) (p : Option PendingLoad) (i : Reg) (v : Word) :
    (s.setPend p).setX i v = (s.setX i v).setPend p := by
  unfold State.setX
  split <;> rfl

theorem pendUnseen_retireWrite (rd : Reg) (v : Word) : PendUnseen [rd] (retireWrite rd v) :=
  fun s p q => by simp [retireWrite, OutcomesAlike, AgreeOnEffects, x_setX_land]

theorem pendUnseen_retireLoad (rt : Reg) (v a : Word) (n : Nat) :
    PendUnseen [] (retireLoad rt v a n) :=
  fun s p q => by simp [retireLoad, OutcomesAlike, AgreeOnEffects]

theorem pendUnseen_retireStore (a : Word) (n : Nat) (v : Word) :
    PendUnseen [] (retireStore a n v) :=
  fun s p q => by simp [retireStore, OutcomesAlike, AgreeOnEffects]

theorem pendUnseen_raiseHalt (cause : HaltCause) (ws : List Reg) :
    PendUnseen ws (raiseHalt cause) :=
  fun s p q => by simp [raiseHalt, OutcomesAlike, AgreeOnEffects]

theorem pendUnseen_retireTransfer (taken : Bool) (target : Word) (ws : List Reg) :
    PendUnseen ws (retireTransfer taken target ws) := by
  intro s p q
  cases taken <;> simp +contextual [retireTransfer, OutcomesAlike, AgreeOnEffects, x_land]

/-- A jump that links: the link written before the landing is the same whatever is in flight. -/
theorem pendUnseen_linkingJump (taken : Bool) (target : Word) (rd : Reg) :
    PendUnseen [rd] fun s => retireTransfer taken target [rd] (s.setX rd s.link) := by
  intro s p q
  simp only [setX_setPend]
  exact pendUnseen_retireTransfer taken target [rd] (s.setX rd s.link) p q

/-- An and-link branch tests, and takes its target from, the state after the link is written. -/
theorem pendUnseen_linkingBranch (c : Int → Bool) (rs : Reg) (imm16 : Half) :
    PendUnseen [31] fun s => let u := s.setX 31 s.link
      retireTransfer (c (u.x rs).toInt) (u.btarget imm16) [31] u := by
  intro s p q
  simp only [setX_setPend]
  exact pendUnseen_retireTransfer _ _ [31] (s.setX 31 s.link) p q

/-- A meaning other than `lwl` and `lwr` computes what it hands to its ending from other fields than the
pending load. -/
theorem pendUnseen_exec {i : Instr} (hi : mergesInFlight i = false) :
    PendUnseen (writtenRegs i) (exec i) := by
  intro s p q
  cases i with
  | addi rs rt imm =>
    exact (pendUnseen_raiseHalt _ [rt]).ite (addOverflows (s.x rs) (sext16 imm))
      (pendUnseen_retireWrite rt (s.x rs + sext16 imm)) s p q
  | add rs rt rd =>
    exact (pendUnseen_raiseHalt _ [rd]).ite (addOverflows (s.x rs) (s.x rt))
      (pendUnseen_retireWrite rd (s.x rs + s.x rt)) s p q
  | sub rs rt rd =>
    exact (pendUnseen_raiseHalt _ [rd]).ite (subOverflows (s.x rs) (s.x rt))
      (pendUnseen_retireWrite rd (s.x rs - s.x rt)) s p q
  | addiu | slti | sltiu | andi | ori | xori | lui => exact pendUnseen_retireWrite _ _ s p q
  | sll | srl | sra | sllv | srlv | srav => exact pendUnseen_retireWrite _ _ s p q
  | addu | subu | and | or | xor | nor | slt | sltu => exact pendUnseen_retireWrite _ _ s p q
  | lb | lh | lw | lbu | lhu => exact pendUnseen_retireLoad _ _ _ _ s p q
  | lwl | lwr => cases hi
  | sb | sh | sw => exact pendUnseen_retireStore _ _ _ s p q
  | swl rs rt imm =>
    exact pendUnseen_retireStore _ _ _ (s.noteRead (alignWord (s.ea rs imm)) 4) p q
  | swr rs rt imm =>
    exact pendUnseen_retireStore _ _ _ (s.noteRead (alignWord (s.ea rs imm)) 4) p q
  | j | jr | beq | bne | blez | bgtz | bltz | bgez => exact pendUnseen_retireTransfer _ _ [] s p q
  | jal | jalr => exact pendUnseen_linkingJump true _ _ s p q
  | bltzal rs imm => exact pendUnseen_linkingBranch (fun v => decide (v < 0)) rs imm s p q
  | bgezal rs imm => exact pendUnseen_linkingBranch (fun v => decide (0 ≤ v)) rs imm s p q

/-- Settles O41: a meaning that does not look at the load in flight has the same effects with either. -/
theorem inFlightLoadIsUnseen : Obligations.InFlightLoadIsUnseen := by
  intro i s t u p q _ hi ht hu
  have h := pendUnseen_exec hi s p q
  rw [ht, hu] at h
  exact h

end Sys2Proof.Machine
end

section
/-! PROOFS. Jumps and branches (`41_jumps_branches.md` R140 to R154): each ends in one of the two transfer
endings of `Sys2Proof/Laws/Ops.lean`, so its frame is theirs, and what is left to say of it is its
encoding, its condition and its target. -/

namespace Sys2Proof.Machine

/-! ### The endings, with the condition as the rules state it -/

section
variable {i : Instr} {s : State} {taken : Bool} {c : Prop} {target : Word}

/-- A meaning that ends in a transfer without a link asks for it exactly when its condition holds. -/
theorem exec_requestsTransfer (hc : taken = true ↔ c)
    (he : exec i s = retireTransfer taken target [] s) :
    ∃ t, exec i s = .next t ∧ RequestsTransfer s t [] c target := by
  rw [he, ← propext hc]
  exact retireTransfer_spec taken target s

/-- A meaning that ends in a transfer after the link write asks for it exactly when its condition holds. -/
theorem exec_requestsTransfer_link {rd : Reg} (hc : taken = true ↔ c)
    (he : exec i s = retireTransfer taken target [rd] (s.setX rd s.link)) :
    ∃ t, exec i s = .next t ∧ RequestsTransfer s t [rd] c target := by
  rw [he, ← propext hc]
  exact retireTransfer_link_spec taken target rd s

end

/-! ### Jumps (R142 to R145) -/

theorem exec_jr_requestsTransfer (s : State) (rs : Reg) :
    ∃ t, exec (.jr rs) s = .next t ∧ RequestsTransfer s t [] True (s.x rs) :=
  exec_requestsTransfer (iff_of_true rfl trivial) rfl

theorem exec_jalr_requestsTransfer (s : State) (rs rd : Reg) :
    ∃ t, exec (.jalr rs rd) s = .next t ∧ RequestsTransfer s t [rd] True (s.x rs) :=
  exec_requestsTransfer_link (iff_of_true rfl trivial) rfl

/-- Settles O56: of `jr` and `jalr` every field but the used ones is free, and all four are always taken. -/
theorem jumpTransfers : Obligations.JumpTransfers := by
  rintro s rs rd target26 jt o b c d rfl
  exact ⟨⟨decode_of_usedBits rfl (and_maskOpRsRtImm _),
      exec_requestsTransfer (iff_of_true rfl trivial) rfl⟩,
    ⟨decode_of_usedBits rfl (and_maskOpRsRtImm _),
      exec_requestsTransfer_link (iff_of_true rfl trivial) rfl⟩,
    ⟨decode_of_jr (encR_and_op_rs_funct ..), exec_jr_requestsTransfer s rs⟩,
    decode_of_jalr (encR_and_op_rs_rd_funct ..), exec_jalr_requestsTransfer s rs rd⟩

/-! ### Branches without a link (R146 to R151) -/

/-- Settles O57: the six differ in the condition; `blez` and `bgtz` ignore the `rt` field, and in the others
every field is used. -/
theorem branchTransfers : Obligations.BranchTransfers := by
  rintro s rs rt imm bt o b rfl
  exact ⟨⟨decode_of_usedBits rfl (and_maskOpRsRtImm _), exec_requestsTransfer beq_iff_eq rfl⟩,
    ⟨decode_of_usedBits rfl (and_maskOpRsRtImm _), exec_requestsTransfer bne_iff_ne rfl⟩,
    ⟨decode_of_usedBits rfl (encI_and_maskOpRsImm ..), exec_requestsTransfer decide_eq_true_iff rfl⟩,
    ⟨decode_of_usedBits rfl (encI_and_maskOpRsImm ..), exec_requestsTransfer decide_eq_true_iff rfl⟩,
    ⟨decode_of_usedBits rfl (and_maskOpRsRtImm _), exec_requestsTransfer decide_eq_true_iff rfl⟩,
    decode_of_usedBits rfl (and_maskOpRsRtImm _), exec_requestsTransfer decide_eq_true_iff rfl⟩

/-! ### And-link branches (R152, R153) -/

/-- A branch target is counted from `pc`, which the link write leaves alone. -/
theorem btarget_setX (s : State) (rd : Reg) (v : Word) (imm : Half) :
    (s.setX rd v).btarget imm = s.btarget imm :=
  congrArg (· + (sext16 imm <<< 2)) (setX_pc s rd v)

theorem exec_bltzal (s : State) (rs : Reg) (imm : Half) :
    exec (.bltzal rs imm) s = retireTransfer (decide ((testedAfterLink s rs).toInt < 0))
      (s.btarget imm) [31] (s.setX 31 s.link) := by
  rw [← x_setX_link, ← btarget_setX s 31 s.link]
  rfl

theorem exec_bgezal (s : State) (rs : Reg) (imm : Half) :
    exec (.bgezal rs imm) s = retireTransfer (decide (0 ≤ (testedAfterLink s rs).toInt))
      (s.btarget imm) [31] (s.setX 31 s.link) := by
  rw [← x_setX_link, ← btarget_setX s 31 s.link]
  rfl

/-- Settles O58: the register tested is read after the link is written. -/
theorem linkingBranchTransfers : Obligations.LinkingBranchTransfers := by
  rintro s rs imm bt tested o rfl rfl
  exact ⟨⟨decode_of_usedBits rfl (and_maskOpRsRtImm _),
      exec_requestsTransfer_link decide_eq_true_iff (exec_bltzal s rs imm)⟩,
    decode_of_usedBits rfl (and_maskOpRsRtImm _),
    exec_requestsTransfer_link decide_eq_true_iff (exec_bgezal s rs imm)⟩

/-! ### Targets (R154) -/

theorem RequestsTransfer.transfer_eq {s t : State} {links : List Reg} {taken : Prop} {target : Word}
    (h : RequestsTransfer s t links taken target) (ht : taken) : t.transfer = some target := by
  obtain ⟨-, -, -, -, htaken, -⟩ := h
  exact htaken ht

theorem btarget_sub_pc (s : State) (imm : Half) : s.btarget imm - s.pc = sext16 imm <<< 2 := by
  rw [State.btarget, BitVec.add_comm, BitVec.add_sub_cancel]

/-- Settles O59: a shift left by 2 makes the jump target and the branch distance multiples of 4; a register
jump hands over the register's content. -/
theorem targetsAreMultiplesOfFour : Obligations.TargetsAreMultiplesOfFour := by
  intro s target26 imm rs
  refine ⟨aligned_jtarget s target26, ?_, ?_, fun rd => ?_⟩
  · rw [btarget_sub_pc]
    exact aligned_shiftLeft_two _
  · obtain ⟨t, he, ht⟩ := exec_jr_requestsTransfer s rs
    exact ⟨t, he, ht.transfer_eq trivial⟩
  · obtain ⟨t, he, ht⟩ := exec_jalr_requestsTransfer s rs rd
    exact ⟨t, he, ht.transfer_eq trivial⟩

end Sys2Proof.Machine
end

section
/-! PROOFS. Loads (`42_loads.md` R170 to R178): each ends in `retireLoad`, whose frame is said in
`Sys2Proof/Laws/Ops.lean`, so what is left to say of one is its encoding and the value it schedules. -/

namespace Sys2Proof.Machine

/-! ### The ending, with the value as the rules state it -/

/-- A meaning that ends in a load schedules its value. -/
theorem exec_schedulesLoad {i : Instr} {s : State} {rt : Reg} {v w a : Word} {n : Nat} (hv : v = w)
    (he : exec i s = retireLoad rt v a n s) :
    ∃ t, exec i s = .next t ∧ SchedulesLoad s t rt w a n := by
  rw [he, ← hv]
  exact retireLoad_spec rt v a n s

/-- Settles O50: the value each load extends is that of the bytes read at the address. -/
theorem loadResults : Obligations.LoadResults := by
  rintro s rs rt imm a o rfl
  exact ⟨⟨decode_of_usedBits rfl (and_maskOpRsRtImm _),
      exec_schedulesLoad (congrArg sext8 (readLE_byte s.mem _)) rfl⟩,
    ⟨decode_of_usedBits rfl (and_maskOpRsRtImm _),
      exec_schedulesLoad (congrArg zext8 (readLE_byte s.mem _)) rfl⟩,
    ⟨decode_of_usedBits rfl (and_maskOpRsRtImm _),
      exec_schedulesLoad (congrArg sext16 (readLE_half s.mem _)) rfl⟩,
    ⟨decode_of_usedBits rfl (and_maskOpRsRtImm _),
      exec_schedulesLoad (congrArg zext16 (readLE_half s.mem _)) rfl⟩,
    decode_of_usedBits rfl (and_maskOpRsRtImm _),
    exec_schedulesLoad (readLE_word s.mem _) rfl⟩

/-! ### Byte lanes of the unaligned loads (R176, R177) -/

/-- The value `lwl` schedules: the aligned word around `a` merged into `cur`. -/
def lwlValue (m : Memory) (a cur : Word) : Word :=
  lwlMerge (lane a) cur (readLE m (alignWord a) 4)

/-- The value `lwr` schedules. -/
def lwrValue (m : Memory) (a cur : Word) : Word :=
  lwrMerge (lane a) cur (readLE m (alignWord a) 4)

theorem exec_lwl (s : State) (rs rt : Reg) (imm : Half) :
    exec (.lwl rs rt imm) s = retireLoad rt (lwlValue s.mem (s.ea rs imm) (s.mergeOperand rt))
      (alignWord (s.ea rs imm)) 4 s := rfl

theorem exec_lwr (s : State) (rs rt : Reg) (imm : Half) :
    exec (.lwr rs rt imm) s = retireLoad rt (lwrValue s.mem (s.ea rs imm) (s.mergeOperand rt))
      (alignWord (s.ea rs imm)) 4 s := rfl

theorem byteOf_lwlValue (m : Memory) (a cur : Word) {k : Nat} (hk : k < 4) :
    byteOf (lwlValue m a cur) k =
      if 3 - a.toNat % 4 ≤ k then
        readU8 m (alignWord a + BitVec.ofNat 32 (k - (3 - a.toNat % 4)))
      else byteOf cur k := by
  rw [lwlValue, byteOf_lwlMerge _ _ _ k hk, lane_toNat,
    byteOf_readLE m _ 4 _ (by omega) (Nat.le_refl 4)]

/-- Counting from an address is counting from its aligned word, past the lane. -/
theorem alignWord_add_ofNat_add_lane (a : Word) (k : Nat) :
    alignWord a + BitVec.ofNat 32 (k + a.toNat % 4) = a + BitVec.ofNat 32 k := by
  rw [Nat.add_comm, BitVec.ofNat_add, ← BitVec.add_assoc, ← lane_toNat, alignWord_add_lane]

theorem byteOf_lwrValue (m : Memory) (a cur : Word) {k : Nat} (hk : k < 4) :
    byteOf (lwrValue m a cur) k =
      if k < 4 - a.toNat % 4 then readU8 m (a + BitVec.ofNat 32 k) else byteOf cur k := by
  rw [lwrValue, byteOf_lwrMerge _ _ _ k hk, lane_toNat]
  split
  · rw [byteOf_readLE m _ 4 _ (by omega) (Nat.le_refl 4), alignWord_add_ofNat_add_lane]
  · rfl

/-- Settles O51: the bytes of the value scheduled are those of the merge. -/
theorem unalignedLoadLanes : Obligations.UnalignedLoadLanes := by
  rintro s rs rt imm a b cur n o rfl rfl rfl rfl
  obtain ⟨t, ht, hl⟩ := exec_schedulesLoad rfl (exec_lwl s rs rt imm)
  obtain ⟨u, hu, hr⟩ := exec_schedulesLoad rfl (exec_lwr s rs rt imm)
  exact ⟨⟨decode_of_usedBits rfl (and_maskOpRsRtImm _), t, _, ht, hl,
      fun k hk => byteOf_lwlValue s.mem _ _ hk⟩,
    decode_of_usedBits rfl (and_maskOpRsRtImm _), u, _, hu, hr,
    fun k hk => byteOf_lwrValue s.mem _ _ hk⟩

/-! ### The pair (R178) -/

/-- The lane of the `lwl` address of a pair, from that of its `lwr` address `a`. -/
theorem add_three_mod_four (a : Word) : (a + 3#32).toNat % 4 = (a.toNat + 3) % 4 := by
  rw [BitVec.toNat_add, BitVec.toNat_ofNat]
  omega

/-- Where `lwl` at `a + 3` reads byte `k`. -/
theorem alignWord_add_three (a : Word) {k : Nat} (hk : k < 4) (h : 3 - (a + 3#32).toNat % 4 ≤ k) :
    alignWord (a + 3#32) + BitVec.ofNat 32 (k - (3 - (a + 3#32).toNat % 4)) =
      a + BitVec.ofNat 32 k := by
  have ha : (a + 3#32).toNat = (a.toNat + 3) % 2 ^ 32 := BitVec.toNat_add a 3#32
  apply BitVec.eq_of_toNat_eq
  rw [alignWord_add_toNat _ (by omega), ha, BitVec.toNat_add, BitVec.toNat_ofNat]
  omega

/-- `lwl` at `a + 3` supplies the bytes above those of `lwr` at `a`, or all four when `a` is aligned. -/
theorem byteOf_lwlValue_add_three (m : Memory) (a cur : Word) {k : Nat} (hk : k < 4) :
    byteOf (lwlValue m (a + 3#32) cur) k =
      if a.toNat % 4 = 0 ∨ 4 - a.toNat % 4 ≤ k then readU8 m (a + BitVec.ofNat 32 k)
      else byteOf cur k := by
  have hlane := add_three_mod_four a
  have hiff : 3 - (a + 3#32).toNat % 4 ≤ k ↔ a.toNat % 4 = 0 ∨ 4 - a.toNat % 4 ≤ k := by omega
  rw [byteOf_lwlValue m _ cur hk]
  exact ite_congr (propext hiff) (fun h => by rw [alignWord_add_three a hk (hiff.2 h)]) fun _ => rfl

theorem lwlValue_lwrValue (m : Memory) (a cur : Word) :
    lwlValue m (a + 3#32) (lwrValue m a cur) = readLE m a 4 := by
  refine eq_of_bytes fun k hk => ?_
  rw [byteOf_readLE m a 4 k hk (Nat.le_refl 4), byteOf_lwlValue_add_three m a _ hk]
  split
  · rfl
  · rw [byteOf_lwrValue m a cur hk, if_pos (by omega)]

theorem lwrValue_lwlValue (m : Memory) (a cur : Word) :
    lwrValue m a (lwlValue m (a + 3#32) cur) = readLE m a 4 := by
  refine eq_of_bytes fun k hk => ?_
  rw [byteOf_readLE m a 4 k hk (Nat.le_refl 4), byteOf_lwrValue m a _ hk]
  split
  · rfl
  · rw [byteOf_lwlValue_add_three m a cur hk, if_pos (by omega)]

/-! #### The second load of a pair -/

section
variable {s t : State} {rt : Reg} {v b : Word} {n : Nat}

/-- The load just scheduled is what the next merge into its register takes. -/
theorem SchedulesLoad.mergeOperand_eq (h : SchedulesLoad s t rt v b n) (h0 : rt ≠ 0) :
    t.mergeOperand rt = v := by
  obtain ⟨-, hpend, -⟩ := h
  simp [State.mergeOperand, hpend, h0]

theorem landedX_of_not_pend {r : Reg} (h : ∀ p, s.pend = some p → p.reg ≠ r) :
    landedX s r = s.x r := by
  unfold landedX
  split
  · next p hp => exact if_neg fun hr => h p hp hr.1
  · rfl

/-- With no load into the base in flight, a load leaves addresses from it as they were. -/
theorem SchedulesLoad.ea_eq (h : SchedulesLoad s t rt v b n) {rs : Reg}
    (hrs : ∀ p, s.pend = some p → p.reg ≠ rs) (imm : Half) : t.ea rs imm = s.ea rs imm := by
  obtain ⟨hx, -⟩ := h
  rw [State.ea, hx, landedX_of_not_pend hrs, State.ea]

theorem SchedulesLoad.readLE_eq (h : SchedulesLoad s t rt v b n) (a : Word) (k : Nat) :
    readLE t.mem a k = readLE s.mem a k := by
  obtain ⟨-, -, -, -, -, hmem, -⟩ := h
  exact readLE_congr hmem a k

theorem exec_lwl_of_schedulesLoad (h : SchedulesLoad s t rt v b n) (h0 : rt ≠ 0) {rs : Reg}
    (hrs : ∀ p, s.pend = some p → p.reg ≠ rs) (imm : Half) :
    ∃ u, exec (.lwl rs rt imm) t = .next u ∧ u.pend = some ⟨rt, lwlValue s.mem (s.ea rs imm) v⟩ := by
  obtain ⟨u, hu, -, hpend, -⟩ := exec_schedulesLoad rfl (exec_lwl t rs rt imm)
  refine ⟨u, hu, ?_⟩
  rw [hpend, h.mergeOperand_eq h0, h.ea_eq hrs, lwlValue, h.readLE_eq, lwlValue]

theorem exec_lwr_of_schedulesLoad (h : SchedulesLoad s t rt v b n) (h0 : rt ≠ 0) {rs : Reg}
    (hrs : ∀ p, s.pend = some p → p.reg ≠ rs) (imm : Half) :
    ∃ u, exec (.lwr rs rt imm) t = .next u ∧ u.pend = some ⟨rt, lwrValue s.mem (s.ea rs imm) v⟩ := by
  obtain ⟨u, hu, -, hpend, -⟩ := exec_schedulesLoad rfl (exec_lwr t rs rt imm)
  refine ⟨u, hu, ?_⟩
  rw [hpend, h.mergeOperand_eq h0, h.ea_eq hrs, lwrValue, h.readLE_eq, lwrValue]

end

/-- Settles O52: the second load of the pair merges into the first one's value, and the two lanes together
are the word. -/
theorem adjacentUnalignedLoadPairLoadsWord : Obligations.AdjacentUnalignedLoadPairLoadsWord := by
  rintro s rs rt k k3 a h0 hrs hk rfl
  have hea : s.ea rs k3 = s.ea rs k + 3#32 := by
    rw [State.ea, State.ea, sext16, sext16, hk, BitVec.add_assoc]
  constructor
  · obtain ⟨t, ht, hload⟩ := exec_schedulesLoad rfl (exec_lwr s rs rt k)
    obtain ⟨u, hu, hpend⟩ := exec_lwl_of_schedulesLoad hload h0 hrs k3
    rw [hea, lwlValue_lwrValue] at hpend
    exact ⟨t, u, ht, hu, hpend⟩
  · obtain ⟨t, ht, hload⟩ := exec_schedulesLoad rfl (exec_lwl s rs rt k3)
    obtain ⟨u, hu, hpend⟩ := exec_lwr_of_schedulesLoad hload h0 hrs k
    rw [hea, lwrValue_lwlValue] at hpend
    exact ⟨t, u, ht, hu, hpend⟩

end Sys2Proof.Machine
end

section
/-! PROOFS. Stores (`43_stores.md` R191 to R196): each ends in `retireStore`, whose frame is said in
`Sys2Proof/Laws/Ops.lean`. An unaligned store writes back the aligned word it read, so it stores only the
bytes that its merge takes from the register. -/

namespace Sys2Proof.Machine

/-! ### The diagnostics of a wide write (`20_memory.md` R59, R62) -/

theorem writeDiags_succ (a : Word) (n : Nat) (v : Word) :
    writeDiags a (n + 1) v = writeDiag a (byteOf v 0) ++ writeDiags (a + 1#32) n (v >>> 8) := by
  rw [writeDiags, byteOf_zero]

theorem writeDiags_one (a v : Word) : writeDiags a 1 v = writeDiag a (byteOf v 0) := by
  rw [writeDiags_succ, writeDiags, List.append_nil]

theorem writeDiags_two (a v : Word) :
    writeDiags a 2 v = writeDiag a (byteOf v 0) ++ writeDiag (a + 1#32) (byteOf v 1) := by
  rw [writeDiags_succ, writeDiags_one, byteOf_shift]

theorem writeDiags_four (a v : Word) :
    writeDiags a 4 v = writeDiag a (byteOf v 0) ++ writeDiag (a + 1#32) (byteOf v 1) ++
      writeDiag (a + 2#32) (byteOf v 2) ++ writeDiag (a + 3#32) (byteOf v 3) := by
  have htwo : a + 1#32 + 1#32 = a + 2#32 := BitVec.add_assoc ..
  have hthree : a + 2#32 + 1#32 = a + 3#32 := BitVec.add_assoc ..
  rw [writeDiags_succ, writeDiags_succ, writeDiags_two, htwo, hthree]
  simp only [byteOf_shift, List.append_assoc]

/-! ### Stores at any address (R191 to R193) -/

/-- A meaning that ends in a store of up to four bytes stores them. -/
theorem exec_storesBytes {i : Instr} {s : State} {a v : Word} {n : Nat} (hn : n ≤ 4)
    (he : exec i s = retireStore a n v s) :
    ∃ t, exec i s = .next t ∧ StoresBytes s t a n v (writeDiags a n v) := by
  rw [he]
  exact retireStore_spec a n v s (by omega)

/-- Settles O53: each of the three is the shared ending with its width. -/
theorem storeResults : Obligations.StoreResults := by
  rintro s rs rt imm a o rfl
  exact ⟨⟨decode_of_usedBits rfl (and_maskOpRsRtImm _), exec_storesBytes (by decide) rfl⟩,
    ⟨decode_of_usedBits rfl (and_maskOpRsRtImm _), exec_storesBytes (by decide) rfl⟩,
    ⟨decode_of_usedBits rfl (and_maskOpRsRtImm _), exec_storesBytes (by decide) rfl⟩,
    fun c v => ⟨writeDiags_one c v, writeDiags_two c v, writeDiags_four c v⟩⟩

/-! ### Byte lanes of the unaligned stores (R194, R195) -/

theorem add_ofNat_add_ofNat (a : Word) (j k : Nat) :
    a + BitVec.ofNat 32 j + BitVec.ofNat 32 k = a + BitVec.ofNat 32 (j + k) := by
  rw [BitVec.add_assoc, BitVec.ofNat_add]

section
variable {s t : State} {a b c w v : Word} {n j : Nat} {d : List Diag}

/-- Writing a word over the one read at the same place stores `n` bytes from byte `j` up, when the two
agree in all the others. -/
theorem StoresBytes.of_agree_outside (h : StoresBytes s t b 4 w d) (hc : c = b + BitVec.ofNat 32 j)
    (hj : j + n ≤ 4) (hnew : ∀ k, k < n → byteOf w (j + k) = byteOf v k)
    (hold : ∀ k, k < 4 → k < j ∨ j + n ≤ k → byteOf w k = byteOf (readLE s.mem b 4) k) :
    StoresBytes s t c n v d := by
  subst hc
  obtain ⟨hx, hpend, hfixed, hhalted, htransfer, hin, hout, hdiags⟩ := h
  refine ⟨hx, hpend, hfixed, hhalted, htransfer, fun k hk => ?_, fun e he => ?_, hdiags⟩
  · rw [add_ofNat_add_ofNat, hin (j + k) (by omega), hnew k hk]
  · by_cases hword : ∃ k, k < 4 ∧ e = b + BitVec.ofNat 32 k
    · obtain ⟨k, hk, rfl⟩ := hword
      have hkept : k < j ∨ j + n ≤ k := by
        by_contra hstored
        refine he (k - j) (by omega) ?_
        rw [add_ofNat_add_ofNat, Nat.add_sub_cancel' (by omega)]
      rw [hin k hk, hold k hk hkept, byteOf_readLE _ _ 4 k hk (by decide), ite_self]
    · exact hout e fun k hk hek => hword ⟨k, hk, hek⟩

/-- Writing back the merge of `swl` stores the register's top bytes from the aligned word's start up. -/
theorem StoresBytes.of_swlMerge
    (h : StoresBytes s t (alignWord a) 4 (swlMerge (lane a) (readLE s.mem (alignWord a) 4) v) d) :
    StoresBytes s t (alignWord a) (a.toNat % 4 + 1) (v >>> (8 * (3 - a.toNat % 4))) d := by
  have hlane := lane_lt a
  rw [← lane_toNat]
  refine h.of_agree_outside (BitVec.add_zero _).symm (by omega) (fun k hk => ?_) fun k hk hkept => ?_
  · rw [Nat.zero_add, byteOf_swlMerge _ _ _ k (by omega), if_pos hk]
  · rw [byteOf_swlMerge _ _ _ k hk, if_neg (by omega)]

/-- Writing back the merge of `swr` stores the register's low bytes from `a` up. -/
theorem StoresBytes.of_swrMerge
    (h : StoresBytes s t (alignWord a) 4 (swrMerge (lane a) (readLE s.mem (alignWord a) 4) v) d) :
    StoresBytes s t a (4 - a.toNat % 4) v d := by
  have hlane := lane_lt a
  rw [← lane_toNat]
  refine h.of_agree_outside (alignWord_add_lane a).symm (by omega) (fun k hk => ?_)
    fun k hk hkept => ?_
  · rw [byteOf_swrMerge _ _ _ _ (by omega), if_pos (by omega), Nat.add_sub_cancel_left]
  · rw [byteOf_swrMerge _ _ _ k hk, if_neg (by omega)]

end

theorem exec_swl_storesBytes (s : State) (rs rt : Reg) (imm : Half) {a : Word} (ha : s.ea rs imm = a) :
    ∃ t, exec (.swl rs rt imm) s = .next t ∧
      StoresBytes s t (alignWord a) (a.toNat % 4 + 1) (s.x rt >>> (8 * (3 - a.toNat % 4)))
        (readDiags (alignWord a) 4 ++
          writeDiags (alignWord a) 4 (swlMerge (lane a) (readLE s.mem (alignWord a) 4) (s.x rt))) := by
  subst ha
  obtain ⟨t, ht, hstore⟩ := retireStore_noteRead_spec (alignWord (s.ea rs imm)) 4 _ s (by decide)
  exact ⟨t, ht, hstore.of_swlMerge⟩

theorem exec_swr_storesBytes (s : State) (rs rt : Reg) (imm : Half) {a : Word} (ha : s.ea rs imm = a) :
    ∃ t, exec (.swr rs rt imm) s = .next t ∧
      StoresBytes s t a (4 - a.toNat % 4) (s.x rt)
        (readDiags (alignWord a) 4 ++
          writeDiags (alignWord a) 4 (swrMerge (lane a) (readLE s.mem (alignWord a) 4) (s.x rt))) := by
  subst ha
  obtain ⟨t, ht, hstore⟩ := retireStore_noteRead_spec (alignWord (s.ea rs imm)) 4 _ s (by decide)
  exact ⟨t, ht, hstore.of_swrMerge⟩

/-- Settles O54: the bytes stored are those the merge takes from the register. -/
theorem unalignedStoreLanes : Obligations.UnalignedStoreLanes := by
  rintro s rs rt imm a b n o rfl rfl rfl
  exact ⟨⟨decode_of_usedBits rfl (and_maskOpRsRtImm _), exec_swl_storesBytes s rs rt imm rfl⟩,
    decode_of_usedBits rfl (and_maskOpRsRtImm _), exec_swr_storesBytes s rs rt imm rfl⟩

/-! ### The pair (R196) -/

/-- From `m` to `m'`, the bytes `lo` to `hi - 1` of `v` are stored in the word at `a`, and no other byte
changes. -/
def StoresLanes (m m' : Memory) (a v : Word) (lo hi : Nat) : Prop :=
  (∀ k, k < 4 → readU8 m' (a + BitVec.ofNat 32 k) =
    if lo ≤ k ∧ k < hi then byteOf v k else readU8 m (a + BitVec.ofNat 32 k)) ∧
  ∀ c, (∀ k, k < 4 → c ≠ a + BitVec.ofNat 32 k) → readU8 m' c = readU8 m c

/-- Two stores of lanes of one word that together cover it store the word, whichever is first. -/
theorem StoresLanes.trans {m m' m'' : Memory} {a v : Word} {lo hi lo' hi' : Nat}
    (h : StoresLanes m m' a v lo hi) (h' : StoresLanes m' m'' a v lo' hi')
    (hcover : ∀ k, k < 4 → (lo ≤ k ∧ k < hi) ∨ (lo' ≤ k ∧ k < hi')) :
    readLE m'' a 4 = v ∧
      ∀ c, (∀ k, k < 4 → c ≠ a + BitVec.ofNat 32 k) → readU8 m'' c = readU8 m c := by
  obtain ⟨hin, hout⟩ := h
  obtain ⟨hin', hout'⟩ := h'
  refine ⟨eq_of_bytes fun k hk => ?_, fun c hc => (hout' c hc).trans (hout c hc)⟩
  rw [byteOf_readLE _ _ 4 k hk (by decide), hin' k hk]
  split
  · rfl
  · next hnot => rw [hin k hk, if_pos ((hcover k hk).resolve_right hnot)]

theorem add_ofNat_injective (a : Word) {j k : Nat} (hj : j < 4) (hk : k < 4)
    (h : a + BitVec.ofNat 32 j = a + BitVec.ofNat 32 k) : j = k := by
  have hnat := congrArg BitVec.toNat (add_left_cancel h)
  rw [BitVec.toNat_ofNat, BitVec.toNat_ofNat] at hnat
  omega

section
variable {s t : State} {a b v : Word} {n lo hi : Nat} {d : List Diag}

/-- A store of the bytes of `v` from byte `lo` up, above `a` by as much, stores these lanes. -/
theorem StoresBytes.storesLanes (h : StoresBytes s t b n (v >>> (8 * lo)) d)
    (hb : b = a + BitVec.ofNat 32 lo) (hhi : lo + n = hi) (h4 : hi ≤ 4)
    (hw : ∀ k, k < 4 → writable (a + BitVec.ofNat 32 k) = true) :
    StoresLanes s.mem t.mem a v lo hi := by
  subst hb hhi
  obtain ⟨-, -, -, -, -, hin, hout, -⟩ := h
  simp only [add_ofNat_add_ofNat, byteOf_shr] at hin hout
  refine ⟨fun k hk => ?_, fun c hc => hout c fun k hk => hc (lo + k) (by omega)⟩
  split
  · next hlane =>
    have hstored := hin (k - lo) (by omega)
    rwa [Nat.add_sub_cancel' hlane.1, if_pos (hw k hk), Nat.sub_add_cancel hlane.1] at hstored
  · next hlane =>
    refine hout _ fun j hj e => hlane ?_
    obtain rfl := add_ofNat_injective a hk (by omega) e
    omega

/-- What `swr` at `a` stores of the word at `a`. -/
theorem StoresBytes.storesLanes_swr (h : StoresBytes s t a (4 - a.toNat % 4) v d)
    (hw : ∀ k, k < 4 → writable (a + BitVec.ofNat 32 k) = true) :
    StoresLanes s.mem t.mem a v 0 (4 - a.toNat % 4) :=
  h.storesLanes (BitVec.add_zero a).symm (Nat.zero_add _) (by omega) hw

/-- What `swl` at `a + 3` stores of the word at `a`. -/
theorem StoresBytes.storesLanes_swl
    (h : StoresBytes s t (alignWord (a + 3#32)) ((a + 3#32).toNat % 4 + 1)
      (v >>> (8 * (3 - (a + 3#32).toNat % 4))) d)
    (hw : ∀ k, k < 4 → writable (a + BitVec.ofNat 32 k) = true) :
    StoresLanes s.mem t.mem a v (3 - (a + 3#32).toNat % 4) 4 := by
  have hstart := alignWord_add_three a (k := 3 - (a + 3#32).toNat % 4) (by omega) (Nat.le_refl _)
  rw [Nat.sub_self, BitVec.add_zero] at hstart
  exact h.storesLanes hstart (by omega) (by omega) hw

/-- With no load into it in flight, a store leaves a register as it was. -/
theorem StoresBytes.x_eq (h : StoresBytes s t b n v d) {r : Reg}
    (hr : ∀ p, s.pend = some p → p.reg ≠ r) : t.x r = s.x r := by
  obtain ⟨hx, -⟩ := h
  rw [hx, landedX_of_not_pend hr]

theorem StoresBytes.ea_eq (h : StoresBytes s t b n v d) {rs : Reg}
    (hrs : ∀ p, s.pend = some p → p.reg ≠ rs) (imm : Half) : t.ea rs imm = s.ea rs imm := by
  rw [State.ea, h.x_eq hrs, State.ea]

end

/-- Every byte of the word at `a` is stored by `swr` at `a` or by `swl` at `a + 3`. -/
theorem swr_lanes_or_swl_lanes (a : Word) {k : Nat} (hk : k < 4) :
    (0 ≤ k ∧ k < 4 - a.toNat % 4) ∨ (3 - (a + 3#32).toNat % 4 ≤ k ∧ k < 4) := by
  have hlane := add_three_mod_four a
  omega

/-- Settles O55: the lanes of the two stores cover the word, and the second store finds the registers as
the first did. -/
theorem unalignedStorePairStoresWord : Obligations.UnalignedStorePairStoresWord := by
  rintro s rs rt k k3 a hpend hk rfl hw
  have hea3 : s.ea rs k3 = s.x rs + k.signExtend 32 + 3#32 := by
    rw [State.ea, sext16, hk, BitVec.add_assoc]
  have hrs : ∀ p, s.pend = some p → p.reg ≠ rs := fun p hp => (hpend p hp).1
  have hrt : ∀ p, s.pend = some p → p.reg ≠ rt := fun p hp => (hpend p hp).2
  constructor
  · obtain ⟨t, ht, hlow⟩ := exec_swr_storesBytes s rs rt k rfl
    obtain ⟨u, hu, hhigh⟩ := exec_swl_storesBytes t rs rt k3 ((hlow.ea_eq hrs k3).trans hea3)
    rw [hlow.x_eq hrt] at hhigh
    exact ⟨t, u, ht, hu,
      (hlow.storesLanes_swr hw).trans (hhigh.storesLanes_swl hw) fun _ => swr_lanes_or_swl_lanes _⟩
  · obtain ⟨t, ht, hhigh⟩ := exec_swl_storesBytes s rs rt k3 hea3
    obtain ⟨u, hu, hlow⟩ := exec_swr_storesBytes t rs rt k (hhigh.ea_eq hrs k)
    rw [hhigh.x_eq hrt] at hlow
    exact ⟨t, u, ht, hu,
      (hhigh.storesLanes_swl hw).trans (hlow.storesLanes_swr hw) fun _ hj =>
        (swr_lanes_or_swl_lanes _ hj).symm⟩

end Sys2Proof.Machine
end

section
/-! PROOFS. The ALU-immediate instructions (`44_alu_immediate.md` R210 to R218): each ends in `retireWrite`,
whose frame is said in `Sys2Proof/Laws/Ops.lean`, or, `addi` on overflow, in the halt, so what is left to say
of one is its encoding and its result. -/

namespace Sys2Proof.Machine

/-! ### The endings, with the value as the rules state it -/

section
variable {i : Instr} {s : State} {rd : Reg} {v : Word}

/-- A meaning that ends in a register write writes its value. -/
theorem exec_writesOnly {w : Word} (hv : v = w) (he : exec i s = retireWrite rd v s) :
    ∃ t, exec i s = .next t ∧ WritesOnly s t rd w := by
  rw [he, ← hv]
  exact retireWrite_spec rd v s

/-- A meaning that tests for signed overflow before its write: if the test says exactly that the exact result
`e` is out of range, and the value is `e` narrowed to a word, it writes `e` in range and halts out of range. -/
theorem exec_writesOnly_or_halts {overflows : Bool} {e : Int}
    (ho : overflows = true ↔ ¬ (-2 ^ 31 ≤ e ∧ e < 2 ^ 31)) (hv : BitVec.ofInt 32 e = v)
    (he : exec i s = if overflows then raiseHalt .integerOverflow s else retireWrite rd v s) :
    ((-2 ^ 31 ≤ e ∧ e < 2 ^ 31) →
      ∃ t, exec i s = .next t ∧ WritesOnly s t rd (BitVec.ofInt 32 e)) ∧
    ((e < -2 ^ 31 ∨ 2 ^ 31 ≤ e) → ∃ t, exec i s = .next t ∧ Halts s t .integerOverflow) := by
  refine ⟨fun hfits => ?_, fun hout => ?_⟩
  · have hno : ¬ overflows = true := fun h => ho.mp h hfits
    exact exec_writesOnly hv.symm (he.trans (if_neg hno))
  · have hyes : overflows = true := ho.mpr (by omega)
    rw [he, if_pos hyes]
    exact raiseHalt_spec .integerOverflow s

end

/-! ### The seven that never halt (R212 to R218) -/

theorem boolWord_lessSigned_sext16 (a : Word) (imm : Half) :
    boolWord (lessSigned a (sext16 imm)) = if a.toInt < imm.toInt then 1#32 else 0#32 := by
  rw [boolWord_lessSigned, toInt_sext16]

/-- Settles O45: the seven differ in the value; `lui` ignores the `rs` field, and in the others every field
is used. -/
theorem aluImmediateResults : Obligations.AluImmediateResults := by
  intro s rs rt imm o b
  have hzext : zext16 imm = 0#16 ++ imm := (append_zero_left imm).symm
  exact ⟨⟨decode_of_usedBits rfl (and_maskOpRsRtImm _), exec_writesOnly rfl rfl⟩,
    ⟨decode_of_usedBits rfl (and_maskOpRsRtImm _),
      exec_writesOnly (boolWord_lessSigned_sext16 (s.x rs) imm) rfl⟩,
    ⟨decode_of_usedBits rfl (and_maskOpRsRtImm _),
      exec_writesOnly (boolWord_lessUnsigned (s.x rs) (sext16 imm)) rfl⟩,
    ⟨decode_of_usedBits rfl (and_maskOpRsRtImm _),
      exec_writesOnly (congrArg (s.x rs &&& ·) hzext) rfl⟩,
    ⟨decode_of_usedBits rfl (and_maskOpRsRtImm _),
      exec_writesOnly (congrArg (s.x rs ||| ·) hzext) rfl⟩,
    ⟨decode_of_usedBits rfl (and_maskOpRsRtImm _),
      exec_writesOnly (congrArg (s.x rs ^^^ ·) hzext) rfl⟩,
    decode_of_usedBits rfl (encI_and_maskOpRtImm ..),
    exec_writesOnly (append_zero_right imm).symm rfl⟩

/-! ### `addi` (R211) -/

/-- Settles O46: the overflow test on the extended immediate says that the exact sum is out of range. -/
theorem addiHaltsExactlyOnOverflow : Obligations.AddiHaltsExactlyOnOverflow := by
  rintro s rs rt imm e o rfl
  rw [← toInt_sext16 imm]
  exact ⟨decode_of_usedBits rfl (and_maskOpRsRtImm _),
    exec_writesOnly_or_halts (addOverflows_iff (s.x rs) (sext16 imm))
      (ofInt_add_toInt (s.x rs) (sext16 imm)) rfl⟩

end Sys2Proof.Machine
end

section
/-! PROOFS. The register-register instructions of the `SPECIAL_ALU` option (`45_special_alu_option.md` R231 to
R246): each ends as an ALU-immediate instruction does, in `retireWrite` or, `add` and `sub` on overflow, in the
halt, so the endings are those lemmas. The shifts by an immediate ignore the `rs` field, the others `shamt`. -/

namespace Sys2Proof.Machine

/-! ### Shifts (R231 to R236) -/

/-- Settles O47: the six differ in the shift and in its amount, which is `shamt` or the low five bits of a
register. -/
theorem shiftResults : Obligations.ShiftResults := by
  intro s rs rt rd sh b
  have hamount : shiftAmount (s.x rs) = (s.x rs).toNat % 32 := shiftAmount_eq (s.x rs)
  exact ⟨⟨decode_of_usedBits rfl (encR_and_maskShift ..), exec_writesOnly rfl rfl⟩,
    ⟨decode_of_usedBits rfl (encR_and_maskShift ..), exec_writesOnly rfl rfl⟩,
    ⟨decode_of_usedBits rfl (encR_and_maskShift ..), exec_writesOnly rfl rfl⟩,
    ⟨decode_of_usedBits rfl (encR_and_maskThreeReg ..),
      exec_writesOnly (congrArg (s.x rt <<< ·) hamount) rfl⟩,
    ⟨decode_of_usedBits rfl (encR_and_maskThreeReg ..),
      exec_writesOnly (congrArg (s.x rt >>> ·) hamount) rfl⟩,
    decode_of_usedBits rfl (encR_and_maskThreeReg ..),
    exec_writesOnly (congrArg (s.x rt).sshiftRight hamount) rfl⟩

/-! ### The eight three-register instructions that never halt (R238, R240 to R246) -/

/-- Settles O48: the eight differ in the value. -/
theorem registerAluResults : Obligations.RegisterAluResults := by
  intro s rs rt rd b
  exact ⟨⟨decode_of_usedBits rfl (encR_and_maskThreeReg ..), exec_writesOnly rfl rfl⟩,
    ⟨decode_of_usedBits rfl (encR_and_maskThreeReg ..), exec_writesOnly rfl rfl⟩,
    ⟨decode_of_usedBits rfl (encR_and_maskThreeReg ..), exec_writesOnly rfl rfl⟩,
    ⟨decode_of_usedBits rfl (encR_and_maskThreeReg ..), exec_writesOnly rfl rfl⟩,
    ⟨decode_of_usedBits rfl (encR_and_maskThreeReg ..), exec_writesOnly rfl rfl⟩,
    ⟨decode_of_usedBits rfl (encR_and_maskThreeReg ..), exec_writesOnly rfl rfl⟩,
    ⟨decode_of_usedBits rfl (encR_and_maskThreeReg ..),
      exec_writesOnly (boolWord_lessSigned (s.x rs) (s.x rt)) rfl⟩,
    decode_of_usedBits rfl (encR_and_maskThreeReg ..),
    exec_writesOnly (boolWord_lessUnsigned (s.x rs) (s.x rt)) rfl⟩

/-! ### `add` and `sub` (R237, R239) -/

/-- Settles O49: the overflow tests say that the exact sum and the exact difference are out of range. -/
theorem addAndSubHaltExactlyOnOverflow : Obligations.AddAndSubHaltExactlyOnOverflow := by
  rintro s rs rt rd e d b rfl rfl
  obtain ⟨haddFits, haddOverflows⟩ := exec_writesOnly_or_halts (i := .add rs rt rd) (rd := rd)
    (addOverflows_iff (s.x rs) (s.x rt)) (ofInt_add_toInt (s.x rs) (s.x rt)) rfl
  obtain ⟨hsubFits, hsubOverflows⟩ := exec_writesOnly_or_halts (i := .sub rs rt rd) (rd := rd)
    (subOverflows_iff (s.x rs) (s.x rt)) (ofInt_sub_toInt (s.x rs) (s.x rt)) rfl
  exact ⟨decode_of_usedBits rfl (encR_and_maskThreeReg ..),
    decode_of_usedBits rfl (encR_and_maskThreeReg ..),
    haddFits, haddOverflows, hsubFits, hsubOverflows⟩

end Sys2Proof.Machine
end

section
/-! PROOFS. The halted condition and the inspection port (`60_exceptions.md` R260 to R266, R280, R281): the only
step that answers no state, the steps and host acts that leave a halted machine halted, and the port's reads and
writes in terms of `State.x` and `State.setX`. -/

namespace Sys2Proof.Machine

/-! ### Steps that answer no next state (R260, `40_execution_cycle.md` R128) -/

/-- A refused step is that of a running machine whose fetched instruction asked for a transfer with a jump or
branch in its slot. -/
theorem step_refused_cases {s : State} {r : Refusal} (h : step s = .refused r) :
    s.halted = .running ∧ ∃ i d u a, fetchedInstr s = .ok i ∧ exec i (fetch s) = .next u ∧
      u.transfer = some a ∧ primedInstr s = .ok d ∧ d.isTransfer = true := by
  have hs : s.halted = .running := by
    by_contra hne
    cases (step_halted hne).symm.trans h
  cases hi : fetchedInstr s with
  | error e =>
    obtain ⟨t, ht, -⟩ := step_halts_of_fetched hs hi
    cases ht.symm.trans h
  | ok i =>
    obtain ⟨u, he⟩ := exec_next i (fetch s)
    obtain ⟨hne, d, hd, hslot⟩ := step_refused_of_exec hs hi he h
    obtain ⟨a, hu⟩ := Option.ne_none_iff_exists'.mp hne
    exact ⟨hs, i, d, u, a, rfl, he, hu, hd, hslot⟩

/-- Settles O28: there is no fault, and a refused step is one that O27 describes. -/
theorem stepAnswersUnlessTransferInSlot : Obligations.StepAnswersUnlessTransferInSlot := by
  intro s
  cases hstep : step s with
  | next t => exact .inl ⟨t, rfl⟩
  | fault f => exact nomatch f
  | refused r =>
    obtain ⟨hs, i, d, u, a, hi, he, hu, hd, hslot⟩ := step_refused_cases hstep
    rw [← hstep]
    exact .inr ⟨hs, transferInTakenSlotIsRefused s u i d a hs hi he hu hd hslot,
      i, d, u, a, hi, isTransfer_of_transfer rfl he hu, he, hu, hd, hslot⟩

/-! ### The inspection port (R280, R281) -/

theorem inspectReadX_val (s : State) (r : Reg) : inspectReadX s r.val = s.x r := dif_pos r.isLt

theorem inspectWriteX_val (s : State) (r : Reg) (v : Word) : inspectWriteX s r.val v = s.setX r v :=
  dif_pos r.isLt

theorem inspectWriteX_of_ge (s : State) {n : Nat} (v : Word) (h : 32 ≤ n) : inspectWriteX s n v = s :=
  dif_neg (Nat.not_lt.mpr h)

/-- A register write changes the register file alone. -/
theorem setX_with_regs (s : State) (r : Reg) (v : Word) : { s.setX r v with regs := s.regs } = s := by
  unfold State.setX
  split <;> rfl

/-- Settles O44: up to index 31 the port's write is a register write. -/
theorem inspectionPortReadsAndWrites : Obligations.InspectionPortReadsAndWrites := by
  intro s r v n
  rw [inspectWriteX_val]
  exact ⟨inspectReadX_val s r, rfl, x_setX s r v, setX_with_regs s r v, rfl, inspectWriteX_of_ge s v⟩

/-! ### The halted machine (R266) -/

/-- A run goes on from the state that its first step answers. -/
theorem run_succ_of_step {M : Host.Core} {s t : M.State} (h : M.step s = .next t) (k : Nat) :
    M.run (k + 1) s = M.run k t := by
  simp [Host.Core.run, h]

theorem run_of_halted {s : State} (h : s.halted ≠ .running) (k : Nat) :
    Host.Core.run Sys2Proof.core k s = .next s := by
  induction k with
  | zero => rfl
  | succ k ih => exact (run_succ_of_step (M := Sys2Proof.core) (step_halted h) k).trans ih

@[simp] theorem inspectWriteX_halted (s : State) (n : Nat) (v : Word) :
    (inspectWriteX s n v).halted = s.halted := by
  by_cases h : n < 32
  · exact (congrArg State.halted (inspectWriteX_val s ⟨n, h⟩ v)).trans (setX_halted s ⟨n, h⟩ v)
  · rw [inspectWriteX_of_ge s v (Nat.not_lt.mp h)]

@[simp] theorem inspectWritePc_halted (s : State) (v : Word) : (inspectWritePc s v).halted = s.halted := rfl

@[simp] theorem cpuReset_halted (s : State) : s.cpuReset.halted = .running := rfl

/-- Settles O29: a halted machine's step is the same state, so a run of steps is too; of the host's acts only the
reset writes the condition. -/
theorem haltedMachineDoesNothing : Obligations.HaltedMachineDoesNothing := fun s h =>
  ⟨run_of_halted h, inspectWriteX_halted s, inspectWritePc_halted s, poke_halted s, loadBios_halted s,
    cpuReset_halted s⟩

end Sys2Proof.Machine
end

section
/-! PROOFS. Decoding an encoded word (`30_encoding.md` R91, R101, R107, R108): the canonical word is made of the
used fields alone, so `decode_eq_ok_iff` gives the instruction back. -/

namespace Sys2Proof

/-- The canonical word has nothing outside the used fields: every ignored field is zero (R101). -/
theorem encode_and_usedBits (i : Instr) : encode i &&& i.usedBits = encode i := by
  cases i
  case blez | bgtz => exact encI_and_maskOpRsImm ..
  case lui => exact encI_and_maskOpRtImm ..
  case jr => exact encR_and_op_rs_funct ..
  case jalr => exact encR_and_op_rs_rd_funct ..
  case sll | srl | sra => exact encR_and_maskShift ..
  case sllv | srlv | srav | add | addu | sub | subu | and | or | xor | nor | slt | sltu =>
    exact encR_and_maskThreeReg ..
  all_goals exact and_maskOpRsRtImm _

/-- Settles O6: a populated instruction's canonical word has its used fields. -/
theorem decodeInvertsEncode : Obligations.DecodeInvertsEncode :=
  fun _ i hi => decode_eq_ok_iff.2 ⟨hi, encode_and_usedBits i⟩

/-- Settles O11: the decoder is computed on each of the words. -/
theorem sampleWordsDecode : Obligations.SampleWordsDecode :=
  ⟨rfl, rfl, rfl, rfl, rfl, rfl, rfl, rfl, rfl, rfl⟩

end Sys2Proof
end

section
/-! PROOFS. Reset and the load hazard of a host write (`70_reset_and_hazards.md` R290, R291, R306;
`10_state.md` R36): the state after a reset, which construction gives too, and the landing that overwrites what
the host wrote. -/

namespace Sys2Proof.Machine

/-! ### Reset (R290, R291, R36) -/

/-- After a CPU reset every register but register 0 holds its open parameter (R24). -/
theorem x_cpuReset (s : State) {i : Reg} (h : i ≠ 0) : s.cpuReset.x i = s.params.resetGpr.get i := by
  have hne : 0 ≠ i.val := fun e => h (Fin.ext e.symm)
  calc s.cpuReset.x i = (s.params.resetGpr.set 0 0#32)[i.val] := if_neg h
    _ = s.params.resetGpr[i.val] := Vector.getElem_set_ne _ _ hne

/-- The empty memory holds no cell out of order or without a reason. -/
theorem Memory.wf_nil : Memory.wf [] = true := rfl

/-- Construction puts 0 in the slot of register 0, whatever the parameter holds there. -/
theorem get_zero_resetWith (p : Params) : (State.resetWith p).regs.get 0 = 0#32 :=
  Vector.getElem_set_self _

/-- Settles O1: the registers by `x_cpuReset`, the fetched word by `fetch_iw`, every other field as the reset
writes or keeps it; construction is a reset with no memory and no diagnostics. -/
theorem resetSetsCpuStateAndKeepsMemory : Obligations.ResetSetsCpuStateAndKeepsMemory :=
  ⟨fun s => ⟨rfl, x_zero s.cpuReset, fun _ => x_cpuReset s, rfl, rfl, rfl, rfl, cpuReset_halted s,
    fetch_iw s.cpuReset, rfl, rfl⟩, fun _ => rfl⟩

/-- Settles O3: memory is empty, register 0 is set to 0, and no transfer is asked for. -/
theorem resetHasStepInvariant : Obligations.ResetHasStepInvariant :=
  fun p => ⟨Memory.wf_nil, get_zero_resetWith p, rfl⟩

/-! ### A host write to a register with a load in flight (R306) -/

/-- Settles O43: the host's write leaves the load in flight, and it lands in the register the instruction does
not write. -/
theorem landingOverwritesHostWrite : Obligations.LandingOverwritesHostWrite := by
  intro s t r v w i _ hpend h0 hr he
  rw [inspectWriteX_val] at he
  have hpend' : (s.setX r w).pend = some ⟨r, v⟩ := (setX_pend s r w).trans hpend
  calc t.x r = landedX (s.setX r w) r := exec_x_of_not_written he hr
    _ = v := landedX_of_pend hpend' h0

end Sys2Proof.Machine
end
